-- ==== Sys2Proof/Word.lean ====
section
/-! DEFINITION. The word types of the engine: all integer state is unsigned (rule R11). -/

namespace Sys2Proof

/-- One element of the IN or OUT stream, `INW = 8` bits (rule R63), and one command word (rule R90). -/
abbrev Byte := BitVec 8

/-- A symbol's ordinal, `SYMW = 7` bits (rule R7). -/
abbrev Sym := BitVec 7

/-- A node reference: an 8-bit node index, or `NIL` (rule R102). -/
abbrev NodeIx := BitVec 8

/-- A bit of a payload or of a code (rule R13): `false` is 0 and `true` is 1. -/
abbrev Bit := Bool

/-- A probability under the binary64 instance: a 64-bit word in the interchange layout (rule R39). -/
abbrev P64 := BitVec 64

end Sys2Proof
end

