-- ==== Sys2Proof/Config.lean ====
section
/-! DEFINITION. What is fixed for the machine: the parameters of 00_scope.md section 3, the record of
the probability numerics, and the one free value of the model. -/

namespace Sys2Proof

/-- `ALPHA`, the number of symbols (rule R7). -/
abbrev Config.alpha : Nat := 128

/-- `NODEMAX`, the depth of the node memory (rule R8). -/
abbrev Config.nodeMax : Nat := 255

/-- `CODEMAX`, the longest possible code in bits (rule R8). -/
abbrev Config.codeMax : Nat := 127

/-- `2^W_COUNT - 1`, the value at which `TOTAL` is full (rules R11 and R133). -/
abbrev Config.countMax : Nat := 2 ^ 32 - 1

/-- `NIL`, "no node" (rule R102). -/
abbrev Config.nil : NodeIx := 0xFF#8

/-- The record `PROB` of rule R9: the members every rule that compares or sums probabilities uses. -/
structure Prob (P : Type) where
  /-- `p_ratio(c, t)`, for `0 <= c <= t` and `t >= 1`. -/
  ratio : Nat → Nat → P
  /-- `p_add(a, b)`. -/
  add : P → P → P
  /-- `p_le(a, b)`. -/
  le : P → P → Bool

/-- `p_eq(a, b) = p_le(a, b) and p_le(b, a)` (rule R9). -/
def Prob.eq {P : Type} (p : Prob P) (a b : P) : Bool := p.le a b && p.le b a

/-- `p_lt(a, b) = not p_le(b, a)` (rule R9). -/
def Prob.lt {P : Type} (p : Prob P) (a b : P) : Bool := !p.le b a

/-- FREE VALUE (log entry 5, DESIGN CHOICE): the bits that `STATUS` shows where the spec gives them no
value, that is the bits other than the error fields while `ERR != 0` (rule R305, item U13). It is
applied to the count of samples taken so far. Safe: nothing can be proved of its value. -/
opaque Config.freeStatus : Nat → BitVec 32

end Sys2Proof
end

