-- ==== Sys2Proof/Syntax.lean ====
section
/-! DEFINITION. The nine commands (rule R92), the format C0 of a command word (rule R91), and the
assembler's abstract text (rules R104 to R106). -/

namespace Sys2Proof

/-- The commands, one constructor per row of the opcode table. A command has no explicit operand: its
operands are the engine state and, for five commands, the IN stream (rule R90). -/
inductive Instr where
  /-- `CLR`, word 0x01: start a new session (rule R120). -/
  | clr
  /-- `HIST`, word 0x02: add the symbols of IN to the histogram (rule R132). -/
  | hist
  /-- `SORT`, word 0x03: build the sorted frequency list (rule R135). -/
  | sort
  /-- `BUILD`, word 0x04: build the tree (rule R161). -/
  | build
  /-- `GEN`, word 0x05: fill the encoding table (rule R191). -/
  | gen
  /-- `ENC`, word 0x06: encode symbols and pack the result (rule R240). -/
  | enc
  /-- `DEC`, word 0x07: unpack bytes and decode them (rule R260). -/
  | dec
  /-- `PACK`, word 0x08: pack bit tokens into bytes (rule R210). -/
  | pack
  /-- `UNPACK`, word 0x09: recover the payload from bytes (rule R216). -/
  | unpack
  deriving DecidableEq, Repr

/-- The format C0 of a command word: `cmd[7:4] = rsv` and `cmd[3:0] = op` (rule R91). -/
structure C0 where
  rsv : BitVec 4
  op : BitVec 4
  deriving DecidableEq, Repr

/-- What the decoder says of a word: the command, or by name why it is none (rule R99). -/
inductive Decoded where
  /-- The word is that command's. -/
  | command (i : Instr)
  /-- The reserved field, which must be 0, is not. -/
  | reservedBits (rsv : BitVec 4)
  /-- No command has this opcode. -/
  | unassignedOpcode (op : BitVec 4)
  deriving DecidableEq, Repr

/-- A stream literal (rule R106). The end-of-input marker is implied at the end of each. -/
inductive Literal where
  /-- A double-quoted string: each character stands for its ASCII code. -/
  | text (chars : List Char)
  /-- Two-digit hexadecimal elements. -/
  | hex (elements : List Byte)
  /-- Digits 0 and 1, each standing for its bit token. -/
  | bits (digits : List Bit)
  deriving DecidableEq, Repr

/-- One line of the spec's text form: a command, with a literal where it reads IN (rule R104), or one
of the two pseudo-commands (rule R105). -/
inductive Line where
  | command (i : Instr) (literal : Option Literal)
  | train (literal : Literal)
  | compress (literal : Literal)
  deriving DecidableEq, Repr

end Sys2Proof
end

