-- ==== Sys2Proof/WellFormed.lean ====
section
/-! DEFINITION. What a well-formed command word, literal and line are. -/

namespace Sys2Proof

/-- The reserved field must be 0000 (rule R91). -/
def C0.rsvIsZero (c : C0) : Bool := c.rsv == 0#4

/-- The opcode is one of the nine of the opcode map, 1 to 9 (rule R92). -/
def C0.opIsAssigned (c : C0) : Bool := 1 ≤ c.op.toNat && c.op.toNat ≤ 9

/-- A word is a command's exactly when both hold; every other word is illegal (rule R99). -/
def C0.wellFormed (c : C0) : Bool := c.rsvIsZero && c.opIsAssigned

/-- A command carries no operand, so every term of `Instr` is well formed (rule R90). -/
def Instr.wellFormed (_ : Instr) : Bool := true

/-- Which commands read IN as a stream (rule R93). -/
def Instr.readsIn : Instr → Bool
  | .clr => false
  | .hist => true
  | .sort => false
  | .build => false
  | .gen => false
  | .enc => true
  | .dec => true
  | .pack => true
  | .unpack => true

/-- A quoted character stands for its ASCII code, so it has one (rule R106). -/
def Literal.wellFormed : Literal → Bool
  | .text cs => cs.all (fun c => c.toNat < 128)
  | .hex _ => true
  | .bits _ => true

/-- A line carries a stream literal exactly when its command reads IN (rule R104). -/
def Line.wellFormed : Line → Bool
  | .command i none => !i.readsIn
  | .command i (some l) => i.readsIn && l.wellFormed
  | .train l => l.wellFormed
  | .compress l => l.wellFormed

end Sys2Proof
end

