-- ==== Sys2Proof/Decode.lean ====
section
/-! DEFINITION. The decoder of a command word, total on all 256 words and rejecting by name, and the
encoder, both written from the encoding table of rule R92. -/

namespace Sys2Proof

/-- The fields of a word: `rsv = cmd[7:4]`, `op = cmd[3:0]` (rule R91). -/
def c0Fields (w : Byte) : C0 := { rsv := w.extractLsb' 4 4, op := w.extractLsb' 0 4 }

/-- The opcode map, from opcodes to commands (rule R92). -/
def instrOfOp (op : BitVec 4) : Option Instr :=
  match op.toNat with
  | 1 => some .clr
  | 2 => some .hist
  | 3 => some .sort
  | 4 => some .build
  | 5 => some .gen
  | 6 => some .enc
  | 7 => some .dec
  | 8 => some .pack
  | 9 => some .unpack
  | _ => none

/-- The decoder: a non-zero reserved field and an unassigned opcode are rejected by name (rules R91,
R92 and R99). -/
def decode (w : Byte) : Decoded :=
  if (c0Fields w).rsvIsZero then
    match instrOfOp (c0Fields w).op with
    | some i => .command i
    | none => .unassignedOpcode (c0Fields w).op
  else .reservedBits (c0Fields w).rsv

/-- The opcode map, from commands to opcodes (rule R92). -/
def opOfInstr : Instr → BitVec 4
  | .clr => 0b0001#4
  | .hist => 0b0010#4
  | .sort => 0b0011#4
  | .build => 0b0100#4
  | .gen => 0b0101#4
  | .enc => 0b0110#4
  | .dec => 0b0111#4
  | .pack => 0b1000#4
  | .unpack => 0b1001#4

/-- The encoder: the one word of a command, reserved field 0000 above the opcode (rule R91). -/
def encode (i : Instr) : Byte := 0b0000#4 ++ opOfInstr i

/-- The command word that `nbits` bits `w` of the opcode table stand for: bits above `nbits` are 0, and
the word is the first eight of them (rule R90: one word of 8 bits). -/
def tableWord (nbits w : Nat) : Byte := BitVec.ofNat 8 (w % 2 ^ nbits)

/-- What the decoder reads from a row of the opcode table. -/
def decodeTableWord (nbits w : Nat) : Option Instr :=
  match decode (tableWord nbits w) with
  | .command i => some i
  | .reservedBits _ => none
  | .unassignedOpcode _ => none

end Sys2Proof
end

