-- ==== Sys2Proof/Machine/State.lean ====
section
/-! DEFINITION. The state of the engine as plain data (10_state.md rule R20), the reasons a step can
stop, and the state after reset (rule R331). -/

namespace Sys2Proof.Machine

/-- `PHASE`, the lifecycle register: `0 = COUNT`, `1 = SORTED`, `2 = BUILT`, `3 = CODED` (rule R21). -/
inductive Phase where
  | count
  | sorted
  | built
  | coded
  deriving DecidableEq, Repr

/-- The ten fault causes of rule R290, in the order of their codes 1 to 10. Raising one is a NEXT state
of the engine (rule R303), not a stop of the model. -/
inductive Cause where
  | illegalCommand
  | sequence
  | symbolRange
  | countOverflow
  | emptyInput
  | tooFewLeaves
  | alphabetMismatch
  | malformedBitstring
  | capacity
  | emptyStream
  deriving DecidableEq, Repr

/-- The outcome of a command that the host sees (rule R312). -/
inductive Completion where
  | done
  | fault
  | refused
  deriving DecidableEq, Repr

/-- An entry of `SLIST` (rule R41). -/
structure Entry where
  sym : Sym
  prob : P64
  deriving DecidableEq, Repr

/-- An element of `NODE`, the tagged variant of rule R42. A leaf has no children (`left = right = NIL`)
and an internal node has no symbol and two children. -/
inductive Node where
  | leaf (sym : Sym) (prob : P64)
  | internal (prob : P64) (left right : NodeIx)
  deriving DecidableEq, Repr

/-- A valid element of `CODE` (rule R45): `bits[0]` is the direction taken from the root. The field
`len` is the length of `bits` and is stored once (log entry 9); an unlisted element has `valid = 0`. -/
structure CodeWord where
  bits : List Bit
  deriving DecidableEq, Repr

/-- One of the engine's internal memories (rule R60) as (index, element) pairs in one canonical form:
indexes strictly rising, and nothing listed that equals what an unlisted index reads as (log entry 7). -/
abbrev Memory (α : Type) := List (Nat × α)

/-- The memories whose elements can hold no value (rule R48). -/
inductive Store where
  | slist
  | node
  | bitbuf
  deriving DecidableEq, Repr

/-- A move of the host (rule R344): issue a command word with its finite IN stream, sample STATUS and
ERRPOS, or assert the reset input (rule R330). -/
inductive Request where
  | command (word : Byte) (stream : List Byte)
  | sample
  | reset
  deriving DecidableEq, Repr

/-- What the host gets back (rules R312, R344 and R345). -/
inductive Response where
  /-- A command ended with this outcome and this OUT stream. -/
  | completed (outcome : Completion) (out : List Byte)
  /-- A sample of STATUS and of ERRPOS. -/
  | sampled (status errpos : BitVec 32)
  deriving DecidableEq, Repr

/-- Why a step of the model can stop. No state that a run from reset reaches raises any of these: each
is a read the spec says no rule makes (rule R48), kept so that a wrong rule would show. -/
inductive Fault where
  /-- Raised by BUILD, ENC, PACK, UNPACK, DEC and GEN on reading an element that holds no value (rule
  R48: "a model should give them no value (an option type or a fault on read)"). Safe. -/
  | noValue (store : Store) (index : Nat)
  /-- Raised by GEN where its traversal goes deeper than `CODEMAX = 127` edges, which rule R193 rules
  out for every tree that BUILD made (log entry 10). Safe. -/
  | tooDeep (node : NodeIx)
  /-- Raised by `pick` on two empty queues, against its precondition (rule R164); BUILD never calls it
  so (rule R166, log entry 11). Safe. -/
  | pickFromEmpty
  deriving DecidableEq, Repr

/-- Why an instruction is turned away without a meaning. -/
inductive Refusal where
  /-- Raised by an arm of `exec` whose instruction has no meaning yet. Safe. -/
  | notModelled (mnemonic : String)
  deriving DecidableEq, Repr

/-- The whole state. The fields down to `bitbuf` are the architectural state of rule R20; the last five
are the model's own. -/
structure State where
  /-- `PHASE` (rule R21). -/
  phase : Phase
  /-- `ERR`, the sticky fault code (rule R35). -/
  err : BitVec 4
  /-- `ERRCMD`, the word that faulted (rule R36). -/
  errcmd : Byte
  /-- `ERRVAL`, the offending element (rule R36). -/
  errval : Byte
  /-- `ERRPOS`, its index modulo `2^32` (rule R37). -/
  errpos : BitVec 32
  /-- `SYNTH`, the singleton rule was applied (rule R32). -/
  synth : Bool
  /-- `PADFB`, the padding fallback was taken (rule R33). -/
  padfb : Bool
  /-- `SKIP`, the decoder's dead-end reset was taken (rule R34). -/
  skip : Bool
  /-- `TOTAL`, symbols counted (rule R22). -/
  total : BitVec 32
  /-- `NDIST`, distinct symbols counted (rule R23). -/
  ndist : BitVec 8
  /-- `NLEAF`, entries of `SLIST` (rule R24). -/
  nleaf : BitVec 8
  /-- `NNODE`, nodes in use (rule R25). -/
  nnode : BitVec 8
  /-- `ROOT`, the current merge root (rule R26). -/
  root : NodeIx
  /-- `CUR`, the decoder's cursor (rule R27). -/
  cur : NodeIx
  /-- `BITLEN`, payload bits in `BITBUF` (rule R28). -/
  bitlen : Nat
  /-- `PAD`, padding bits added or stripped (rule R29). -/
  pad : BitVec 4
  /-- `COUNT`, occurrences per symbol; unlisted reads 0 (rule R40). -/
  count : Memory (BitVec 32)
  /-- `SLIST`, the sorted frequency list (rule R41). -/
  slist : Memory Entry
  /-- `NODE`, the tree nodes (rule R42). -/
  node : Memory Node
  /-- `SRCQ`, the Source queue, head first (rule R43). -/
  srcq : List NodeIx
  /-- `TGTQ`, the Target queue, head first (rule R44). -/
  tgtq : List NodeIx
  /-- `CODE`, the encoding table; unlisted is `valid = 0` (rule R45). -/
  code : Memory CodeWord
  /-- `BITBUF`, the payload (rule R46). -/
  bitbuf : Memory Bit
  /-- MODEL'S OWN: the parameter `BITCAP`, a number or unbounded (rule R12, log entry 3). -/
  bitcap : Option Nat
  /-- MODEL'S OWN: how many free STATUS values have been drawn (log entry 5). -/
  samples : Nat
  /-- MODEL'S OWN: the host's moves still to come, next first (log entry 1). -/
  host : List Request
  /-- MODEL'S OWN: the IN stream of the running command; its end is the marker (rule R64). -/
  inp : List Byte
  /-- MODEL'S OWN: what the host got back, oldest first (log entry 2). -/
  results : List Response
  deriving DecidableEq, Repr

/-- The reset state of rule R331, with the model's own fields at the values of log entries 1, 2, 3
and 5 (DESIGN CHOICE). -/
def State.reset : State where
  phase := .count
  err := 0
  errcmd := 0
  errval := 0
  errpos := 0
  synth := false
  padfb := false
  skip := false
  total := 0
  ndist := 0
  nleaf := 0
  nnode := 0
  root := Config.nil
  cur := Config.nil
  bitlen := 0
  pad := 0
  count := []
  slist := []
  node := []
  srcq := []
  tgtq := []
  code := []
  bitbuf := []
  bitcap := none
  samples := 0
  host := []
  inp := []
  results := []

end Sys2Proof.Machine
end

