-- ==== Sys2Proof/Machine/Ops.lean ====
section
/-! DEFINITION. The named operations over memories and registers, the sequencing of a command's steps,
fault entry (rule R303), refusal (rule R307), and the return from a fault (rules R306 and R120). -/

namespace Sys2Proof.Machine

/-! ### Memories (rules R60 and R70: one whole element per access) -/

/-- Element `i`, or nothing where no element is listed. -/
def Memory.read {α : Type} : Memory α → Nat → Option α
  | [], _ => none
  | (k, x) :: rest, i => if k = i then some x else Memory.read rest i

/-- Write element `i`, keeping the indexes strictly rising. -/
def Memory.write {α : Type} : Memory α → Nat → α → Memory α
  | [], i, v => [(i, v)]
  | (k, x) :: rest, i, v =>
    if i < k then (i, v) :: (k, x) :: rest
    else if i = k then (i, v) :: rest
    else (k, x) :: Memory.write rest i v

/-- Unlist element `i`. -/
def Memory.erase {α : Type} (m : Memory α) (i : Nat) : Memory α := m.filter (fun c => c.1 != i)

/-- Write element `i` of a memory whose unlisted elements read as `d`: writing `d` unlists it. -/
def Memory.writeOver {α : Type} [DecidableEq α] (d : α) (m : Memory α) (i : Nat) (v : α) : Memory α :=
  if v = d then Memory.erase m i else Memory.write m i v

/-- Write consecutive elements from index `i` up, in index order. -/
def Memory.writeList {α : Type} : Memory α → Nat → List α → Memory α
  | m, _, [] => m
  | m, i, x :: xs => Memory.writeList (Memory.write m i x) (i + 1) xs

/-- The canonical form: indexes strictly rising. -/
def Memory.rising {α : Type} (m : Memory α) : Bool := decide ((m.map Prod.fst).Pairwise (· < ·))

/-- The canonical form in a memory of `size` elements (`none`: without a bound). -/
def Memory.wf {α : Type} (size : Option Nat) (m : Memory α) : Bool :=
  Memory.rising m && m.all (fun c => match size with
    | some n => decide (c.1 < n)
    | none => true)

/-- `COUNT[sym]`, 0 where nothing is listed (rule R40). -/
def State.readCount (s : State) (sym : Nat) : BitVec 32 := (Memory.read s.count sym).getD 0

/-- `SLIST[i]`, which holds a value for `i < NLEAF` only, among 128 elements (rules R41 and R48). -/
def State.readSlist (s : State) (i : Nat) : Option Entry :=
  if i < s.nleaf.toNat ∧ i < Config.alpha then Memory.read s.slist i else none

/-- `NODE[n]`, which holds a value for `n < NNODE` only (rules R42 and R48). `NODE[NIL]` is no element:
`NNODE` is at most 255. -/
def State.readNode (s : State) (n : NodeIx) : Option Node :=
  if n.toNat < s.nnode.toNat then Memory.read s.node n.toNat else none

/-- `CODE[sym]`, or nothing where `valid = 0` (rule R45). -/
def State.readCode (s : State) (sym : Nat) : Option CodeWord := Memory.read s.code sym

/-- `BITBUF[i]`, which holds a value for `i < BITLEN` only (rules R46 and R48). -/
def State.readBit (s : State) (i : Nat) : Option Bit :=
  if i < s.bitlen then Memory.read s.bitbuf i else none

/-- Elements `i` to `i + n - 1` in index order, stopping at one that holds no value (rule R48). -/
def collect {α : Type} (store : Store) (read : Nat → Option α) : Nat → Nat → Except Fault (List α)
  | _, 0 => .ok []
  | i, n + 1 =>
    match read i with
    | none => .error (.noValue store i)
    | some x =>
      match collect store read (i + 1) n with
      | .error r => .error r
      | .ok xs => .ok (x :: xs)

/-- The payload `BITBUF[0..BITLEN-1]` (rule R46). -/
def readPayload (s : State) : Except Fault (List Bit) := collect .bitbuf s.readBit 0 s.bitlen

/-- The probability of a node (rule R42). -/
def Node.prob : Node → P64
  | .leaf _ p => p
  | .internal p _ _ => p

/-- `NODE[n].kind = LEAF` (rule R42). -/
def Node.isLeaf : Node → Bool
  | .leaf _ _ => true
  | .internal _ _ _ => false

/-- `NODE[n].left`, `NIL` for a leaf (rule R42). -/
def Node.left : Node → NodeIx
  | .leaf _ _ => Config.nil
  | .internal _ l _ => l

/-- `NODE[n].right`, `NIL` for a leaf (rule R42). -/
def Node.right : Node → NodeIx
  | .leaf _ _ => Config.nil
  | .internal _ _ r => r

/-- `CODE[s].len` (rule R45, log entry 9). -/
def CodeWord.len (c : CodeWord) : Nat := c.bits.length

/-- A payload of `n` bits exceeds `BITCAP`; nothing exceeds an unbounded one (rule R12). -/
def exceedsCap (cap : Option Nat) (n : Nat) : Bool :=
  match cap with
  | none => false
  | some c => decide (c < n)

/-! ### What the pseudocode of a command does -/

/-- The effect of a piece of a command's pseudocode: it runs on with a state and the OUT elements it
emitted, it raises a fault with a value and a position (rule R14, `raise F(val, pos)`), or it reads an
element that holds no value. -/
inductive Effect where
  | ok (s : State) (out : List Byte)
  | raise (c : Cause) (val : Byte) (pos : Nat) (s : State)
  | stop (r : Fault)
  deriving DecidableEq, Repr

/-- One piece after another: nothing after a `raise` executes (rule R14), and OUT elements keep their
order (rule R71). -/
def Effect.andThen (x : Effect) (f : State → Effect) : Effect :=
  match x with
  | .ok s out =>
    match f s with
    | .ok s' out' => .ok s' (out ++ out')
    | .raise c v p s' => .raise c v p s'
    | .stop r => .stop r
  | .raise c v p s => .raise c v p s
  | .stop r => .stop r

/-- `for e, i in ...`: the elements in order, `i` their zero-based index (rule R14). -/
def forEach {α : Type} (step : α → Nat → State → Effect) : List α → Nat → State → Effect
  | [], _, s => .ok s []
  | e :: es, i, s => (step e i s).andThen (forEach step es (i + 1))

/-! ### Command end, fault entry, refusal, return -/

/-- The value of a cause in `ERR` (rule R290). -/
def Cause.code : Cause → BitVec 4
  | .illegalCommand => 1
  | .sequence => 2
  | .symbolRange => 3
  | .countOverflow => 4
  | .emptyInput => 5
  | .tooFewLeaves => 6
  | .alphabetMismatch => 7
  | .malformedBitstring => 8
  | .capacity => 9
  | .emptyStream => 10

/-- The command's outcome and OUT stream go to the host (rule R312). -/
def reply (outcome : Completion) (out : List Byte) (s : State) : State :=
  { s with results := s.results ++ [.completed outcome out] }

/-- A command that reads IN consumes it through its end-of-input marker before it ends, however it ends
(rule R64); one that does not ignores IN (rule R15). -/
def consumeIn (reads : Bool) (s : State) : State := if reads then { s with inp := [] } else s

/-- FAULT ENTRY, the one operation that raises a fault (rule R303): the four error registers are written
and nothing else; there is no handler, no vector, no saved context and no mode change. OUT is empty
(rule R304). -/
def takeFault (word : Byte) (c : Cause) (val : Byte) (pos : Nat) (s : State) : State :=
  reply .fault []
    { s with err := c.code, errcmd := word, errval := val, errpos := BitVec.ofNat 32 pos }

/-- A command refused because `ERR != 0` already: no state changes and nothing is output (rule R307). -/
def refuse (s : State) : State := reply .refused [] s

/-- RETURN FROM A FAULT, and the start of a session (rules R306 and R120): every register, flag and
queue to its reset value, COUNT to 0 and CODE to invalid. `SLIST`, `NODE` and `BITBUF` are not written;
they count as holding no value because `NLEAF`, `NNODE` and `BITLEN` are 0 (rule R121). -/
def clearSession (s : State) : State :=
  { s with
    phase := .count
    err := 0, errcmd := 0, errval := 0, errpos := 0
    synth := false, padfb := false, skip := false
    total := 0, ndist := 0, nleaf := 0, nnode := 0
    root := Config.nil, cur := Config.nil
    bitlen := 0, pad := 0
    count := [], code := []
    srcq := [], tgtq := [] }

/-- A word outside the opcode map (rules R292 and R301): refused while `ERR != 0`, else the fault
`IllegalCommand`. It has no stream (rule R307). -/
def rejectWord (word : Byte) (s : State) : State :=
  if s.err = 0 then takeFault word .illegalCommand 0 0 s else refuse s

end Sys2Proof.Machine
end

