-- ==== Sys2Proof/Machine/Operands.lean ====
section
/-! DEFINITION. The operand forms: stream elements (30_encoding.md section 2), bits to bytes and back
(section 3), the legal phases (rule R93), and the order of checks around a command (rule R301). -/

namespace Sys2Proof.Machine

/-- A stream element is a symbol when `e < ALPHA` (rule R94). -/
def isSymbol (e : Byte) : Bool := decide (e.toNat < Config.alpha)

/-- The ordinal of a symbol element, `e[6:0]` (rule R94). -/
def symbolOf (e : Byte) : Sym := e.setWidth 7

/-- The element a symbol is output as, `zext_8(sym)` (rules R94 and R265). -/
def elementOf (sym : Sym) : Byte := sym.setWidth 8

/-- The bit a token stands for: `0x00` is 0 and `0x01` is 1, and no other value is a token (rule
R96). -/
def bitOfToken (e : Byte) : Option Bit :=
  if e = 0x00#8 then some false else if e = 0x01#8 then some true else none

/-- The token of a bit, `zext_8` (rules R96 and R216). -/
def tokenOf (b : Bit) : Byte := if b then 0x01#8 else 0x00#8

/-- The byte of eight consecutive bits, first bit most significant (rule R67). -/
def byteOfBits (b7 b6 b5 b4 b3 b2 b1 b0 : Bit) : Byte :=
  BitVec.ofNat 8 (b7.toNat * 2 ^ 7 + b6.toNat * 2 ^ 6 + b5.toNat * 2 ^ 5 + b4.toNat * 2 ^ 4
    + b3.toNat * 2 ^ 3 + b2.toNat * 2 ^ 2 + b1.toNat * 2 ^ 1 + b0.toNat * 2 ^ 0)

/-- `bytes_of_bits(s)`, defined where the length is a multiple of 8 (rule R97); bits past the last whole
byte give none. -/
def bytesOfBits : List Bit → List Byte
  | b7 :: b6 :: b5 :: b4 :: b3 :: b2 :: b1 :: b0 :: rest =>
    byteOfBits b7 b6 b5 b4 b3 b2 b1 b0 :: bytesOfBits rest
  | _ => []

/-- The eight bits of a byte, most significant first (rule R67). -/
def bitsOfByte (v : Byte) : List Bit :=
  [v.getLsbD 7, v.getLsbD 6, v.getLsbD 5, v.getLsbD 4, v.getLsbD 3, v.getLsbD 2, v.getLsbD 1,
    v.getLsbD 0]

/-- `bits_of_bytes(b)` (rule R98). -/
def bitsOfBytes (b : List Byte) : List Bit := b.flatMap bitsOfByte

/-- The phases in which a command is legal (rule R93). -/
def legalIn (i : Instr) (p : Phase) : Bool :=
  match i with
  | .clr => true
  | .hist => p == .count
  | .sort => p == .count
  | .build => p == .sorted
  | .gen => p == .built
  | .enc => p == .coded
  | .dec => p == .built || p == .coded
  | .pack => true
  | .unpack => true

/-- How a command ends, given the effect of its pseudocode (rules R303, R304 and R312). -/
def conclude (i : Instr) (x : Effect) : Host.Outcome State Fault Refusal :=
  match x with
  | .ok s out => .next (consumeIn i.readsIn (reply .done out s))
  | .raise c val pos s => .next (consumeIn i.readsIn (takeFault (encode i) c val pos s))
  | .stop r => .fault r

/-- The order of checks around a command other than `CLR` (rule R301): refusal while `ERR != 0`, then
`Sequence`, then the command's own checks. -/
def runCommand (i : Instr) (body : State → Effect) (s : State) : Host.Outcome State Fault Refusal :=
  if s.err = 0 then
    if legalIn i s.phase then conclude i (body s) else conclude i (.raise .sequence 0 0 s)
  else .next (consumeIn i.readsIn (refuse s))

end Sys2Proof.Machine
end

