-- ==== Sys2Proof/Machine/CodeTable.lean ====
section
/-! DEFINITION. The code-table generator (43_code_table.md): GEN. -/

namespace Sys2Proof.Machine

/-- `visit(n, path)` (rule R192): pre-order, left edge 0, right edge 1. The first argument bounds the
depth: a leaf of depth at most `CODEMAX` is reached with `CODEMAX + 1` (rule R193, log entry 10). -/
def visit (s : State) : Nat → NodeIx → List Bit → Memory CodeWord → Except Fault (Memory CodeWord)
  | 0, n, _, _ => .error (.tooDeep n)
  | depth + 1, n, path, table =>
    match s.readNode n with
    | none => .error (.noValue .node n.toNat)
    | some (.leaf sym _) => .ok (Memory.write table sym.toNat { bits := path })
    | some (.internal _ left right) =>
      match visit s depth left (path ++ [false]) table with
      | .error r => .error r
      | .ok table' => visit s depth right (path ++ [true]) table'

/-- The body of `GEN`: invalidate every entry, traverse from `ROOT`, enter CODED (rule R191). -/
def genBody (s : State) : Effect :=
  match visit s (Config.codeMax + 1) s.root [] [] with
  | .error r => .stop r
  | .ok table => .ok { s with code := table, phase := .coded } []

/-- `GEN` (rule R191). -/
def execGen (s : State) : Host.Outcome State Fault Refusal := runCommand .gen genBody s

end Sys2Proof.Machine
end

