-- ==== Sys2Proof/Machine/Flags.lean ====
section
/-! DEFINITION. The three flags (10_state.md section 3), the padding register, and the STATUS view
(rule R38). -/

namespace Sys2Proof.Machine

/-- `SYNTH` as SORT writes it: the list before injection has exactly one entry (rules R32 and R135). -/
def synthFlag (entries : List Entry) : Bool := entries.length == 1

/-- The least `i` in 0 to 7 with `B[i] = 1` (rule R217). -/
def sentinelIndex (bits : List Bit) : Option Nat := (bits.take 8).findIdx? id

/-- `PADFB` as UNPACK and DEC write it: no sentinel in the first eight bits (rules R33 and R217). -/
def padfbFlag (sentinel : Option Nat) : Bool := sentinel.isNone

/-- The number of leading bits UNPACK and DEC discard: through the sentinel, or eight (rules R217 and
R218). -/
def strippedBits (sentinel : Option Nat) : Nat :=
  match sentinel with
  | some i0 => i0 + 1
  | none => 8

/-- `padding = 8 - (bit_count mod 8)` (rule R212). -/
def paddingFor (bitCount : Nat) : Nat := 8 - bitCount % 8

/-- The two bits of `PHASE` (rule R21). -/
def Phase.bits : Phase → BitVec 2
  | .count => 0
  | .sorted => 1
  | .built => 2
  | .coded => 3

/-- What STATUS shows of a field outside the error fields: the field while `ERR = 0`, and a free value
while `ERR != 0` (rule R305, item U13, log entry 5). -/
def State.shown {w : Nat} (s : State) (lo : Nat) (field : BitVec w) : BitVec w :=
  if s.err = 0 then field else (Config.freeStatus s.samples).extractLsb' lo w

/-- The status word (rule R38): `ERRVAL`, `ERRCMD`, `PAD`, `ERR`, three zero bits, `SKIP`, `PADFB`,
`SYNTH`, `PHASE`, from bit 31 down. -/
def State.status (s : State) : BitVec 32 :=
  s.errval ++ s.errcmd ++ s.shown 12 s.pad ++ s.err ++ 0#3 ++ s.shown 4 (BitVec.ofBool s.skip)
    ++ s.shown 3 (BitVec.ofBool s.padfb) ++ s.shown 2 (BitVec.ofBool s.synth)
    ++ s.shown 0 s.phase.bits

/-- The host samples STATUS and ERRPOS between commands (rules R38 and R344). -/
def sampleStatus (s : State) : State :=
  { s with results := s.results ++ [.sampled s.status s.errpos], samples := s.samples + 1 }

end Sys2Proof.Machine
end

