-- ==== Sys2Proof/Machine/Codec.lean ====
section
/-! DEFINITION. The bitstream codec (44_bitstream_codec.md): PACK, UNPACK and the two cores that ENC and
DEC share. -/

namespace Sys2Proof.Machine

/-- `BITLEN <- 0` (rules R211 and R240). -/
def emptyPayload (s : State) : State := { s with bitlen := 0 }

/-- Append bits to the payload: `BITBUF[BITLEN ..] <- bits; BITLEN <- BITLEN + |bits|` (rules R211 and
R241). -/
def appendBits (bits : List Bit) (s : State) : State :=
  { s with
    bitbuf := Memory.writeList s.bitbuf s.bitlen bits
    bitlen := s.bitlen + bits.length }

/-! ### PACK -/

/-- One token of `load_tokens()` (rule R211). -/
def loadToken (e : Byte) (i : Nat) (s : State) : Effect :=
  match bitOfToken e with
  | none => .raise .malformedBitstring e i s
  | some b => if s.bitcap = some s.bitlen then .raise .capacity e i s else .ok (appendBits [b] s) []

/-- The bits that are packed: `PAD - 1` zero bits, the sentinel, the payload (rule R212). -/
def withPrefix (payload : List Bit) : List Bit :=
  List.replicate (paddingFor payload.length - 1) false ++ true :: payload

/-- `pack_core()` (rule R212). -/
def packCore (s : State) : Effect :=
  match readPayload s with
  | .error r => .stop r
  | .ok payload =>
    .ok { s with pad := BitVec.ofNat 4 (paddingFor s.bitlen) } (bytesOfBits (withPrefix payload))

/-- The body of `PACK` (rule R210). -/
def packBody (s : State) : Effect := (forEach loadToken s.inp 0 (emptyPayload s)).andThen packCore

/-- `PACK` (rule R210). -/
def execPack (s : State) : Host.Outcome State Fault Refusal := runCommand .pack packBody s

/-! ### UNPACK -/

/-- The payload of packed bits: what follows the sentinel within the first eight, or the fallback's
eight stripped bits (rules R217 and R218). -/
def payloadOf (bits : List Bit) : List Bit := bits.drop (strippedBits (sentinelIndex bits))

/-- The writes of `PAD` and `PADFB` (rule R217). -/
def notePadding (bits : List Bit) (s : State) : State :=
  { s with
    pad := BitVec.ofNat 4 (strippedBits (sentinelIndex bits))
    padfb := padfbFlag (sentinelIndex bits) }

/-- `unpack_core()` (rule R217). -/
def unpackCore (s : State) : Effect :=
  if s.inp = [] then .raise .emptyStream 0 0 s
  else
    let bits := bitsOfBytes s.inp
    let s := notePadding bits s
    if exceedsCap s.bitcap (8 * s.inp.length - strippedBits (sentinelIndex bits)) then
      .raise .capacity 0 0 s
    else .ok (appendBits (payloadOf bits) (emptyPayload s)) []

/-- The last line of `UNPACK`: the payload as bit tokens (rule R216). -/
def emitTokens (s : State) : Effect :=
  match readPayload s with
  | .error r => .stop r
  | .ok payload => .ok s (payload.map tokenOf)

/-- The body of `UNPACK` (rule R216). -/
def unpackBody (s : State) : Effect := (unpackCore s).andThen emitTokens

/-- `UNPACK` (rule R216). -/
def execUnpack (s : State) : Host.Outcome State Fault Refusal := runCommand .unpack unpackBody s

end Sys2Proof.Machine
end

