-- ==== Sys2Proof/Machine/Decoder.lean ====
section
/-! DEFINITION. The decoder (46_decoder.md): DEC. -/

namespace Sys2Proof.Machine

/-- Move the cursor to a child; on a leaf, output its symbol and return to the root (rules R264 and
R265). -/
def moveTo (child : NodeIx) (s : State) : Effect :=
  match s.readNode child with
  | none => .stop (.noValue .node child.toNat)
  | some (.leaf sym _) => .ok { s with cur := s.root } [elementOf sym]
  | some (.internal _ _ _) => .ok { s with cur := child } []

/-- `dec_step(bit)` (rule R264), its first branch the defensive transition (rule R267). -/
def decStep (bit : Bit) (_ : Nat) (s : State) : Effect :=
  match s.readNode s.cur with
  | none => .stop (.noValue .node s.cur.toNat)
  | some (.leaf _ _) => .ok { s with cur := s.root, skip := true } []
  | some (.internal _ left right) => moveTo (if bit then right else left) s

/-- `CUR <- ROOT; SKIP <- 0` (rules R260 and R262). -/
def startWalk (s : State) : State := { s with cur := s.root, skip := false }

/-- The walk over `BITBUF[0..BITLEN-1]` (rules R260 and R266). -/
def walkPayload (s : State) : Effect :=
  match readPayload s with
  | .error r => .stop r
  | .ok payload => forEach decStep payload 0 (startWalk s)

/-- The body of `DEC` (rule R260). -/
def decBody (s : State) : Effect := (unpackCore s).andThen walkPayload

/-- `DEC` (rule R260). -/
def execDec (s : State) : Host.Outcome State Fault Refusal := runCommand .dec decBody s

end Sys2Proof.Machine
end

