-- ==== Sys2Proof/Machine/Encoder.lean ====
section
/-! DEFINITION. The encoder (45_encoder.md): ENC. -/

namespace Sys2Proof.Machine

/-- The code of a stream element: none at or above `ALPHA`, and none where `valid = 0` (rules R241 and
R242). -/
def codeFor (s : State) (e : Byte) : Option CodeWord :=
  if isSymbol e then s.readCode (symbolOf e).toNat else none

/-- `enc_step(e, i)` (rule R241). -/
def encStep (e : Byte) (i : Nat) (s : State) : Effect :=
  match codeFor s e with
  | none => .raise .alphabetMismatch e i s
  | some c =>
    if exceedsCap s.bitcap (s.bitlen + c.len) then .raise .capacity e i s
    else .ok (appendBits c.bits s) []

/-- The body of `ENC` (rule R240). -/
def encBody (s : State) : Effect := (forEach encStep s.inp 0 (emptyPayload s)).andThen packCore

/-- `ENC` (rule R240). -/
def execEnc (s : State) : Host.Outcome State Fault Refusal := runCommand .enc encBody s

end Sys2Proof.Machine
end

