-- ==== Sys2Proof/Machine/Numerics.lean ====
section
/-! DEFINITION. The binary64 instance of `PROB` (rule R10): exact integer arithmetic in units of the
smallest binary64 value, `2^-1074`, and ONE rounding to nearest, ties to even, per operation. -/

namespace Sys2Proof.Machine

/-- The numeric value of a finite non-negative binary64 word in units of `2^-1074`: exponent in bits 62
to 52, fraction in bits 51 to 0 (rule R39). Words outside the set `P` of rule R10 are read by the same
fields (log entry 8). -/
def units (x : P64) : Nat :=
  let expo := (x.extractLsb' 52 11).toNat
  let frac := (x.extractLsb' 0 52).toNat
  if expo = 0 then frac else (2 ^ 52 + frac) * 2 ^ (expo - 1)

/-- The word of positive infinity, to which IEEE 754 rounds a sum past the largest finite value; no sum
of the engine comes near it (rule R10, log entry 8). -/
def infinityWord : Nat := 0x7FF * 2 ^ 52

/-- The binary64 value nearest to `a / d` units, ties to even (rule R10). The quotient keeps 53 bits, or
fewer below the normal range; a carry out of the fraction moves into the exponent. -/
def roundQuotient (a d : Nat) : P64 :=
  let shift := Nat.log2 (a / d) - 52
  let ulp := d * 2 ^ shift
  let q := a / ulp
  let r := a % ulp
  let up := if ulp < 2 * r ∨ (2 * r = ulp ∧ q % 2 = 1) then 1 else 0
  BitVec.ofNat 64 (min (shift * 2 ^ 52 + q + up) infinityWord)

/-- `p_ratio(c, t)`: the quotient of two integers rounded once (rule R10). -/
def pRatio (c t : Nat) : P64 := roundQuotient (c * 2 ^ 1074) t

/-- `p_add(a, b)`: the sum rounded once (rule R10). -/
def pAdd (a b : P64) : P64 := roundQuotient (units a + units b) 1

/-- `p_le(a, b)`: the numeric `a <= b` (rule R10). -/
def pLe (a b : P64) : Bool := units a ≤ units b

/-- The instance of `PROB` this hardware takes (rule R10). -/
def binary64 : Prob P64 := { ratio := pRatio, add := pAdd, le := pLe }

end Sys2Proof.Machine
end

