-- ==== Sys2Proof/Machine/Frequency.lean ====
section
/-! DEFINITION. The symbol-frequency table (41_frequency_table.md): HIST and SORT. -/

namespace Sys2Proof.Machine

/-! ### HIST -/

/-- The three writes of a histogram step (rule R133). -/
def countSymbol (sym : Nat) (s : State) : State :=
  { s with
    ndist := if s.readCount sym = 0 then s.ndist + 1 else s.ndist
    count := Memory.writeOver 0 s.count sym (s.readCount sym + 1)
    total := s.total + 1 }

/-- `hist_step(e, i)` (rule R133). -/
def histStep (e : Byte) (i : Nat) (s : State) : Effect :=
  if !isSymbol e then .raise .symbolRange e i s
  else if s.total.toNat = Config.countMax then .raise .countOverflow e i s
  else .ok (countSymbol e.toNat s) []

/-- `HIST` (rule R132). -/
def execHist (s : State) : Host.Outcome State Fault Refusal :=
  runCommand .hist (fun s => forEach histStep s.inp 0 s) s

/-! ### SORT -/

/-- The order on list entries, `cf_lt(a, b)` (rule R131). -/
def cfLt (a b : Entry) : Bool :=
  binary64.lt a.prob b.prob || (binary64.eq a.prob b.prob && decide (a.sym.toNat < b.sym.toNat))

/-- The entry of symbol `sym`: `p_ratio(COUNT[sym], TOTAL)` where the symbol was counted, and none
elsewhere (rule R136). -/
def entryOf (s : State) (sym : Nat) : Option Entry :=
  if s.readCount sym = 0 then none
  else some { sym := BitVec.ofNat 7 sym,
              prob := binary64.ratio (s.readCount sym).toNat s.total.toNat }

/-- The list `L` before the singleton rule: symbols in ascending order (rule R136). -/
def countedEntries (s : State) : List Entry := (List.range Config.alpha).filterMap (entryOf s)

/-- The synthetic entry for an observed symbol: `(ordinal + 1) mod ALPHA`, probability 0 (rule R137). -/
def syntheticEntry (s : State) (observed : Entry) : Entry :=
  { sym := observed.sym + 1, prob := binary64.ratio 0 s.total.toNat }

/-- `L` after the singleton rule (rules R135 and R137). -/
def injected (s : State) : List Entry → List Entry
  | [e] => [e, syntheticEntry s e]
  | entries => entries

/-- Put an entry in its place in an ascending list (rule R138). -/
def insertEntry (e : Entry) : List Entry → List Entry
  | [] => [e]
  | x :: xs => if cfLt e x then e :: x :: xs else x :: insertEntry e xs

/-- The list ascending by `cf_lt` (rule R138: the algorithm is not architectural, its result is). -/
def sortEntries : List Entry → List Entry
  | [] => []
  | e :: es => insertEntry e (sortEntries es)

/-- The body of `SORT` (rule R135). -/
def sortBody (s : State) : Effect :=
  if s.total = 0 then .raise .emptyInput 0 0 s
  else
    let counted := countedEntries s
    let entries := injected s counted
    .ok { s with
      synth := synthFlag counted
      slist := Memory.writeList s.slist 0 (sortEntries entries)
      nleaf := BitVec.ofNat 8 entries.length
      phase := .sorted } []

/-- `SORT` (rule R135). -/
def execSort (s : State) : Host.Outcome State Fault Refusal := runCommand .sort sortBody s

end Sys2Proof.Machine
end

