-- ==== Sys2Proof/Machine/Session.lean ====
section
/-! DEFINITION. Session control (40_session_control.md): CLR. -/

namespace Sys2Proof.Machine

/-- `CLR` (rule R120): legal always, also while `ERR != 0`; it cannot fault and outputs nothing. -/
def execClr (s : State) : Host.Outcome State Fault Refusal := conclude .clr (.ok (clearSession s) [])

end Sys2Proof.Machine
end

