-- ==== Sys2Proof/Machine/TreeBuilder.lean ====
section
/-! DEFINITION. The tree builder (42_tree_builder.md): BUILD, the deterministic two-queue merge. -/

namespace Sys2Proof.Machine

/-- The leaf made from a list entry (rule R162). -/
def leafOf (e : Entry) : Node := .leaf e.sym e.prob

/-- Steps 1 and 2: one leaf per entry, `SRCQ = [0, ..., NLEAF-1]`, `NNODE = NLEAF`, Target empty and
`ROOT = NIL` (rules R162, R163 and R166). -/
def loadLeaves (entries : List Entry) (s : State) : State :=
  { s with
    node := Memory.writeList s.node 0 (entries.map leafOf)
    srcq := (List.range s.nleaf.toNat).map (BitVec.ofNat 8)
    nnode := s.nleaf
    tgtq := []
    root := Config.nil }

/-- `pick()`: remove and return the head with the smaller probability, Source winning a tie (rule
R164). -/
def pick (s : State) : Except Fault (NodeIx × State) :=
  match s.srcq, s.tgtq with
  | [], [] => .error .pickFromEmpty
  | [], t :: ts => .ok (t, { s with tgtq := ts })
  | h :: hs, [] => .ok (h, { s with srcq := hs })
  | h :: hs, t :: ts =>
    match s.readNode h, s.readNode t with
    | none, _ => .error (.noValue .node h.toNat)
    | some _, none => .error (.noValue .node t.toNat)
    | some x, some y =>
      if binary64.le x.prob y.prob then .ok (h, { s with srcq := hs })
      else .ok (t, { s with tgtq := ts })

/-- The new internal node of a merge: written at `NNODE`, enqueued on Target's tail, recorded as the
root (rule R165). -/
def addInternal (prob : P64) (a b : NodeIx) (s : State) : State :=
  { s with
    node := Memory.write s.node s.nnode.toNat (.internal prob a b)
    nnode := s.nnode + 1
    tgtq := s.tgtq ++ [s.nnode]
    root := s.nnode }

/-- Join the nodes `a` (first picked, left) and `b` (second picked, right) (rule R165). -/
def joinNodes (a b : NodeIx) (s : State) : Effect :=
  match s.readNode a, s.readNode b with
  | none, _ => .stop (.noValue .node a.toNat)
  | some _, none => .stop (.noValue .node b.toNat)
  | some x, some y => .ok (addInternal (binary64.add x.prob y.prob) a b s) []

/-- `merge_step()`: two picks, the second looking at the queues as the first left them (rules R164 and
R165). -/
def mergeStep (s : State) : Effect :=
  match pick s with
  | .error r => .stop r
  | .ok (a, s1) =>
    match pick s1 with
    | .error r => .stop r
    | .ok (b, s2) => joinNodes a b s2

/-- `while |SRCQ| + |TGTQ| > 1: merge_step()` (rules R166 and R167). The first argument bounds the number
of rounds; BUILD gives it `NLEAF`, one more than the rounds it runs (log entry 11). -/
def mergeLoop : Nat → State → Effect
  | 0, s => .ok s []
  | n + 1, s =>
    if 1 < s.srcq.length + s.tgtq.length then (mergeStep s).andThen (mergeLoop n) else .ok s []

/-- The last line of `BUILD` (rule R166). -/
def enterBuilt (s : State) : Effect := .ok { s with phase := .built } []

/-- The body of `BUILD` (rule R166). -/
def buildBody (s : State) : Effect :=
  if s.nleaf.toNat < 2 then .raise .tooFewLeaves 0 0 s
  else
    match collect .slist s.readSlist 0 s.nleaf.toNat with
    | .error r => .stop r
    | .ok entries => (mergeLoop s.nleaf.toNat (loadLeaves entries s)).andThen enterBuilt

/-- `BUILD` (rule R161). -/
def execBuild (s : State) : Host.Outcome State Fault Refusal := runCommand .build buildBody s

end Sys2Proof.Machine
end

