-- ==== Sys2Proof/Machine/Fetch.lean ====
section
/-! DEFINITION. Presenting the host's next move to the engine (rules R337 and R344). -/

namespace Sys2Proof.Machine

/-- The host presents a command's IN stream; `rest` are its moves still to come (rules R15 and R338). -/
def present (stream : List Byte) (rest : List Request) (s : State) : State :=
  { s with host := rest, inp := stream }

/-- The engine runs a command word to completion (rules R31, R92 and R99). -/
def issueWord (word : Byte) (s : State) : Host.Outcome State Fault Refusal :=
  match decode word with
  | .command i => exec i s
  | .reservedBits _ => .next (rejectWord word s)
  | .unassignedOpcode _ => .next (rejectWord word s)

/-- One move of the host; with none to come the engine stays idle (rules R330, R337 and R344, log
entry 14). -/
def hostMove (s : State) : Host.Outcome State Fault Refusal :=
  match s.host with
  | [] => .next s
  | .reset :: rest => .next (clearSession { s with host := rest })
  | .sample :: rest => .next (sampleStatus { s with host := rest })
  | .command word stream :: rest => issueWord word (present stream rest s)

/-- The host's next move is the command of a row of the opcode table, with the empty IN stream (log
entry 19). -/
def enqueueWord (nbits w : Nat) (s : State) : State :=
  { s with host := .command (tableWord nbits w) [] :: s.host }

end Sys2Proof.Machine
end

