-- ==== Sys2Proof/Machine/Step.lean ====
section
/-! DEFINITION. One step: the host's next move, run to completion (rules R6 and R74). -/

namespace Sys2Proof.Machine

/-- One transition of the engine: a command together with its finite IN stream, a sample, a reset, or
idleness (rules R6 and R344). -/
def step (s : State) : Host.Outcome State Fault Refusal := hostMove s

/-- `s` with the command of a row of the opcode table as the host's next move (log entry 19). -/
def State.withFetchWord (s : State) (nbits w : Nat) : State := enqueueWord nbits w s

end Sys2Proof.Machine
end

