-- ==== Sys2Proof/Machine/Assembler.lean ====
section
/-! DEFINITION. The spec's text form of commands (30_encoding.md section 6): mnemonics, stream literals,
comments, and the pseudo-commands, each expanded to the host's requests. -/

namespace Sys2Proof.Machine

/-- The stream of a literal (rule R106). -/
def streamOf : Literal → List Byte
  | .text cs => cs.map (fun c => BitVec.ofNat 8 c.toNat)
  | .hex es => es
  | .bits ds => ds.map tokenOf

/-- Issue a command with a stream. -/
def requestOf (i : Instr) (stream : List Byte) : Request := .command (encode i) stream

/-- `TRAIN <stream>` expands to `HIST <stream>`, `SORT`, `BUILD`, `GEN` (rule R105). -/
def trainRequests (stream : List Byte) : List Request :=
  [requestOf .hist stream, requestOf .sort [], requestOf .build [], requestOf .gen []]

/-- `COMPRESS <stream>` expands to `CLR`, `HIST <stream>`, `SORT`, `BUILD`, `GEN`, `ENC <stream>` (rule
R105). -/
def compressRequests (stream : List Byte) : List Request :=
  [requestOf .clr [], requestOf .hist stream, requestOf .sort [], requestOf .build [],
    requestOf .gen [], requestOf .enc stream]

/-- The requests of a line (rules R104 and R105). -/
def requestsOf : Line → List Request
  | .command i none => [requestOf i []]
  | .command i (some l) => [requestOf i (streamOf l)]
  | .train l => trainRequests (streamOf l)
  | .compress l => compressRequests (streamOf l)

/-! ### Reading a line of text (spaces as log entry 21 says) -/

/-- The opening and the closing brace of `hex` and `bits` literals. -/
def openBrace : Char := Char.ofNat 123
def closeBrace : Char := Char.ofNat 125

/-- Drop leading spaces. -/
def skipSpaces : List Char → List Char
  | ' ' :: cs => skipSpaces cs
  | cs => cs

/-- Nothing but spaces and a comment is left on the line (rule R104: `--` starts a comment). -/
def atLineEnd (cs : List Char) : Bool :=
  match skipSpaces cs with
  | [] => true
  | '-' :: '-' :: _ => true
  | _ => false

/-- The runs of consecutive characters that are hexadecimal digits (rule R106, either case as log entry
21 says): a run's first character, that character's value, and the run's length. -/
def digitRuns : List (Char × Nat × Nat) := [('0', 0, 10), ('A', 10, 6), ('a', 10, 6)]

/-- The value of a character within one run. -/
def digitInRun (c : Char) (run : Char × Nat × Nat) : Option Nat :=
  let (first, value, length) := run
  let place := c.toNat - first.toNat
  if first.toNat ≤ c.toNat && place < length then some (value + place) else none

/-- The value of a hexadecimal digit (rule R106). -/
def hexDigit (c : Char) : Option Nat := digitRuns.findSome? (digitInRun c)

/-- The characters of a double-quoted string, and what follows it. -/
def readQuoted : List Char → Option (List Char × List Char)
  | [] => none
  | c :: cs =>
    if c = '"' then some ([], cs)
    else (readQuoted cs).map (fun (text, rest) => (c :: text, rest))

/-- The two-digit elements of `hex`, up to its closing brace, and what follows it. -/
def readHex : List Char → Option (List Byte × List Char)
  | [] => none
  | ' ' :: cs => readHex cs
  | [c] => if c = closeBrace then some ([], []) else none
  | c :: d :: cs =>
    if c = closeBrace then some ([], d :: cs)
    else
      match hexDigit c, hexDigit d, readHex cs with
      | some h, some l, some (es, rest) => some (BitVec.ofNat 8 (16 * h + l) :: es, rest)
      | _, _, _ => none

/-- The digits of `bits`, up to its closing brace, and what follows it. -/
def readBits : List Char → Option (List Bit × List Char)
  | [] => none
  | c :: cs =>
    if c = closeBrace then some ([], cs)
    else if c = '0' then (readBits cs).map (fun (ds, rest) => (false :: ds, rest))
    else if c = '1' then (readBits cs).map (fun (ds, rest) => (true :: ds, rest))
    else none

/-- A stream literal and what follows it (rule R106). -/
def readLiteral (cs : List Char) : Option (Literal × List Char) :=
  match skipSpaces cs with
  | '"' :: rest => (readQuoted rest).map (fun (text, rest) => (.text text, rest))
  | 'h' :: 'e' :: 'x' :: b :: rest =>
    if b = openBrace then (readHex rest).map (fun (es, rest) => (.hex es, rest)) else none
  | 'b' :: 'i' :: 't' :: 's' :: b :: rest =>
    if b = openBrace then (readBits rest).map (fun (ds, rest) => (.bits ds, rest)) else none
  | b :: c :: rest => if b = openBrace ∧ c = closeBrace then some (.hex [], rest) else none
  | _ => none

/-- The capitals at the head of a line, and what follows them. -/
def readName : List Char → List Char × List Char
  | [] => ([], [])
  | c :: cs =>
    if c.isUpper then
      let r := readName cs
      (c :: r.1, r.2)
    else ([], c :: cs)

/-- The mnemonic of a command, in capitals (rules R92 and R104). -/
def mnemonicOf : Instr → List Char
  | .clr => ['C', 'L', 'R']
  | .hist => ['H', 'I', 'S', 'T']
  | .sort => ['S', 'O', 'R', 'T']
  | .build => ['B', 'U', 'I', 'L', 'D']
  | .gen => ['G', 'E', 'N']
  | .enc => ['E', 'N', 'C']
  | .dec => ['D', 'E', 'C']
  | .pack => ['P', 'A', 'C', 'K']
  | .unpack => ['U', 'N', 'P', 'A', 'C', 'K']

/-- The command of a mnemonic. -/
def instrOfMnemonic (name : List Char) : Option Instr :=
  [Instr.clr, .hist, .sort, .build, .gen, .enc, .dec, .pack, .unpack].find?
    (fun i => mnemonicOf i == name)

/-- The line of a name and the text after it (rules R104 and R105). -/
def lineOf (name rest : List Char) : Option Line :=
  match instrOfMnemonic name, readLiteral rest with
  | some i, some (l, more) => if atLineEnd more then some (.command i (some l)) else none
  | some i, none => if atLineEnd rest then some (.command i none) else none
  | none, some (l, more) =>
    if !atLineEnd more then none
    else if name = ['T', 'R', 'A', 'I', 'N'] then some (.train l)
    else if name = ['C', 'O', 'M', 'P', 'R', 'E', 'S', 'S'] then some (.compress l)
    else none
  | none, none => none

/-- One line of the text form; an ill-formed one is no line (rules R104 to R106). DESIGN CHOICE (log entry
21): a blank line, and one that holds only a comment, is no line either, as the spec does not say. -/
def parseLine (cs : List Char) : Option Line :=
  let r := readName (skipSpaces cs)
  (lineOf r.1 r.2).filter Line.wellFormed

end Sys2Proof.Machine
end

