-- ==== Sys2Proof/Safety.lean ====
section
/-! DEFINITION. What counts as a good run and a good state: the end of a run (rule R345, log entry 24), the invariants
between commands (rule R49), the canonical form of the memories, and the ranges of the registers. -/

namespace Sys2Proof.Machine

/-- A run of commands is over when the last one has ended, and it ended well if `ERR = 0` (rule R345).
DESIGN CHOICE (log entry 24): the model's run is a list of all three host moves, so samples and resets
count too, and a reset after a faulted last command makes the run end well. -/
abbrev State.endedWell (s : State) : Prop := s.host = [] ∧ s.err = 0

/-- The lifecycle order `COUNT -> SORTED -> BUILT -> CODED` (rule R21). -/
def Phase.rank : Phase → Nat
  | .count => 0
  | .sorted => 1
  | .built => 2
  | .coded => 3

/-! ### The tree, as data -/

/-- Follow a path from a node: 0 to the left child, 1 to the right (rule R192). -/
def walk (s : State) : NodeIx → List Bit → Option NodeIx
  | n, [] => some n
  | n, b :: bs =>
    match s.readNode n with
    | some (.internal _ left right) => walk s (if b then right else left) bs
    | _ => none

/-- Node `n` is the leaf of `sym`. -/
def isLeafOf (s : State) (sym : Sym) (n : NodeIx) : Bool :=
  match s.readNode n with
  | some (.leaf x _) => x == sym
  | _ => false

/-- The path leads from `ROOT` to the leaf of `sym`. -/
def leadsTo (s : State) (bits : List Bit) (sym : Sym) : Bool :=
  match walk s s.root bits with
  | some n => isLeafOf s sym n
  | none => false

/-- Node `n` is internal, with both children below it (rule R42). -/
def isInternalOver (s : State) (n : Nat) : Bool :=
  match s.readNode (BitVec.ofNat 8 n) with
  | some (.internal _ left right) => left.toNat < n && right.toNat < n
  | _ => false

/-- The child references that node `n` holds. -/
def childrenOf (s : State) (n : Nat) : List NodeIx :=
  match s.readNode (BitVec.ofNat 8 n) with
  | some (.internal _ left right) => [left, right]
  | _ => []

/-- The child references of all nodes in use. -/
def childRefs (s : State) : List NodeIx := (List.range s.nnode.toNat).flatMap (childrenOf s)

/-- The symbols of the list entries, so of the leaves, in list order. -/
def leafSymbols (s : State) : List Sym :=
  (List.range s.nleaf.toNat).filterMap (fun i => (s.readSlist i).map Entry.sym)

/-! ### The invariants of rule R49 -/

/-- Clause (a): `TOTAL` is the sum of COUNT and `NDIST` the number of its non-zero elements. -/
abbrev CountInv (s : State) : Prop :=
  s.total.toNat = ((List.range Config.alpha).map (fun x => (s.readCount x).toNat)).sum ∧
    s.ndist.toNat = (List.range Config.alpha).countP (fun x => s.readCount x != 0)

/-- Clause (b), `PHASE >= SORTED`: the list is there, strictly ascending, its symbols distinct. -/
abbrev SortedInv (s : State) : Prop :=
  1 ≤ s.total.toNat ∧ s.nleaf.toNat = max s.ndist.toNat 2 ∧
    (leafSymbols s).length = s.nleaf.toNat ∧ (leafSymbols s).Nodup ∧
    ((List.range s.nleaf.toNat).filterMap s.readSlist).Pairwise (fun a b => cfLt a b = true)

/-- Leaf `i` carries list entry `i` (rule R42). -/
abbrev leafMatches (s : State) (i : Nat) : Prop :=
  s.readNode (BitVec.ofNat 8 i) = (s.readSlist i).map leafOf

/-- Clause (c), `PHASE >= BUILT`: leaves first, then internal nodes over lower ones, every node but the
root the child of exactly one, the queues as BUILD leaves them. -/
abbrev TreeInv (s : State) : Prop :=
  s.nnode.toNat = 2 * s.nleaf.toNat - 1 ∧ s.root.toNat = 2 * s.nleaf.toNat - 2 ∧
    (∀ i < s.nleaf.toNat, leafMatches s i) ∧
    (∀ n < s.nnode.toNat, s.nleaf.toNat ≤ n → isInternalOver s n = true) ∧
    (∀ n < s.root.toNat, (childRefs s).count (BitVec.ofNat 8 n) = 1) ∧
    s.srcq = [] ∧ s.tgtq = [s.root]

/-- The code of a leaf's symbol: 1 to `CODEMAX` bits leading from the root to its leaf (rules R192 and
R193). -/
def codeIsPath (s : State) (sym : Sym) : Bool :=
  match s.readCode sym.toNat with
  | some c => 1 ≤ c.len && c.len ≤ Config.codeMax && leadsTo s c.bits sym
  | none => false

/-- Neither of two valid codes is a prefix of the other; equal codes are (rule R195). -/
def codesApart (s : State) (a b : Sym) : Bool :=
  match s.readCode a.toNat, s.readCode b.toNat with
  | some x, some y => !x.bits.isPrefixOf y.bits
  | _, _ => true

/-- Clause (d), `PHASE = CODED`: exactly the leaves' symbols have codes, each its leaf's path, none a
prefix of another. -/
abbrev CodedInv (s : State) : Prop :=
  (∀ sym ∈ leafSymbols s, codeIsPath s sym = true) ∧
    (∀ x < Config.alpha, BitVec.ofNat 7 x ∉ leafSymbols s → s.readCode x = none) ∧
    (∀ a ∈ leafSymbols s, ∀ b ∈ leafSymbols s, a ≠ b → codesApart s a b = true)

/-- Rule R49 whole: what holds between commands when `ERR = 0`. When `ERR != 0` nothing is promised. -/
abbrev LifecycleInv (s : State) : Prop :=
  s.err = 0 →
    CountInv s ∧ (1 ≤ s.phase.rank → SortedInv s) ∧ (2 ≤ s.phase.rank → TreeInv s) ∧
      (3 ≤ s.phase.rank → CodedInv s)

/-! ### The canonical form of the memories, and register ranges -/

/-- Every memory rises strictly within its size (rule R60), and COUNT lists no zero. -/
abbrev MemoryInv (s : State) : Prop :=
  Memory.wf (some Config.alpha) s.count = true ∧ (∀ c ∈ s.count, c.2 ≠ 0) ∧
    Memory.wf (some Config.alpha) s.slist = true ∧ Memory.wf (some Config.nodeMax) s.node = true ∧
    Memory.wf (some Config.alpha) s.code = true ∧ Memory.wf s.bitcap s.bitbuf = true

/-- `ERR` is 0 or one of the ten codes (rule R290: codes 11 to 15 are never written), and `PAD` is 0 to
8 (rule R29; after a fault rule R305 leaves it unspecified, and this is the model's choice, log entry 4). -/
abbrev RangeInv (s : State) : Prop := s.err.toNat ≤ 10 ∧ s.pad.toNat ≤ 8

/-- A command that did not end `done` output nothing (rules R304 and R307). -/
def outputOnlyWhenDone : Response → Bool
  | .completed .done _ => true
  | .completed .fault out => out.isEmpty
  | .completed .refused out => out.isEmpty
  | .sampled _ _ => true

end Sys2Proof.Machine
end

