-- ==== Sys2Proof/Certificates/Slice0/Obligations.lean ====
section
/-! DEFINITION. The statements for the provers, from the numbered rules of the spec. No statement rests
on a free value (log entry 5) or on the value of `BITCAP` (log entry 3): each holds for every value. Only
StepKeepsMemoriesCanonical and StepKeepsRegisterRanges say anything of the state a fault leaves outside
the four error registers, which rule R305 leaves unspecified (log entry 4), beyond what rules R99 and R303
themselves state; their docstrings say so. -/

open Sys2Proof Sys2Proof.Machine

namespace Sys2Proof.Claims

/-- The payload of `n` bits fits `BITCAP` (rule R12). -/
def Fits (s : State) (n : Nat) : Prop := ∀ c, s.bitcap = some c → n ≤ c

/-- The payload held in `BITBUF` is exactly `xs` (rule R46). -/
def Holds (t : State) (xs : List Bit) : Prop := t.bitlen = xs.length ∧ ∀ i, t.readBit i = xs[i]?

/-- No `BITBUF` element at or past `n` differs between two states. -/
def SameBitsFrom (n : Nat) (s t : State) : Prop :=
  ∀ i, n ≤ i → Memory.read t.bitbuf i = Memory.read s.bitbuf i

/-- `bytes` is the packed stream of `payload` (rules R100 and R212): `padding - 1` zero bits, a one bit,
the payload, with `padding = 8 - (bit_count mod 8)`. -/
def IsPacked (bytes : List Byte) (payload : List Bit) : Prop :=
  bitsOfBytes bytes = List.replicate (8 - payload.length % 8 - 1) false ++ true :: payload

/-- How many leading bits a first byte discards: the table of rule R100, its last row the fallback of
rule R218. -/
def strippedBy (first : Byte) : Nat := if first.toNat = 0 then 8 else 8 - Nat.log2 first.toNat

/-- The payload of a non-empty packed stream (rules R217 and R218). -/
def unpackedBits : List Byte → List Bit
  | [] => []
  | b :: rest => (bitsOfBytes (b :: rest)).drop (strippedBy b)

/-- `PAD` and `PADFB` as the unpacker leaves them for a stream (rules R29, R33 and R217). -/
def PadNoted (t : State) : List Byte → Prop
  | [] => False
  | b :: _ => t.pad.toNat = strippedBy b ∧ t.padfb = decide (b.toNat = 0)

/-- The code of an element, empty where it has none (rule R241). -/
def codeBits (s : State) (e : Byte) : List Bit := (s.readCode e.toNat).elim [] CodeWord.bits

/-- An element has a valid code (rules R241 and R242). -/
abbrev HasCode (s : State) (e : Byte) : Prop := e.toNat < 128 ∧ (s.readCode e.toNat).isSome = true

/-- The codes of a stream, concatenated in order (rule R241). -/
def encodedBits (s : State) (stream : List Byte) : List Bit := stream.flatMap (codeBits s)

/-- An element is a bit token (rule R96). -/
abbrev IsToken (e : Byte) : Prop := e = 0x00#8 ∨ e = 0x01#8

/-- The bits of a token stream (rule R96). -/
def tokenBits (stream : List Byte) : List Bit := stream.map (fun e => decide (e = 0x01#8))

/-- The child of node `n` for a bit: 0 left, 1 right (rule R263). -/
def childOf (s : State) (n : NodeIx) (bit : Bit) : NodeIx :=
  match s.readNode n with
  | some (.internal _ left right) => if bit then right else left
  | _ => s.root

/-- The decoder's walk from a cursor: the symbols emitted, in emission order, and the cursor where the
bits run out (rules R263, R265, R266 and R268). -/
def treeWalk (s : State) : NodeIx → List Bit → List Byte × NodeIx
  | cur, [] => ([], cur)
  | cur, bit :: bits =>
    match s.readNode (childOf s cur bit) with
    | some (.leaf sym _) =>
      let r := treeWalk s s.root bits
      (sym.setWidth 8 :: r.1, r.2)
    | _ => treeWalk s (childOf s cur bit) bits

/-- A queued node of the reference merge: its index and its probability. -/
abbrev Queued := NodeIx × P64

/-- Which of two queues gives the next node, and the two queues after it (rule R164): Source on a smaller
or equal probability, the only non-empty queue otherwise. -/
def referencePick : List Queued → List Queued → Option (Queued × List Queued × List Queued)
  | [], [] => none
  | [], t :: ts => some (t, [], ts)
  | h :: hs, [] => some (h, hs, [])
  | h :: hs, t :: ts => if pLe h.2 t.2 then some (h, hs, t :: ts) else some (t, h :: hs, ts)

/-- The internal nodes of so many merges, in creation order, the first at index `next` (rules R165 and
R167): left the first pick, right the second, the new node to Target's tail. -/
def referenceMerges : Nat → Nat → List Queued → List Queued → List Node
  | 0, _, _, _ => []
  | rounds + 1, next, source, target =>
    match referencePick source target with
    | none => []
    | some (a, source1, target1) =>
      match referencePick source1 target1 with
      | none => []
      | some (b, source2, target2) =>
        .internal (pAdd a.2 b.2) a.1 b.1 ::
          referenceMerges rounds (next + 1) source2
            (target2 ++ [(BitVec.ofNat 8 next, pAdd a.2 b.2)])

/-- The nodes of the two-queue merge over a list (rules R162 to R167): one leaf per entry, all of them in
Source in list order, Target empty, then one merge fewer than there are leaves. -/
def referenceTree (entries : List Entry) : List Node :=
  entries.map leafOf ++
    referenceMerges (entries.length - 1) entries.length
      (entries.mapIdx (fun i e => (BitVec.ofNat 8 i, e.prob))) []

/-- The list that SORT left, as entries in order (rule R41). -/
def sortedList (s : State) : List Entry := (List.range s.nleaf.toNat).filterMap s.readSlist

/-- The command of word `w` raised a fault (rules R303 and R304): the four error registers, an empty
OUT, and, where the command reads IN, a consumed stream (rule R64). -/
def Raised (w : Byte) (reads : Bool) (s t : State) (code : BitVec 4) (val : Byte) (pos : Nat) : Prop :=
  t.err = code ∧ t.errcmd = w ∧ t.errval = val ∧ t.errpos = BitVec.ofNat 32 pos ∧
    (reads = true → t.inp = []) ∧ t.results = s.results ++ [.completed .fault []]

/-- A tree as BUILD leaves it over 2 to 128 leaves with distinct symbols (rules R42, R49 and R172). -/
abbrev IsTree (s : State) : Prop :=
  2 ≤ s.nleaf.toNat ∧ s.nleaf.toNat ≤ 128 ∧ (leafSymbols s).length = s.nleaf.toNat ∧
    (leafSymbols s).Nodup ∧ TreeInv s

end Sys2Proof.Claims

open Sys2Proof.Claims

/-! ### Reset and session control -/

/-- R331, the complete reset state, and R332: SLIST, NODE and BITBUF hold no value. -/
def Obligations.ResetStateIsAsSpecified : Prop :=
  let r := State.reset
  r.phase = .count ∧ r.err = 0 ∧ r.errcmd = 0 ∧ r.errval = 0 ∧ r.errpos = 0 ∧ r.synth = false ∧
    r.padfb = false ∧ r.skip = false ∧ r.total = 0 ∧ r.ndist = 0 ∧ r.nleaf = 0 ∧ r.nnode = 0 ∧
    r.root = 0xFF#8 ∧ r.cur = 0xFF#8 ∧ r.bitlen = 0 ∧ r.pad = 0 ∧ (∀ x, r.readCount x = 0) ∧
    (∀ x, r.readCode x = none) ∧ r.srcq = [] ∧ r.tgtq = [] ∧ r.status = 0x00000000#32 ∧
    (∀ i, r.readSlist i = none) ∧ (∀ n, r.readNode n = none) ∧ (∀ i, r.readBit i = none)

/-- R120: CLR, in every phase and also while `ERR != 0`, ends `done` with every register, flag and queue
at its reset value, COUNT zero and CODE invalid, reads no IN, and writes nothing else; it is the only
command accepted after a fault. -/
def Obligations.ClrStartsNewSession : Prop :=
  (∀ s : State, ∃ t, exec .clr s = .next t ∧
    t = { State.reset with
      slist := s.slist, node := s.node, bitbuf := s.bitbuf, bitcap := s.bitcap, samples := s.samples,
      host := s.host, inp := s.inp, results := s.results ++ [.completed .done []] }) ∧
    ∀ (s : State) (i : Instr), s.err ≠ 0 → i ≠ .clr →
      ∃ t, exec i s = .next t ∧ t.err = s.err ∧ t.results = s.results ++ [.completed .refused []]

/-- R121: CLR does not write SLIST, NODE or BITBUF, and after it they count as holding no value. -/
def Obligations.ClrHidesBulkMemories : Prop :=
  ∀ s : State, ∃ t, exec .clr s = .next t ∧
    t.slist = s.slist ∧ t.node = s.node ∧ t.bitbuf = s.bitbuf ∧
    (∀ i, t.readSlist i = none) ∧ (∀ n, t.readNode n = none) ∧ (∀ i, t.readBit i = none)

/-- R330: the reset input has the same architectural effect as CLR. That it answers no command, so that
the host's results stay as they are, is the model's choice (log entry 15). -/
def Obligations.ResetInputActsAsClr : Prop :=
  ∀ (s : State) (rest : List Request), s.host = .reset :: rest →
    ∃ t u, step s = .next t ∧ exec .clr { s with host := rest } = .next u ∧
      t = { u with results := s.results }

/-! ### Command words and the step -/

/-- R92: each of the nine words is the command of the opcode map. -/
def Obligations.WordsDecodeAsTabled : Prop :=
  decode 0b00000001#8 = .command .clr ∧ decode 0b00000010#8 = .command .hist ∧
    decode 0b00000011#8 = .command .sort ∧ decode 0b00000100#8 = .command .build ∧
    decode 0b00000101#8 = .command .gen ∧ decode 0b00000110#8 = .command .enc ∧
    decode 0b00000111#8 = .command .dec ∧ decode 0b00001000#8 = .command .pack ∧
    decode 0b00001001#8 = .command .unpack

/-- Every command's word decodes to it, and only the words 0x01 to 0x09 decode to a command (R91, R92,
R99). -/
def Obligations.DecodeInvertsEncode : Prop :=
  (∀ i : Instr, i.wellFormed = true → decode (encode i) = .command i) ∧
    ∀ (w : Byte) (i : Instr), decode w = .command i ↔ w = encode i ∧ 1 ≤ w.toNat ∧ w.toNat ≤ 9

/-- A step runs the decoded command: with a command request as the host's next move, whose word decodes
to `i`, the step is `exec i` in the state where that move is taken and its stream is on IN. -/
def Obligations.StepRunsDecodedCommand : Prop :=
  ∀ (s : State) (w : Byte) (stream : List Byte) (rest : List Request) (i : Instr),
    s.host = .command w stream :: rest → decode w = .command i → i.wellFormed = true →
    step s = exec i { s with host := rest, inp := stream }

/-- R292 and R99: every word outside the opcode map (0x00, 0x0A to 0x0F, every word with `cmd[7:4] != 0`)
raises `IllegalCommand`, with `ERRCMD` the word, and changes nothing else of the engine. The word
stands as the host's next move (log entry 1). -/
def Obligations.IllegalWordRaisesIllegalCommand : Prop :=
  ∀ (s : State) (w : Byte) (stream : List Byte) (rest : List Request),
    s.host = .command w stream :: rest → s.err = 0 →
    (w = 0x00#8 ∨ (0x0A ≤ w.toNat ∧ w.toNat ≤ 0x0F) ∨ w.extractLsb' 4 4 ≠ 0#4) →
    ∃ t, step s = .next t ∧ t = { s with
      err := 1, errcmd := w, errval := 0, errpos := 0, host := rest, inp := t.inp,
      results := s.results ++ [.completed .fault []] }

/-- R307: while `ERR != 0` every word but 0x01 is refused. No state of the engine changes, nothing is
output, and IN is consumed and discarded where the word is that of a command with a stream (for the
other words see log entry 16). The word stands as the host's next move (log entry 1). -/
def Obligations.FaultedEngineRefusesAllButClr : Prop :=
  ∀ (s : State) (w : Byte) (stream : List Byte) (rest : List Request),
    s.host = .command w stream :: rest → s.err ≠ 0 → w ≠ 0x01#8 →
    ∃ t, step s = .next t ∧
      t = { s with
        host := rest, inp := t.inp, results := s.results ++ [.completed .refused []] } ∧
      (w = 0x02#8 ∨ w = 0x06#8 ∨ w = 0x07#8 ∨ w = 0x08#8 ∨ w = 0x09#8 → t.inp = [])

/-- R291: a command issued in a phase in which rule R93 does not allow it raises `Sequence`. -/
def Obligations.WrongPhaseRaisesSequence : Prop :=
  ∀ (s : State), s.err = 0 →
    (s.phase ≠ .count → ∃ t, exec .hist s = .next t ∧ Raised 0x02#8 true s t 2 0 0) ∧
    (s.phase ≠ .count → ∃ t, exec .sort s = .next t ∧ Raised 0x03#8 false s t 2 0 0) ∧
    (s.phase ≠ .sorted → ∃ t, exec .build s = .next t ∧ Raised 0x04#8 false s t 2 0 0) ∧
    (s.phase ≠ .built → ∃ t, exec .gen s = .next t ∧ Raised 0x05#8 false s t 2 0 0) ∧
    (s.phase ≠ .coded → ∃ t, exec .enc s = .next t ∧ Raised 0x06#8 true s t 2 0 0) ∧
    (s.phase = .count ∨ s.phase = .sorted →
      ∃ t, exec .dec s = .next t ∧ Raised 0x07#8 true s t 2 0 0)

/-- R312 with R64, R304 and R307: every command that ends answers exactly one outcome: `refused` where
`ERR != 0` already and the word is not CLR's, `fault` where it raised one, `done` where it ran and
`ERR = 0`. `CLR` always ends `done`. Only a `done` command outputs, and a command that reads IN has
consumed it; that the others leave it is the model's choice (log entry 16). -/
def Obligations.EveryCommandAnswersOnce : Prop :=
  ∀ (i : Instr) (s t : State), exec i s = .next t →
    ∃ o out, t.results = s.results ++ [.completed o out] ∧
      (o = .refused ↔ i ≠ .clr ∧ s.err ≠ 0) ∧
      (o = .done ↔ t.err = 0) ∧ (i = .clr → o = .done) ∧
      (o = .fault → s.err = 0 ∧ t.err ≠ 0 ∧ t.errcmd = encode i) ∧
      (o ≠ .done → out = []) ∧
      t.inp = (if i.readsIn then [] else s.inp)

/-- R303: raising a fault writes `ERR`, `ERRCMD`, `ERRVAL` and `ERRPOS` (modulo `2^32`) and nothing else
of the engine; the host gets the command marked failed with an empty OUT (R304). -/
def Obligations.FaultEntryWritesErrorRegisters : Prop :=
  ∀ (w : Byte) (c : Cause) (val : Byte) (pos : Nat) (s : State),
    takeFault w c val pos s = { s with
      err := c.code, errcmd := w, errval := val, errpos := BitVec.ofNat 32 (pos % 2 ^ 32),
      results := s.results ++ [.completed .fault []] } ∧ 1 ≤ c.code.toNat ∧ c.code.toNat ≤ 10

/-- R38: the layout of STATUS. The error fields and the three zero bits stand in every state; the other
bits show their registers while `ERR = 0` and are unspecified while `ERR != 0` (R305). -/
def Obligations.StatusWordLayout : Prop :=
  ∀ s : State,
    s.status.extractLsb' 24 8 = s.errval ∧ s.status.extractLsb' 16 8 = s.errcmd ∧
    s.status.extractLsb' 8 4 = s.err ∧ s.status.extractLsb' 5 3 = 0#3 ∧
    (s.err = 0 →
      s.status.extractLsb' 12 4 = s.pad ∧ s.status.getLsbD 4 = s.skip ∧
      s.status.getLsbD 3 = s.padfb ∧ s.status.getLsbD 2 = s.synth ∧
      s.status.extractLsb' 0 2 = BitVec.ofNat 2 s.phase.rank)

/-- The host samples STATUS and ERRPOS between commands, and the engine's state is unchanged (R38,
R344). That a sample is a move of its own and draws a fresh free value is the model's choice (log
entries 5 and 22); the statement holds for every free value. -/
def Obligations.SampleReadsStatusOnly : Prop :=
  ∀ (s : State) (rest : List Request), s.host = .sample :: rest →
    step s = .next { s with
      host := rest, samples := s.samples + 1,
      results := s.results ++ [.sampled s.status s.errpos] }

/-- R105: the expansions of the two pseudo-commands, as command words. -/
def Obligations.PseudoCommandsExpand : Prop :=
  ∀ l : Literal,
    requestsOf (.train l) =
      [.command 0x02#8 (streamOf l), .command 0x03#8 [], .command 0x04#8 [], .command 0x05#8 []] ∧
    requestsOf (.compress l) =
      [.command 0x01#8 [], .command 0x02#8 (streamOf l), .command 0x03#8 [], .command 0x04#8 [],
        .command 0x05#8 [], .command 0x06#8 (streamOf l)]

/-! ### HIST and SORT -/

/-- R132 and R133: HIST on a stream of symbols that does not fill `TOTAL` adds each symbol's occurrences
to its COUNT, their number to `TOTAL`, and, where no COUNT exceeds `TOTAL` (as rule R133 derives), the
number of newly seen symbols to `NDIST`; it leaves everything else unchanged. -/
def Obligations.HistCountsItsStream : Prop :=
  ∀ s : State, s.err = 0 → s.phase = .count → (∀ e ∈ s.inp, e.toNat < 128) →
    s.total.toNat + s.inp.length ≤ 2 ^ 32 - 1 →
    ∃ t, exec .hist s = .next t ∧
      t = { s with
        count := t.count, total := s.total + BitVec.ofNat 32 s.inp.length, ndist := t.ndist,
        inp := [], results := s.results ++ [.completed .done []] } ∧
      (∀ x, t.readCount x = s.readCount x + BitVec.ofNat 32 (s.inp.countP (fun e => e.toNat == x))) ∧
      ((∀ x < 128, (s.readCount x).toNat ≤ s.total.toNat) →
        t.ndist = s.ndist + BitVec.ofNat 8
          ((List.range 128).countP (fun x => s.readCount x == 0 && s.inp.any (fun e => e.toNat == x))))

/-- R134: successive HIST commands accumulate, leaving the same COUNT, `TOTAL` and `NDIST` as one HIST of
the concatenated stream; HIST of an empty stream changes nothing of the engine. -/
def Obligations.HistAccumulates : Prop :=
  (∀ (s t1 t2 : State) (x y : List Byte),
    exec .hist { s with inp := x } = .next t1 → exec .hist { t1 with inp := y } = .next t2 →
    t2.err = 0 →
    ∃ u, exec .hist { s with inp := x ++ y } = .next u ∧ u.err = 0 ∧ u.count = t2.count ∧
      u.total = t2.total ∧ u.ndist = t2.ndist) ∧
    ∀ s : State, s.err = 0 → s.phase = .count → s.inp = [] →
      exec .hist s = .next { s with results := s.results ++ [.completed .done []] }

/-- R293: HIST raises `SymbolRange` at the first element at or above `ALPHA`, with the element and its
index, whatever follows it. -/
def Obligations.HistRaisesSymbolRange : Prop :=
  ∀ (s : State) (pre post : List Byte) (e : Byte), s.err = 0 → s.phase = .count →
    s.inp = pre ++ e :: post → (∀ x ∈ pre, x.toNat < 128) → s.total.toNat + pre.length ≤ 2 ^ 32 - 1 →
    128 ≤ e.toNat →
    ∃ t, exec .hist s = .next t ∧ Raised 0x02#8 true s t 3 e pre.length

/-- R294: HIST raises `CountOverflow` at the element that would make `TOTAL` exceed `2^32 - 1`, with the
element and its index in its own stream. -/
def Obligations.HistRaisesCountOverflow : Prop :=
  ∀ (s : State) (pre post : List Byte) (e : Byte), s.err = 0 → s.phase = .count →
    s.inp = pre ++ e :: post → (∀ x ∈ pre, x.toNat < 128) → e.toNat < 128 →
    s.total.toNat + pre.length = 2 ^ 32 - 1 →
    ∃ t, exec .hist s = .next t ∧ Raised 0x02#8 true s t 4 e pre.length

/-- R135, R136 and R138: SORT on a non-empty histogram delivers in SLIST the strictly ascending list of
one entry per counted symbol with probability `p_ratio(COUNT, TOTAL)`, plus the synthetic entry exactly
where one distinct symbol was counted; NLEAF is its length, and nothing else changes. -/
def Obligations.SortDeliversAscendingList : Prop :=
  ∀ s : State, s.err = 0 → s.phase = .count → s.total ≠ 0 →
    ∃ (t : State) (L : List Entry), exec .sort s = .next t ∧
      t = { s with
        slist := t.slist, nleaf := BitVec.ofNat 8 L.length, phase := .sorted,
        synth := decide ((List.range 128).countP (fun x => s.readCount x != 0) = 1),
        results := s.results ++ [.completed .done []] } ∧
      L.length ≤ 128 ∧ (∀ i : Nat, t.readSlist i = L[i]?) ∧
      L.Pairwise (fun a b : Entry => cfLt a b = true) ∧
      (∀ e : Entry, e ∈ L ↔
        (s.readCount e.sym.toNat ≠ 0 ∧
            e.prob = pRatio (s.readCount e.sym.toNat).toNat s.total.toNat) ∨
          (t.synth = true ∧ e.prob = pRatio 0 s.total.toNat ∧
            ∃ o : Sym, s.readCount o.toNat ≠ 0 ∧ e.sym = o + 1)) ∧
      ∀ i, L.length ≤ i → Memory.read t.slist i = Memory.read s.slist i

/-- R138, second half: where no COUNT exceeds `TOTAL`, the list is equally ascending by
`(COUNT[sym], sym)`, the synthetic entry counting as the 0 that its symbol's COUNT reads: a sorter may
compare the integer counts. -/
def Obligations.SortOrderIsByCount : Prop :=
  ∀ s t : State, s.err = 0 → s.phase = .count → s.total ≠ 0 →
    (∀ x < 128, (s.readCount x).toNat ≤ s.total.toNat) → exec .sort s = .next t →
    ∀ (i j : Nat) (a b : Entry), i < j → t.readSlist i = some a → t.readSlist j = some b →
      (s.readCount a.sym.toNat).toNat < (s.readCount b.sym.toNat).toNat ∨
        (s.readCount a.sym.toNat = s.readCount b.sym.toNat ∧ a.sym.toNat < b.sym.toNat)

/-- R137: with exactly one distinct symbol `o` counted, SORT injects the synthetic entry of ordinal
`(o + 1) mod 128` with probability 0 as `SLIST[0]`; the observed symbol, probability 1.0, is `SLIST[1]`.
The wrap at ordinal 127 is the spec's own choice: "the original program wraps the same way [from general
knowledge, not in source]". -/
def Obligations.SortInjectsSyntheticEntry : Prop :=
  ∀ (s : State) (o : Sym), s.err = 0 → s.phase = .count → s.total ≠ 0 →
    s.readCount o.toNat = s.total → (∀ x < 128, x ≠ o.toNat → s.readCount x = 0) →
    ∃ t, exec .sort s = .next t ∧ t.nleaf = 2 ∧ t.synth = true ∧
      t.readSlist 0 = some { sym := BitVec.ofNat 7 ((o.toNat + 1) % 128), prob := 0x0000000000000000#64 } ∧
      t.readSlist 1 = some { sym := o, prob := 0x3FF0000000000000#64 }

/-- R295: SORT raises `EmptyInput` when `TOTAL = 0`. -/
def Obligations.SortRaisesEmptyInput : Prop :=
  ∀ s : State, s.err = 0 → s.phase = .count → s.total = 0 →
    ∃ t, exec .sort s = .next t ∧ Raised 0x03#8 false s t 5 0 0

/-! ### The probability numerics -/

/-- R9: the binary64 instance satisfies the laws of `PROB`: P1, `p_le` is total and transitive; P2, for
one total, a larger count has a strictly larger ratio. On words outside `P` (negative, infinite or NaN
patterns) `p_le` is the model's choice (log entry 8). -/
def Obligations.Binary64MeetsProbLaws : Prop :=
  (∀ a b : P64, binary64.le a b = true ∨ binary64.le b a = true) ∧
    (∀ a b c : P64, binary64.le a b = true → binary64.le b c = true → binary64.le a c = true) ∧
    ∀ c1 c2 t : Nat, c1 < c2 → c2 ≤ t → t < 2 ^ 32 →
      binary64.lt (binary64.ratio c1 t) (binary64.ratio c2 t) = true

/-- R10: `p_ratio(c, t)` is the quotient rounded once to nearest: no finite non-negative binary64 value is
nearer to `c / t`. Both sides are multiplied by `t * 2^1074` to stay in the integers. -/
def Obligations.RatioRoundsToNearest : Prop :=
  ∀ (c t : Nat) (x : P64), 1 ≤ t → t < 2 ^ 32 → c ≤ t → x.toNat < 0x7FF0000000000000 →
    ((units (pRatio c t) : Int) * t - c * 2 ^ 1074).natAbs ≤
      ((units x : Int) * t - c * 2 ^ 1074).natAbs

/-- R10: `p_add(a, b)` is the sum rounded once to nearest, ties to even, for finite non-negative operands
whose sum stays finite (the engine's sums stay below 2). -/
def Obligations.SumRoundsToNearestEven : Prop :=
  ∀ a b x : P64, a.toNat < 0x7FD0000000000000 → b.toNat < 0x7FD0000000000000 →
    x.toNat < 0x7FF0000000000000 →
    let near := ((units (pAdd a b) : Int) - (units a + units b : Nat)).natAbs
    let other := ((units x : Int) - (units a + units b : Nat)).natAbs
    near ≤ other ∧ (near = other → x ≠ pAdd a b → (pAdd a b).toNat % 2 = 0)

/-- R10: `p_ratio(0, t)` is `+0.0` and `p_ratio(t, t)` is `1.0` exactly. -/
def Obligations.RatioEndsAreExact : Prop :=
  ∀ t : Nat, 1 ≤ t → t < 2 ^ 32 →
    pRatio 0 t = 0x0000000000000000#64 ∧ pRatio t t = 0x3FF0000000000000#64

/-! ### BUILD -/

/-- R164: which head a pick removes and returns, in each of its four cases; nothing else changes. On
words outside `P` the comparison is the model's choice (log entry 8). -/
def Obligations.PickPrefersSourceOnTies : Prop :=
  ∀ (s : State) (h t : NodeIx) (hs ts : List NodeIx),
    (s.srcq = [] → s.tgtq = t :: ts → pick s = .ok (t, { s with tgtq := ts })) ∧
    (s.srcq = h :: hs → s.tgtq = [] → pick s = .ok (h, { s with srcq := hs })) ∧
    ∀ x y : Node, s.srcq = h :: hs → s.tgtq = t :: ts → s.readNode h = some x →
      s.readNode t = some y →
      (units x.prob ≤ units y.prob → pick s = .ok (h, { s with srcq := hs })) ∧
      (units y.prob < units x.prob → pick s = .ok (t, { s with tgtq := ts }))

/-- R165: a merge makes the internal node over the first and the second pick, with the sum of their
probabilities, at `NODE[NNODE]`, enqueues it on Target's tail and records it as the root. -/
def Obligations.MergeCreatesParentOfPicks : Prop :=
  ∀ (s s1 s2 : State) (a b : NodeIx) (x y : Node), pick s = .ok (a, s1) → pick s1 = .ok (b, s2) →
    s.nnode.toNat < 255 → s.readNode a = some x → s.readNode b = some y →
    ∃ t, mergeStep s = .ok t [] ∧
      t = { s2 with
        node := t.node, nnode := s.nnode + 1, tgtq := s2.tgtq ++ [s.nnode], root := s.nnode } ∧
      t.readNode s.nnode = some (.internal (pAdd x.prob y.prob) a b) ∧
      (∀ n, n ≠ s.nnode → t.readNode n = s.readNode n) ∧
      s2.srcq.length + t.tgtq.length + 1 = s.srcq.length + s.tgtq.length

/-- R172: the state after a successful BUILD. Leaves first, carrying the list; then internal nodes in
creation order, each over two lower nodes with the sum of their probabilities; every node but the root
the child of exactly one; the queues `[]` and `[ROOT]`; a leaf's depth at most `NLEAF - 1`; everything
else unchanged. It completes for every list of 2 to 128 entries. -/
def Obligations.BuildLeavesFullTree : Prop :=
  ∀ s : State, s.err = 0 → s.phase = .sorted → 2 ≤ s.nleaf.toNat → s.nleaf.toNat ≤ 128 →
    (∀ i < s.nleaf.toNat, (s.readSlist i).isSome = true) →
    ∃ t, exec .build s = .next t ∧
      t = { s with
        node := t.node, nnode := BitVec.ofNat 8 (2 * s.nleaf.toNat - 1),
        root := BitVec.ofNat 8 (2 * s.nleaf.toNat - 2), srcq := [], tgtq := [t.root],
        phase := .built, results := s.results ++ [.completed .done []] } ∧
      (∀ i < s.nleaf.toNat, t.readNode (BitVec.ofNat 8 i) = (s.readSlist i).map leafOf) ∧
      (∀ n, s.nleaf.toNat ≤ n → n < 2 * s.nleaf.toNat - 1 →
        ∃ (p : P64) (l r : NodeIx) (x y : Node),
          t.readNode (BitVec.ofNat 8 n) = some (.internal p l r) ∧ l.toNat < n ∧ r.toNat < n ∧
          t.readNode l = some x ∧ t.readNode r = some y ∧ p = pAdd x.prob y.prob) ∧
      (∀ n < 2 * s.nleaf.toNat - 2, (childRefs t).count (BitVec.ofNat 8 n) = 1) ∧
      (∀ bits n, walk t t.root bits = some n → bits.length ≤ s.nleaf.toNat - 1) ∧
      ∀ i, 2 * s.nleaf.toNat - 1 ≤ i → Memory.read t.node i = Memory.read s.node i

/-- R164 to R168: WHICH nodes each merge joins. The nodes that BUILD makes are those of the reference
two-queue merge over the list: Source in list order and consumed from its head, Target in creation order,
each pick the head of smaller probability with Source winning a tie, the second pick after the first, and
`NLEAF - 1` merges. It completes for every list of 2 to 128 entries. On words outside `P` the order is
the model's choice (log entry 8). -/
def Obligations.BuildMatchesReferenceMerge : Prop :=
  ∀ s : State, s.err = 0 → s.phase = .sorted → 2 ≤ s.nleaf.toNat → s.nleaf.toNat ≤ 128 →
    (∀ i < s.nleaf.toNat, (s.readSlist i).isSome = true) →
    ∃ t, exec .build s = .next t ∧ t.err = 0 ∧
      (referenceTree (sortedList s)).length = 2 * s.nleaf.toNat - 1 ∧
      ∀ n : NodeIx, t.readNode n = (referenceTree (sortedList s))[n.toNat]?

/-- R168: the tree is a function of SLIST alone (for the one `PROB`): two sessions whose lists agree build
the same nodes and the same root, whatever else differs. -/
def Obligations.TreeDependsOnListOnly : Prop :=
  ∀ s1 s2 t1 t2 : State, s1.nleaf = s2.nleaf → (∀ i, s1.readSlist i = s2.readSlist i) →
    exec .build s1 = .next t1 → exec .build s2 = .next t2 → t1.err = 0 → t2.err = 0 →
    t1.root = t2.root ∧ t1.nnode = t2.nnode ∧ ∀ n, t1.readNode n = t2.readNode n

/-- R296: BUILD raises `TooFewLeaves` when `NLEAF < 2`; no state that meets the invariants of rule R49
is such a state, so no legal command sequence raises it. -/
def Obligations.BuildRaisesTooFewLeaves : Prop :=
  (∀ s : State, s.err = 0 → s.phase = .sorted → s.nleaf.toNat < 2 →
    ∃ t, exec .build s = .next t ∧ Raised 0x04#8 false s t 6 0 0) ∧
    ∀ s t : State, s.err = 0 → LifecycleInv s → exec .build s = .next t → t.err ≠ 6

/-! ### GEN -/

/-- R191 to R194: GEN on a tree that BUILD made gives each leaf's symbol the path from the root to its
leaf, of 1 to 127 bits, and no other symbol a code; it changes nothing else but `PHASE`. -/
def Obligations.GenGivesLeavesTheirPaths : Prop :=
  ∀ s : State, s.err = 0 → s.phase = .built → IsTree s →
    ∃ t, exec .gen s = .next t ∧
      t = { s with
        code := t.code, phase := .coded, results := s.results ++ [.completed .done []] } ∧
      (∀ sym ∈ leafSymbols s, ∃ c, t.readCode sym.toNat = some c ∧ 1 ≤ c.bits.length ∧
        c.bits.length ≤ s.nleaf.toNat - 1 ∧
        ∃ n p, walk s s.root c.bits = some n ∧ s.readNode n = some (.leaf sym p)) ∧
      (∀ x, (∀ sym ∈ leafSymbols s, sym.toNat ≠ x) → t.readCode x = none)

/-- R195: the codes of two different symbols differ and neither is a prefix of the other. -/
def Obligations.GeneratedCodesArePrefixFree : Prop :=
  ∀ s t : State, s.err = 0 → s.phase = .built → IsTree s → exec .gen s = .next t →
    ∀ (x y : Nat) (c d : CodeWord), x ≠ y → t.readCode x = some c → t.readCode y = some d →
      ¬ c.bits <+: d.bits

/-- R195: the sum over the valid codes of `2^(-len)` is exactly 1 (both sides times `2^127`). -/
def Obligations.GeneratedCodesFillKraftSum : Prop :=
  ∀ s t : State, s.err = 0 → s.phase = .built → IsTree s → exec .gen s = .next t →
    ((List.range 128).map (fun x =>
      (t.readCode x).elim 0 (fun c => 2 ^ (127 - c.bits.length)))).sum = 2 ^ 127

/-! ### PACK and UNPACK -/

/-- R97 and R98: bits to bytes and back, most significant bit first, each the inverse of the other. -/
def Obligations.BitsAndBytesAreInverse : Prop :=
  (∀ x : List Bit, x.length % 8 = 0 →
    (bytesOfBits x).length = x.length / 8 ∧ bitsOfBytes (bytesOfBits x) = x ∧
    ∀ k < x.length / 8, ∃ v, (bytesOfBits x)[k]? = some v ∧
      v.toNat = ((List.range 8).map (fun j => (x.getD (8 * k + j) false).toNat * 2 ^ (7 - j))).sum) ∧
    ∀ b : List Byte,
      (bitsOfBytes b).length = 8 * b.length ∧ bytesOfBits (bitsOfBytes b) = b ∧
      ∀ k < b.length, ∀ j < 8,
        (bitsOfBytes b)[8 * k + j]? = (b[k]?).map (fun v => v.getLsbD (7 - j))

/-- R210 to R213: PACK, in every phase, packs its tokens' bits: `BITLEN` and `BITBUF` hold them, `PAD` is
`8 - (bit_count mod 8)`, and OUT is the packed stream; everything else is unchanged. -/
def Obligations.PackEmitsPaddedBytes : Prop :=
  ∀ s : State, s.err = 0 → (∀ e ∈ s.inp, IsToken e) → Fits s s.inp.length →
    ∃ t out, exec .pack s = .next t ∧
      t = { s with
        bitbuf := t.bitbuf, bitlen := s.inp.length,
        pad := BitVec.ofNat 4 (8 - s.inp.length % 8), inp := [],
        results := s.results ++ [.completed .done out] } ∧
      Holds t (tokenBits s.inp) ∧ SameBitsFrom s.inp.length s t ∧ IsPacked out (tokenBits s.inp) ∧
      out.length = s.inp.length / 8 + 1 ∧
      (s.inp.length % 8 = 0 → out.head? = some 0x01#8)

/-- R299: PACK raises `MalformedBitstring` at the first token other than 0x00 and 0x01, with the token
and its index. -/
def Obligations.PackRaisesMalformedBitstring : Prop :=
  ∀ (s : State) (pre post : List Byte) (e : Byte), s.err = 0 → s.inp = pre ++ e :: post →
    (∀ x ∈ pre, IsToken x) → Fits s pre.length → ¬ IsToken e →
    ∃ t, exec .pack s = .next t ∧ Raised 0x08#8 true s t 8 e pre.length

/-- R216 to R218: UNPACK, in every phase, recovers the payload of a non-empty stream: it discards through
the sentinel in the first byte, or, with no sentinel there, exactly eight bits (the fallback, surfaced by
`PADFB`); OUT is the payload as tokens; everything else is unchanged. -/
def Obligations.UnpackStripsPadding : Prop :=
  ∀ s : State, s.err = 0 → s.inp ≠ [] → Fits s (unpackedBits s.inp).length →
    ∃ t, exec .unpack s = .next t ∧
      t = { s with
        bitbuf := t.bitbuf, bitlen := (unpackedBits s.inp).length, pad := t.pad, padfb := t.padfb,
        inp := [],
        results := s.results ++ [.completed .done
          ((unpackedBits s.inp).map (fun b => if b then 0x01#8 else 0x00#8))] } ∧
      Holds t (unpackedBits s.inp) ∧ SameBitsFrom (unpackedBits s.inp).length s t ∧
      PadNoted t s.inp

/-- R300: UNPACK, and DEC where it is legal, raise `EmptyStream` on a stream of no byte. -/
def Obligations.EmptyStreamIsRaised : Prop :=
  ∀ s : State, s.err = 0 → s.inp = [] →
    (∃ t, exec .unpack s = .next t ∧ Raised 0x09#8 true s t 10 0 0) ∧
    (s.phase = .built ∨ s.phase = .coded →
      ∃ t, exec .dec s = .next t ∧ Raised 0x07#8 true s t 10 0 0)

/-- R298: `Capacity`, raised by PACK at the token with index `BITCAP`, by ENC at the first element whose
code does not fit, and by UNPACK and DEC, with `ERRVAL = ERRPOS = 0`, when the payload exceeds it. -/
def Obligations.CapacityIsRaised : Prop :=
  ∀ (s : State) (cap : Nat), s.err = 0 → s.bitcap = some cap →
    (∀ (pre post : List Byte) (e : Byte), s.inp = pre ++ e :: post → (∀ x ∈ pre, IsToken x) →
      IsToken e → pre.length = cap →
      ∃ t, exec .pack s = .next t ∧ Raised 0x08#8 true s t 9 e cap) ∧
    (∀ (pre post : List Byte) (e : Byte), s.phase = .coded → s.inp = pre ++ e :: post →
      (∀ x ∈ pre, HasCode s x) → HasCode s e → (encodedBits s pre).length ≤ cap →
      cap < (encodedBits s pre).length + (codeBits s e).length →
      ∃ t, exec .enc s = .next t ∧ Raised 0x06#8 true s t 9 e pre.length) ∧
    (s.inp ≠ [] → cap < (unpackedBits s.inp).length →
      (∃ t, exec .unpack s = .next t ∧ Raised 0x09#8 true s t 9 0 0) ∧
      (s.phase = .built ∨ s.phase = .coded →
        ∃ t, exec .dec s = .next t ∧ Raised 0x07#8 true s t 9 0 0))

/-- R215: packing then unpacking a bit sequence of any length that fits returns it, with `PADFB = 0` and
the same `PAD`. -/
def Obligations.PackThenUnpackReturnsBits : Prop :=
  ∀ s : State, s.err = 0 → (∀ e ∈ s.inp, IsToken e) → Fits s s.inp.length →
    ∃ t out u, exec .pack s = .next t ∧ t.results = s.results ++ [.completed .done out] ∧
      exec .unpack { t with inp := out } = .next u ∧
      u.results = t.results ++ [.completed .done s.inp] ∧ u.padfb = false ∧ u.pad = t.pad ∧
      u.bitlen = s.inp.length ∧ Holds u (tokenBits s.inp)

/-! ### ENC and DEC -/

/-- R240 and R241: ENC on a stream whose elements all have codes packs their codes, concatenated in
order; everything but the codec's registers is unchanged. The empty stream is one of them (R243). -/
def Obligations.EncPacksConcatenatedCodes : Prop :=
  ∀ s : State, s.err = 0 → s.phase = .coded → (∀ e ∈ s.inp, HasCode s e) →
    Fits s (encodedBits s s.inp).length →
    ∃ t out, exec .enc s = .next t ∧
      t = { s with
        bitbuf := t.bitbuf, bitlen := (encodedBits s s.inp).length,
        pad := BitVec.ofNat 4 (8 - (encodedBits s s.inp).length % 8), inp := [],
        results := s.results ++ [.completed .done out] } ∧
      Holds t (encodedBits s s.inp) ∧ SameBitsFrom (encodedBits s s.inp).length s t ∧
      IsPacked out (encodedBits s s.inp)

/-- R297: ENC raises `AlphabetMismatch` at the first element that is at or above `ALPHA` or whose CODE
element is invalid, with the element and its index. -/
def Obligations.EncRaisesAlphabetMismatch : Prop :=
  ∀ (s : State) (pre post : List Byte) (e : Byte), s.err = 0 → s.phase = .coded →
    s.inp = pre ++ e :: post → (∀ x ∈ pre, HasCode s x) → Fits s (encodedBits s pre).length →
    (128 ≤ e.toNat ∨ s.readCode e.toNat = none) →
    ∃ t, exec .enc s = .next t ∧ Raised 0x06#8 true s t 7 e pre.length

/-- R260 to R268 and R270: with a tree, DEC of any non-empty stream whose payload fits completes, before
GEN and after: it holds the payload, outputs the symbols the tree walk emits, leaves the cursor where the
bits ran out, and never takes the defensive transition (`SKIP = 0`, R267). -/
def Obligations.DecWalksTreeWithoutFault : Prop :=
  ∀ s : State, s.err = 0 → (s.phase = .built ∨ s.phase = .coded) → IsTree s → s.inp ≠ [] →
    Fits s (unpackedBits s.inp).length →
    ∃ t, exec .dec s = .next t ∧
      t = { s with
        bitbuf := t.bitbuf, bitlen := (unpackedBits s.inp).length, pad := t.pad, padfb := t.padfb,
        cur := (treeWalk s s.root (unpackedBits s.inp)).2, skip := false, inp := [],
        results := s.results ++
          [.completed .done (treeWalk s s.root (unpackedBits s.inp)).1] } ∧
      Holds t (unpackedBits s.inp) ∧ SameBitsFrom (unpackedBits s.inp).length s t ∧
      PadNoted t s.inp ∧ isInternalOver s t.cur.toNat = true

/-- R269: where the payload is the concatenation of the codes of symbols of the session's table, DEC
outputs exactly those symbols and ends with the cursor at the root. -/
def Obligations.DecRecoversConcatenatedCodes : Prop :=
  ∀ (s : State) (x : List Byte), s.err = 0 → s.phase = .coded → LifecycleInv s → s.inp ≠ [] →
    (∀ e ∈ x, HasCode s e) → unpackedBits s.inp = encodedBits s x →
    Fits s (unpackedBits s.inp).length →
    ∃ t, exec .dec s = .next t ∧ t.results = s.results ++ [.completed .done x] ∧ t.cur = s.root ∧
      t.skip = false

/-- R246: in one session with `PHASE = CODED`, for every stream of symbols with valid codes whose payload
fits, DEC of the bytes that ENC outputs yields the stream, with `PADFB = 0`, `SKIP = 0` and
`CUR = ROOT`. -/
def Obligations.EncodeThenDecodeReturnsInput : Prop :=
  ∀ s : State, s.err = 0 → s.phase = .coded → LifecycleInv s → (∀ e ∈ s.inp, HasCode s e) →
    Fits s (encodedBits s s.inp).length →
    ∃ t out u, exec .enc s = .next t ∧ t.results = s.results ++ [.completed .done out] ∧
      exec .dec { t with inp := out } = .next u ∧
      u.results = t.results ++ [.completed .done s.inp] ∧ u.padfb = false ∧ u.skip = false ∧
      u.cur = s.root

/-! ### The whole machine -/

/-- The invariants of R49 hold at reset, as do the canonical form of the memories and the ranges. -/
def Obligations.InvariantsHoldAtReset : Prop :=
  LifecycleInv State.reset ∧ MemoryInv State.reset ∧ RangeInv State.reset

/-- R49: the invariants between commands. From every state that meets them, a step leads to a state that
meets them: TOTAL and NDIST count COUNT, the list is strictly ascending, the tree is a tree over it, and
the codes are the leaves' paths, pairwise prefix-free, each from its phase on. -/
def Obligations.StepKeepsLifecycleInvariant : Prop :=
  ∀ s t : State, LifecycleInv s → step s = .next t → LifecycleInv t

/-- R61: from a state that meets the invariants every index a command forms is in range and holds a
value: the step always leads to a next state, never to a stop of the model. -/
def Obligations.StepNeverStopsUnderInvariant : Prop :=
  ∀ s : State, LifecycleInv s → ∃ t, step s = .next t

/-- From every state whose memories are canonical (indexes strictly rising within R60's sizes, COUNT
listing no zero), a step leads to such a state. The list form is the model's choice (log entry 7); that it
also holds after a fault is the model's choice (log entry 4), as rule R305 leaves that state unspecified. -/
def Obligations.StepKeepsMemoriesCanonical : Prop :=
  ∀ s t : State, MemoryInv s → step s = .next t → MemoryInv t

/-- R290: codes 11 to 15 are never written to `ERR`. `PAD` stays 0 to 8: the values of R29 along a step
that ends with `ERR = 0`; along a step that raises a fault it is the model's choice (log entry 4), since
rule R305 and item U12 leave `PAD` unspecified there. -/
def Obligations.StepKeepsRegisterRanges : Prop :=
  ∀ s t : State, RangeInv s → step s = .next t → RangeInv t

/-- R66 and R304: along every step, a response other than a `done` command's carries no output. -/
def Obligations.StepKeepsOutputAllOrNothing : Prop :=
  ∀ s t : State, (∀ r ∈ s.results, outputOnlyWhenDone r = true) → step s = .next t →
    ∀ r ∈ t.results, outputOnlyWhenDone r = true

/-- R21: `PHASE` moves only forward, one value per successful SORT, BUILD, GEN, and returns to COUNT only
by CLR. -/
def Obligations.PhaseMovesForwardOnly : Prop :=
  ∀ (i : Instr) (s t : State), exec i s = .next t → t.err = 0 →
    t.phase = s.phase ∨ (i = .clr ∧ t.phase = .count) ∨
      (i = .sort ∧ s.phase = .count ∧ t.phase = .sorted) ∨
      (i = .build ∧ s.phase = .sorted ∧ t.phase = .built) ∨
      (i = .gen ∧ s.phase = .built ∧ t.phase = .coded)

/-- R21 and R78: once built the tree is immutable, and once generated the table is: until CLR no command
that ends without a fault writes NODE, `NNODE` or `ROOT` from BUILT on, or CODE in CODED. -/
def Obligations.TreeAndTableAreImmutable : Prop :=
  ∀ (i : Instr) (s t : State), exec i s = .next t → t.err = 0 → i ≠ .clr →
    (s.phase = .built ∨ s.phase = .coded →
      t.node = s.node ∧ t.nnode = s.nnode ∧ t.root = s.root) ∧
    (s.phase = .coded → t.code = s.code)

/-- R62: a command that ends without a fault leaves every memory it is not marked to write unchanged. -/
def Obligations.CommandsWriteOnlyTheirMemories : Prop :=
  ∀ (i : Instr) (s t : State), exec i s = .next t → t.err = 0 →
    (i ≠ .clr → i ≠ .hist → t.count = s.count) ∧
    (i ≠ .sort → t.slist = s.slist) ∧
    (i ≠ .build → t.node = s.node) ∧
    (i ≠ .clr → i ≠ .build → t.srcq = s.srcq ∧ t.tgtq = s.tgtq) ∧
    (i ≠ .clr → i ≠ .gen → t.code = s.code) ∧
    (i ≠ .enc → i ≠ .pack → i ≠ .unpack → i ≠ .dec → t.bitbuf = s.bitbuf)

/-- R20, the "written by" column: a command that ends without a fault leaves every register and flag that
does not name it unchanged. `BITCAP` is configuration: no command writes it. -/
def Obligations.CommandsWriteOnlyTheirRegisters : Prop :=
  ∀ (i : Instr) (s t : State), exec i s = .next t → t.err = 0 →
    (i ≠ .clr → t.err = s.err ∧ t.errcmd = s.errcmd ∧ t.errval = s.errval ∧ t.errpos = s.errpos) ∧
    (i ≠ .clr → i ≠ .sort → i ≠ .build → i ≠ .gen → t.phase = s.phase) ∧
    (i ≠ .clr → i ≠ .sort → t.synth = s.synth ∧ t.nleaf = s.nleaf) ∧
    (i ≠ .clr → i ≠ .hist → t.total = s.total ∧ t.ndist = s.ndist) ∧
    (i ≠ .clr → i ≠ .build → t.nnode = s.nnode ∧ t.root = s.root) ∧
    (i ≠ .clr → i ≠ .unpack → i ≠ .dec → t.padfb = s.padfb) ∧
    (i ≠ .clr → i ≠ .dec → t.skip = s.skip ∧ t.cur = s.cur) ∧
    (i ≠ .clr → i ≠ .enc → i ≠ .pack → i ≠ .unpack → i ≠ .dec →
      t.bitlen = s.bitlen ∧ t.pad = s.pad) ∧
    t.bitcap = s.bitcap ∧ t.samples = s.samples ∧ t.host = s.host
end

