-- ==== Sys2Proof/Laws/Memory.lean ====
section
/-! SUPPORT. The laws of the memories: read after write, other elements alone, and the canonical form
kept by every operation. -/

namespace Sys2Proof.Laws

open Sys2Proof.Machine

variable {α : Type}

/-! ### Reading what was written, and everything else unchanged -/

@[simp] theorem read_nil (i : Nat) : Memory.read ([] : Memory α) i = none := rfl

theorem read_cons (k : Nat) (x : α) (m : Memory α) (i : Nat) :
    Memory.read ((k, x) :: m) i = if k = i then some x else Memory.read m i := rfl

@[simp] theorem read_write_same (m : Memory α) (i : Nat) (v : α) :
    Memory.read (Memory.write m i v) i = some v := by
  induction m with
  | nil => simp [Memory.write, Memory.read]
  | cons c m ih =>
    obtain ⟨k, x⟩ := c
    simp only [Memory.write]
    split
    · simp [Memory.read]
    split
    · simp [Memory.read]
    · have : k ≠ i := by omega
      simp [Memory.read, this, ih]

theorem read_write_other (m : Memory α) {i j : Nat} (v : α) (h : j ≠ i) :
    Memory.read (Memory.write m i v) j = Memory.read m j := by
  induction m with
  | nil => simp [Memory.write, Memory.read, h.symm]
  | cons c m ih =>
    obtain ⟨k, x⟩ := c
    simp only [Memory.write]
    split
    · simp [Memory.read, h.symm]
    split
    · subst_vars; simp [Memory.read, h.symm]
    · simp [Memory.read, ih]

theorem read_write (m : Memory α) (i j : Nat) (v : α) :
    Memory.read (Memory.write m i v) j = if j = i then some v else Memory.read m j := by
  split
  · subst_vars; simp
  · exact read_write_other m v ‹_›

theorem read_erase (m : Memory α) (i j : Nat) :
    Memory.read (Memory.erase m i) j = if j = i then none else Memory.read m j := by
  induction m with
  | nil => simp [Memory.erase]
  | cons c m ih =>
    obtain ⟨k, x⟩ := c
    simp only [Memory.erase] at ih
    by_cases hk : k = i
    · subst hk
      by_cases hj : j = k
      · subst hj; simp [Memory.erase, ih]
      · simp [Memory.erase, Memory.read, ih, hj, Ne.symm hj]
    · by_cases hj : j = i
      · subst hj; simp [Memory.erase, Memory.read, ih, hk]
      · simp [Memory.erase, Memory.read, ih, hk, hj]

/-- A memory with a default reads back, through the default, what was written. -/
theorem read_writeOver [DecidableEq α] (d : α) (m : Memory α) (i j : Nat) (v : α) :
    (Memory.read (Memory.writeOver d m i v) j).getD d =
      if j = i then v else (Memory.read m j).getD d := by
  unfold Memory.writeOver
  split
  · subst_vars; rw [read_erase]; split <;> simp
  · rw [read_write]; split <;> simp

/-- Consecutive writes: element `i + k` is the `k`-th written, every other is unchanged. -/
theorem read_writeList (m : Memory α) (i : Nat) (xs : List α) (j : Nat) :
    Memory.read (Memory.writeList m i xs) j =
      if i ≤ j ∧ j < i + xs.length then xs[j - i]? else Memory.read m j := by
  induction xs generalizing m i with
  | nil => simp [Memory.writeList]
  | cons x xs ih =>
    rw [Memory.writeList, ih, read_write]
    simp only [List.length_cons]
    by_cases hj : j = i
    · subst hj; simp
    · by_cases hlt : i + 1 ≤ j ∧ j < i + 1 + xs.length
      · have h2 : i ≤ j ∧ j < i + (xs.length + 1) := by omega
        have h3 : j - i = (j - (i + 1)) + 1 := by omega
        simp [hlt, h2, h3]
      · have h2 : ¬(i ≤ j ∧ j < i + (xs.length + 1)) := by omega
        rw [if_neg hlt, if_neg hj, if_neg h2]

/-! ### The canonical form -/

theorem rising_iff (m : Memory α) :
    Memory.rising m = true ↔ (m.map Prod.fst).Pairwise (· < ·) := by simp [Memory.rising]

theorem mem_write {m : Memory α} {i : Nat} {v : α} {c : Nat × α} (h : c ∈ Memory.write m i v) :
    c = (i, v) ∨ c ∈ m := by
  induction m with
  | nil => simpa [Memory.write] using h
  | cons d m ih =>
    obtain ⟨k, x⟩ := d
    simp only [Memory.write] at h
    split at h
    · simpa using h
    split at h
    · simp only [List.mem_cons] at h ⊢; tauto
    · simp only [List.mem_cons] at h ⊢
      rcases h with h | h
      · tauto
      · rcases ih h with h | h <;> tauto

theorem rising_write {m : Memory α} (i : Nat) (v : α) (h : Memory.rising m = true) :
    Memory.rising (Memory.write m i v) = true := by
  rw [rising_iff] at h ⊢
  induction m with
  | nil => simp [Memory.write]
  | cons d m ih =>
    obtain ⟨k, x⟩ := d
    simp only [List.map_cons, List.pairwise_cons, List.mem_map] at h
    simp only [Memory.write]
    split
    · next hlt =>
      simp only [List.map_cons, List.pairwise_cons, List.mem_cons, List.mem_map]
      refine ⟨?_, h⟩
      rintro a (rfl | ha)
      · exact hlt
      · exact lt_trans hlt (h.1 a ha)
    split
    · subst_vars; simpa [List.pairwise_cons] using h
    · simp only [List.map_cons, List.pairwise_cons, List.mem_map]
      refine ⟨?_, ih h.2⟩
      rintro a ⟨c, hc, rfl⟩
      rcases mem_write hc with rfl | hc
      · show k < i; omega
      · exact h.1 _ ⟨c, hc, rfl⟩

theorem rising_erase {m : Memory α} (i : Nat) (h : Memory.rising m = true) :
    Memory.rising (Memory.erase m i) = true := by
  rw [rising_iff] at h ⊢
  exact h.sublist (List.Sublist.map _ List.filter_sublist)

/-- The canonical form in a memory of a given size, unfolded once. -/
theorem wf_iff (size : Option Nat) (m : Memory α) :
    Memory.wf size m = true ↔
      Memory.rising m = true ∧ ∀ c ∈ m, ∀ n, size = some n → c.1 < n := by
  cases size <;> simp [Memory.wf]

@[simp] theorem wf_nil (size : Option Nat) : Memory.wf size ([] : Memory α) = true := by
  simp [wf_iff, Memory.rising]

theorem wf_write {size : Option Nat} {m : Memory α} {i : Nat} (v : α)
    (h : Memory.wf size m = true) (hi : ∀ n, size = some n → i < n) :
    Memory.wf size (Memory.write m i v) = true := by
  rw [wf_iff] at h ⊢
  refine ⟨rising_write i v h.1, fun c hc n hn => ?_⟩
  rcases mem_write hc with rfl | hc
  · exact hi n hn
  · exact h.2 c hc n hn

theorem wf_erase {size : Option Nat} {m : Memory α} (i : Nat) (h : Memory.wf size m = true) :
    Memory.wf size (Memory.erase m i) = true := by
  rw [wf_iff] at h ⊢
  exact ⟨rising_erase i h.1, fun c hc => h.2 c (List.mem_of_mem_filter hc)⟩

theorem wf_writeOver [DecidableEq α] (d : α) {size : Option Nat} {m : Memory α} {i : Nat} (v : α)
    (h : Memory.wf size m = true) (hi : ∀ n, size = some n → i < n) :
    Memory.wf size (Memory.writeOver d m i v) = true := by
  unfold Memory.writeOver
  split
  · exact wf_erase i h
  · exact wf_write v h hi

/-- A memory with a default never lists the default. -/
theorem writeOver_lists_no_default [DecidableEq α] (d : α) {m : Memory α} (i : Nat) (v : α)
    (h : ∀ c ∈ m, c.2 ≠ d) : ∀ c ∈ Memory.writeOver d m i v, c.2 ≠ d := by
  intro c hc
  unfold Memory.writeOver at hc
  split at hc
  · exact h c (List.mem_of_mem_filter hc)
  · next hv =>
    rcases mem_write hc with rfl | hc
    · exact hv
    · exact h c hc

theorem wf_writeList {size : Option Nat} {m : Memory α} {i : Nat} (xs : List α)
    (h : Memory.wf size m = true) (hi : ∀ n, size = some n → i + xs.length ≤ n) :
    Memory.wf size (Memory.writeList m i xs) = true := by
  induction xs generalizing m i with
  | nil => exact h
  | cons x xs ih =>
    simp only [List.length_cons] at hi
    refine ih (wf_write x h fun n hn => ?_) fun n hn => ?_
    · have := hi n hn; omega
    · have := hi n hn; omega

/-- Two canonical memories that read alike are the same data. -/
theorem eq_of_read_eq {m m' : Memory α} (h : Memory.rising m = true) (h' : Memory.rising m' = true)
    (hr : ∀ i, Memory.read m i = Memory.read m' i) : m = m' := by
  rw [rising_iff] at h h'
  have none_below : ∀ {n : Memory α} {i : Nat}, (∀ a ∈ n.map Prod.fst, i < a) →
      Memory.read n i = none := by
    intro n i hn
    induction n with
    | nil => rfl
    | cons c n ih =>
      obtain ⟨k, x⟩ := c
      simp only [List.map_cons, List.mem_cons, forall_eq_or_imp] at hn
      have : k ≠ i := by omega
      simp [Memory.read, this, ih hn.2]
  induction m generalizing m' with
  | nil =>
    cases m' with
    | nil => rfl
    | cons c n => obtain ⟨k, x⟩ := c; have := hr k; simp [Memory.read] at this
  | cons c m ih =>
    obtain ⟨k, x⟩ := c
    simp only [List.map_cons, List.pairwise_cons] at h
    cases m' with
    | nil => have := hr k; simp [Memory.read] at this
    | cons d n =>
      obtain ⟨l, y⟩ := d
      simp only [List.map_cons, List.pairwise_cons] at h'
      rcases lt_trichotomy k l with hkl | rfl | hkl
      · have := hr k
        rw [none_below (n := (l, y) :: n) (i := k)] at this
        · simp [Memory.read] at this
        · simp only [List.map_cons, List.mem_cons, forall_eq_or_imp]
          exact ⟨hkl, fun a ha => lt_trans hkl (h'.1 a ha)⟩
      · have hx := hr k
        simp only [Memory.read, if_true, Option.some.injEq] at hx
        subst hx
        congr 1
        refine ih h.2 h'.2 fun i => ?_
        by_cases hi : k = i
        · subst hi; rw [none_below h.1, none_below h'.1]
        · simpa [Memory.read, hi] using hr i
      · have := hr l
        rw [none_below (n := (k, x) :: m) (i := l)] at this
        · simp [Memory.read] at this
        · simp only [List.map_cons, List.mem_cons, forall_eq_or_imp]
          exact ⟨hkl, fun a ha => lt_trans hkl (h.1 a ha)⟩

end Sys2Proof.Laws
end

