-- ==== Sys2Proof/Laws/State.lean ====
section
/-! SUPPORT. One lemma per field per named update of State, each true by unfolding the update, so that no
later proof unfolds a record update. -/

namespace Sys2Proof.Laws

open Sys2Proof.Machine

/-! ### `reply`: the end of a command writes only the host's results -/

@[simp] theorem reply_phase (o : Completion) (out : List Byte) (s : State) :
    (reply o out s).phase = s.phase := rfl
@[simp] theorem reply_err (o : Completion) (out : List Byte) (s : State) :
    (reply o out s).err = s.err := rfl
@[simp] theorem reply_errcmd (o : Completion) (out : List Byte) (s : State) :
    (reply o out s).errcmd = s.errcmd := rfl
@[simp] theorem reply_errval (o : Completion) (out : List Byte) (s : State) :
    (reply o out s).errval = s.errval := rfl
@[simp] theorem reply_errpos (o : Completion) (out : List Byte) (s : State) :
    (reply o out s).errpos = s.errpos := rfl
@[simp] theorem reply_synth (o : Completion) (out : List Byte) (s : State) :
    (reply o out s).synth = s.synth := rfl
@[simp] theorem reply_padfb (o : Completion) (out : List Byte) (s : State) :
    (reply o out s).padfb = s.padfb := rfl
@[simp] theorem reply_skip (o : Completion) (out : List Byte) (s : State) :
    (reply o out s).skip = s.skip := rfl
@[simp] theorem reply_total (o : Completion) (out : List Byte) (s : State) :
    (reply o out s).total = s.total := rfl
@[simp] theorem reply_ndist (o : Completion) (out : List Byte) (s : State) :
    (reply o out s).ndist = s.ndist := rfl
@[simp] theorem reply_nleaf (o : Completion) (out : List Byte) (s : State) :
    (reply o out s).nleaf = s.nleaf := rfl
@[simp] theorem reply_nnode (o : Completion) (out : List Byte) (s : State) :
    (reply o out s).nnode = s.nnode := rfl
@[simp] theorem reply_root (o : Completion) (out : List Byte) (s : State) :
    (reply o out s).root = s.root := rfl
@[simp] theorem reply_cur (o : Completion) (out : List Byte) (s : State) :
    (reply o out s).cur = s.cur := rfl
@[simp] theorem reply_bitlen (o : Completion) (out : List Byte) (s : State) :
    (reply o out s).bitlen = s.bitlen := rfl
@[simp] theorem reply_pad (o : Completion) (out : List Byte) (s : State) :
    (reply o out s).pad = s.pad := rfl
@[simp] theorem reply_count (o : Completion) (out : List Byte) (s : State) :
    (reply o out s).count = s.count := rfl
@[simp] theorem reply_slist (o : Completion) (out : List Byte) (s : State) :
    (reply o out s).slist = s.slist := rfl
@[simp] theorem reply_node (o : Completion) (out : List Byte) (s : State) :
    (reply o out s).node = s.node := rfl
@[simp] theorem reply_srcq (o : Completion) (out : List Byte) (s : State) :
    (reply o out s).srcq = s.srcq := rfl
@[simp] theorem reply_tgtq (o : Completion) (out : List Byte) (s : State) :
    (reply o out s).tgtq = s.tgtq := rfl
@[simp] theorem reply_code (o : Completion) (out : List Byte) (s : State) :
    (reply o out s).code = s.code := rfl
@[simp] theorem reply_bitbuf (o : Completion) (out : List Byte) (s : State) :
    (reply o out s).bitbuf = s.bitbuf := rfl
@[simp] theorem reply_bitcap (o : Completion) (out : List Byte) (s : State) :
    (reply o out s).bitcap = s.bitcap := rfl
@[simp] theorem reply_samples (o : Completion) (out : List Byte) (s : State) :
    (reply o out s).samples = s.samples := rfl
@[simp] theorem reply_host (o : Completion) (out : List Byte) (s : State) :
    (reply o out s).host = s.host := rfl
@[simp] theorem reply_inp (o : Completion) (out : List Byte) (s : State) :
    (reply o out s).inp = s.inp := rfl
@[simp] theorem reply_results (o : Completion) (out : List Byte) (s : State) :
    (reply o out s).results = s.results ++ [.completed o out] := rfl

/-! ### `consumeIn`: consuming IN writes only IN -/

@[simp] theorem consumeIn_phase (reads : Bool) (s : State) :
    (consumeIn reads s).phase = s.phase := by cases reads <;> rfl
@[simp] theorem consumeIn_err (reads : Bool) (s : State) :
    (consumeIn reads s).err = s.err := by cases reads <;> rfl
@[simp] theorem consumeIn_errcmd (reads : Bool) (s : State) :
    (consumeIn reads s).errcmd = s.errcmd := by cases reads <;> rfl
@[simp] theorem consumeIn_errval (reads : Bool) (s : State) :
    (consumeIn reads s).errval = s.errval := by cases reads <;> rfl
@[simp] theorem consumeIn_errpos (reads : Bool) (s : State) :
    (consumeIn reads s).errpos = s.errpos := by cases reads <;> rfl
@[simp] theorem consumeIn_synth (reads : Bool) (s : State) :
    (consumeIn reads s).synth = s.synth := by cases reads <;> rfl
@[simp] theorem consumeIn_padfb (reads : Bool) (s : State) :
    (consumeIn reads s).padfb = s.padfb := by cases reads <;> rfl
@[simp] theorem consumeIn_skip (reads : Bool) (s : State) :
    (consumeIn reads s).skip = s.skip := by cases reads <;> rfl
@[simp] theorem consumeIn_total (reads : Bool) (s : State) :
    (consumeIn reads s).total = s.total := by cases reads <;> rfl
@[simp] theorem consumeIn_ndist (reads : Bool) (s : State) :
    (consumeIn reads s).ndist = s.ndist := by cases reads <;> rfl
@[simp] theorem consumeIn_nleaf (reads : Bool) (s : State) :
    (consumeIn reads s).nleaf = s.nleaf := by cases reads <;> rfl
@[simp] theorem consumeIn_nnode (reads : Bool) (s : State) :
    (consumeIn reads s).nnode = s.nnode := by cases reads <;> rfl
@[simp] theorem consumeIn_root (reads : Bool) (s : State) :
    (consumeIn reads s).root = s.root := by cases reads <;> rfl
@[simp] theorem consumeIn_cur (reads : Bool) (s : State) :
    (consumeIn reads s).cur = s.cur := by cases reads <;> rfl
@[simp] theorem consumeIn_bitlen (reads : Bool) (s : State) :
    (consumeIn reads s).bitlen = s.bitlen := by cases reads <;> rfl
@[simp] theorem consumeIn_pad (reads : Bool) (s : State) :
    (consumeIn reads s).pad = s.pad := by cases reads <;> rfl
@[simp] theorem consumeIn_count (reads : Bool) (s : State) :
    (consumeIn reads s).count = s.count := by cases reads <;> rfl
@[simp] theorem consumeIn_slist (reads : Bool) (s : State) :
    (consumeIn reads s).slist = s.slist := by cases reads <;> rfl
@[simp] theorem consumeIn_node (reads : Bool) (s : State) :
    (consumeIn reads s).node = s.node := by cases reads <;> rfl
@[simp] theorem consumeIn_srcq (reads : Bool) (s : State) :
    (consumeIn reads s).srcq = s.srcq := by cases reads <;> rfl
@[simp] theorem consumeIn_tgtq (reads : Bool) (s : State) :
    (consumeIn reads s).tgtq = s.tgtq := by cases reads <;> rfl
@[simp] theorem consumeIn_code (reads : Bool) (s : State) :
    (consumeIn reads s).code = s.code := by cases reads <;> rfl
@[simp] theorem consumeIn_bitbuf (reads : Bool) (s : State) :
    (consumeIn reads s).bitbuf = s.bitbuf := by cases reads <;> rfl
@[simp] theorem consumeIn_bitcap (reads : Bool) (s : State) :
    (consumeIn reads s).bitcap = s.bitcap := by cases reads <;> rfl
@[simp] theorem consumeIn_samples (reads : Bool) (s : State) :
    (consumeIn reads s).samples = s.samples := by cases reads <;> rfl
@[simp] theorem consumeIn_host (reads : Bool) (s : State) :
    (consumeIn reads s).host = s.host := by cases reads <;> rfl
@[simp] theorem consumeIn_inp (reads : Bool) (s : State) :
    (consumeIn reads s).inp = if reads then [] else s.inp := by cases reads <;> rfl
@[simp] theorem consumeIn_results (reads : Bool) (s : State) :
    (consumeIn reads s).results = s.results := by cases reads <;> rfl

/-! ### `takeFault`: fault entry writes the four error registers (rule R303) -/

@[simp] theorem takeFault_phase (w : Byte) (c : Cause) (v : Byte) (p : Nat) (s : State) :
    (takeFault w c v p s).phase = s.phase := rfl
@[simp] theorem takeFault_err (w : Byte) (c : Cause) (v : Byte) (p : Nat) (s : State) :
    (takeFault w c v p s).err = c.code := rfl
@[simp] theorem takeFault_errcmd (w : Byte) (c : Cause) (v : Byte) (p : Nat) (s : State) :
    (takeFault w c v p s).errcmd = w := rfl
@[simp] theorem takeFault_errval (w : Byte) (c : Cause) (v : Byte) (p : Nat) (s : State) :
    (takeFault w c v p s).errval = v := rfl
@[simp] theorem takeFault_errpos (w : Byte) (c : Cause) (v : Byte) (p : Nat) (s : State) :
    (takeFault w c v p s).errpos = BitVec.ofNat 32 p := rfl
@[simp] theorem takeFault_synth (w : Byte) (c : Cause) (v : Byte) (p : Nat) (s : State) :
    (takeFault w c v p s).synth = s.synth := rfl
@[simp] theorem takeFault_padfb (w : Byte) (c : Cause) (v : Byte) (p : Nat) (s : State) :
    (takeFault w c v p s).padfb = s.padfb := rfl
@[simp] theorem takeFault_skip (w : Byte) (c : Cause) (v : Byte) (p : Nat) (s : State) :
    (takeFault w c v p s).skip = s.skip := rfl
@[simp] theorem takeFault_total (w : Byte) (c : Cause) (v : Byte) (p : Nat) (s : State) :
    (takeFault w c v p s).total = s.total := rfl
@[simp] theorem takeFault_ndist (w : Byte) (c : Cause) (v : Byte) (p : Nat) (s : State) :
    (takeFault w c v p s).ndist = s.ndist := rfl
@[simp] theorem takeFault_nleaf (w : Byte) (c : Cause) (v : Byte) (p : Nat) (s : State) :
    (takeFault w c v p s).nleaf = s.nleaf := rfl
@[simp] theorem takeFault_nnode (w : Byte) (c : Cause) (v : Byte) (p : Nat) (s : State) :
    (takeFault w c v p s).nnode = s.nnode := rfl
@[simp] theorem takeFault_root (w : Byte) (c : Cause) (v : Byte) (p : Nat) (s : State) :
    (takeFault w c v p s).root = s.root := rfl
@[simp] theorem takeFault_cur (w : Byte) (c : Cause) (v : Byte) (p : Nat) (s : State) :
    (takeFault w c v p s).cur = s.cur := rfl
@[simp] theorem takeFault_bitlen (w : Byte) (c : Cause) (v : Byte) (p : Nat) (s : State) :
    (takeFault w c v p s).bitlen = s.bitlen := rfl
@[simp] theorem takeFault_pad (w : Byte) (c : Cause) (v : Byte) (p : Nat) (s : State) :
    (takeFault w c v p s).pad = s.pad := rfl
@[simp] theorem takeFault_count (w : Byte) (c : Cause) (v : Byte) (p : Nat) (s : State) :
    (takeFault w c v p s).count = s.count := rfl
@[simp] theorem takeFault_slist (w : Byte) (c : Cause) (v : Byte) (p : Nat) (s : State) :
    (takeFault w c v p s).slist = s.slist := rfl
@[simp] theorem takeFault_node (w : Byte) (c : Cause) (v : Byte) (p : Nat) (s : State) :
    (takeFault w c v p s).node = s.node := rfl
@[simp] theorem takeFault_srcq (w : Byte) (c : Cause) (v : Byte) (p : Nat) (s : State) :
    (takeFault w c v p s).srcq = s.srcq := rfl
@[simp] theorem takeFault_tgtq (w : Byte) (c : Cause) (v : Byte) (p : Nat) (s : State) :
    (takeFault w c v p s).tgtq = s.tgtq := rfl
@[simp] theorem takeFault_code (w : Byte) (c : Cause) (v : Byte) (p : Nat) (s : State) :
    (takeFault w c v p s).code = s.code := rfl
@[simp] theorem takeFault_bitbuf (w : Byte) (c : Cause) (v : Byte) (p : Nat) (s : State) :
    (takeFault w c v p s).bitbuf = s.bitbuf := rfl
@[simp] theorem takeFault_bitcap (w : Byte) (c : Cause) (v : Byte) (p : Nat) (s : State) :
    (takeFault w c v p s).bitcap = s.bitcap := rfl
@[simp] theorem takeFault_samples (w : Byte) (c : Cause) (v : Byte) (p : Nat) (s : State) :
    (takeFault w c v p s).samples = s.samples := rfl
@[simp] theorem takeFault_host (w : Byte) (c : Cause) (v : Byte) (p : Nat) (s : State) :
    (takeFault w c v p s).host = s.host := rfl
@[simp] theorem takeFault_inp (w : Byte) (c : Cause) (v : Byte) (p : Nat) (s : State) :
    (takeFault w c v p s).inp = s.inp := rfl
@[simp] theorem takeFault_results (w : Byte) (c : Cause) (v : Byte) (p : Nat) (s : State) :
    (takeFault w c v p s).results = s.results ++ [.completed .fault []] := rfl

/-! ### `refuse`: a refusal changes no state of the engine (rule R307) -/

@[simp] theorem refuse_phase (s : State) : (refuse s).phase = s.phase := rfl
@[simp] theorem refuse_err (s : State) : (refuse s).err = s.err := rfl
@[simp] theorem refuse_errcmd (s : State) : (refuse s).errcmd = s.errcmd := rfl
@[simp] theorem refuse_errval (s : State) : (refuse s).errval = s.errval := rfl
@[simp] theorem refuse_errpos (s : State) : (refuse s).errpos = s.errpos := rfl
@[simp] theorem refuse_synth (s : State) : (refuse s).synth = s.synth := rfl
@[simp] theorem refuse_padfb (s : State) : (refuse s).padfb = s.padfb := rfl
@[simp] theorem refuse_skip (s : State) : (refuse s).skip = s.skip := rfl
@[simp] theorem refuse_total (s : State) : (refuse s).total = s.total := rfl
@[simp] theorem refuse_ndist (s : State) : (refuse s).ndist = s.ndist := rfl
@[simp] theorem refuse_nleaf (s : State) : (refuse s).nleaf = s.nleaf := rfl
@[simp] theorem refuse_nnode (s : State) : (refuse s).nnode = s.nnode := rfl
@[simp] theorem refuse_root (s : State) : (refuse s).root = s.root := rfl
@[simp] theorem refuse_cur (s : State) : (refuse s).cur = s.cur := rfl
@[simp] theorem refuse_bitlen (s : State) : (refuse s).bitlen = s.bitlen := rfl
@[simp] theorem refuse_pad (s : State) : (refuse s).pad = s.pad := rfl
@[simp] theorem refuse_count (s : State) : (refuse s).count = s.count := rfl
@[simp] theorem refuse_slist (s : State) : (refuse s).slist = s.slist := rfl
@[simp] theorem refuse_node (s : State) : (refuse s).node = s.node := rfl
@[simp] theorem refuse_srcq (s : State) : (refuse s).srcq = s.srcq := rfl
@[simp] theorem refuse_tgtq (s : State) : (refuse s).tgtq = s.tgtq := rfl
@[simp] theorem refuse_code (s : State) : (refuse s).code = s.code := rfl
@[simp] theorem refuse_bitbuf (s : State) : (refuse s).bitbuf = s.bitbuf := rfl
@[simp] theorem refuse_bitcap (s : State) : (refuse s).bitcap = s.bitcap := rfl
@[simp] theorem refuse_samples (s : State) : (refuse s).samples = s.samples := rfl
@[simp] theorem refuse_host (s : State) : (refuse s).host = s.host := rfl
@[simp] theorem refuse_inp (s : State) : (refuse s).inp = s.inp := rfl
@[simp] theorem refuse_results (s : State) :
    (refuse s).results = s.results ++ [.completed .refused []] := rfl

/-! ### `clearSession`: CLR's writes (rules R120 and R121) -/

@[simp] theorem clearSession_phase (s : State) : (clearSession s).phase = .count := rfl
@[simp] theorem clearSession_err (s : State) : (clearSession s).err = 0 := rfl
@[simp] theorem clearSession_errcmd (s : State) : (clearSession s).errcmd = 0 := rfl
@[simp] theorem clearSession_errval (s : State) : (clearSession s).errval = 0 := rfl
@[simp] theorem clearSession_errpos (s : State) : (clearSession s).errpos = 0 := rfl
@[simp] theorem clearSession_synth (s : State) : (clearSession s).synth = false := rfl
@[simp] theorem clearSession_padfb (s : State) : (clearSession s).padfb = false := rfl
@[simp] theorem clearSession_skip (s : State) : (clearSession s).skip = false := rfl
@[simp] theorem clearSession_total (s : State) : (clearSession s).total = 0 := rfl
@[simp] theorem clearSession_ndist (s : State) : (clearSession s).ndist = 0 := rfl
@[simp] theorem clearSession_nleaf (s : State) : (clearSession s).nleaf = 0 := rfl
@[simp] theorem clearSession_nnode (s : State) : (clearSession s).nnode = 0 := rfl
@[simp] theorem clearSession_root (s : State) : (clearSession s).root = Config.nil := rfl
@[simp] theorem clearSession_cur (s : State) : (clearSession s).cur = Config.nil := rfl
@[simp] theorem clearSession_bitlen (s : State) : (clearSession s).bitlen = 0 := rfl
@[simp] theorem clearSession_pad (s : State) : (clearSession s).pad = 0 := rfl
@[simp] theorem clearSession_count (s : State) : (clearSession s).count = [] := rfl
@[simp] theorem clearSession_slist (s : State) : (clearSession s).slist = s.slist := rfl
@[simp] theorem clearSession_node (s : State) : (clearSession s).node = s.node := rfl
@[simp] theorem clearSession_srcq (s : State) : (clearSession s).srcq = [] := rfl
@[simp] theorem clearSession_tgtq (s : State) : (clearSession s).tgtq = [] := rfl
@[simp] theorem clearSession_code (s : State) : (clearSession s).code = [] := rfl
@[simp] theorem clearSession_bitbuf (s : State) : (clearSession s).bitbuf = s.bitbuf := rfl
@[simp] theorem clearSession_bitcap (s : State) : (clearSession s).bitcap = s.bitcap := rfl
@[simp] theorem clearSession_samples (s : State) : (clearSession s).samples = s.samples := rfl
@[simp] theorem clearSession_host (s : State) : (clearSession s).host = s.host := rfl
@[simp] theorem clearSession_inp (s : State) : (clearSession s).inp = s.inp := rfl
@[simp] theorem clearSession_results (s : State) : (clearSession s).results = s.results := rfl

/-! ### `countSymbol`: a histogram step's writes (rule R133) -/

@[simp] theorem countSymbol_phase (sym : Nat) (s : State) :
    (countSymbol sym s).phase = s.phase := rfl
@[simp] theorem countSymbol_err (sym : Nat) (s : State) : (countSymbol sym s).err = s.err := rfl
@[simp] theorem countSymbol_errcmd (sym : Nat) (s : State) :
    (countSymbol sym s).errcmd = s.errcmd := rfl
@[simp] theorem countSymbol_errval (sym : Nat) (s : State) :
    (countSymbol sym s).errval = s.errval := rfl
@[simp] theorem countSymbol_errpos (sym : Nat) (s : State) :
    (countSymbol sym s).errpos = s.errpos := rfl
@[simp] theorem countSymbol_synth (sym : Nat) (s : State) :
    (countSymbol sym s).synth = s.synth := rfl
@[simp] theorem countSymbol_padfb (sym : Nat) (s : State) :
    (countSymbol sym s).padfb = s.padfb := rfl
@[simp] theorem countSymbol_skip (sym : Nat) (s : State) : (countSymbol sym s).skip = s.skip := rfl
@[simp] theorem countSymbol_total (sym : Nat) (s : State) :
    (countSymbol sym s).total = s.total + 1 := rfl
@[simp] theorem countSymbol_ndist (sym : Nat) (s : State) :
    (countSymbol sym s).ndist = if s.readCount sym = 0 then s.ndist + 1 else s.ndist := rfl
@[simp] theorem countSymbol_nleaf (sym : Nat) (s : State) :
    (countSymbol sym s).nleaf = s.nleaf := rfl
@[simp] theorem countSymbol_nnode (sym : Nat) (s : State) :
    (countSymbol sym s).nnode = s.nnode := rfl
@[simp] theorem countSymbol_root (sym : Nat) (s : State) : (countSymbol sym s).root = s.root := rfl
@[simp] theorem countSymbol_cur (sym : Nat) (s : State) : (countSymbol sym s).cur = s.cur := rfl
@[simp] theorem countSymbol_bitlen (sym : Nat) (s : State) :
    (countSymbol sym s).bitlen = s.bitlen := rfl
@[simp] theorem countSymbol_pad (sym : Nat) (s : State) : (countSymbol sym s).pad = s.pad := rfl
@[simp] theorem countSymbol_count (sym : Nat) (s : State) :
    (countSymbol sym s).count = Memory.writeOver 0 s.count sym (s.readCount sym + 1) := rfl
@[simp] theorem countSymbol_slist (sym : Nat) (s : State) :
    (countSymbol sym s).slist = s.slist := rfl
@[simp] theorem countSymbol_node (sym : Nat) (s : State) : (countSymbol sym s).node = s.node := rfl
@[simp] theorem countSymbol_srcq (sym : Nat) (s : State) : (countSymbol sym s).srcq = s.srcq := rfl
@[simp] theorem countSymbol_tgtq (sym : Nat) (s : State) : (countSymbol sym s).tgtq = s.tgtq := rfl
@[simp] theorem countSymbol_code (sym : Nat) (s : State) : (countSymbol sym s).code = s.code := rfl
@[simp] theorem countSymbol_bitbuf (sym : Nat) (s : State) :
    (countSymbol sym s).bitbuf = s.bitbuf := rfl
@[simp] theorem countSymbol_bitcap (sym : Nat) (s : State) :
    (countSymbol sym s).bitcap = s.bitcap := rfl
@[simp] theorem countSymbol_samples (sym : Nat) (s : State) :
    (countSymbol sym s).samples = s.samples := rfl
@[simp] theorem countSymbol_host (sym : Nat) (s : State) : (countSymbol sym s).host = s.host := rfl
@[simp] theorem countSymbol_inp (sym : Nat) (s : State) : (countSymbol sym s).inp = s.inp := rfl
@[simp] theorem countSymbol_results (sym : Nat) (s : State) :
    (countSymbol sym s).results = s.results := rfl

/-! ### `loadLeaves`: BUILD's first two steps (rules R162 and R163) -/

@[simp] theorem loadLeaves_phase (es : List Entry) (s : State) :
    (loadLeaves es s).phase = s.phase := rfl
@[simp] theorem loadLeaves_err (es : List Entry) (s : State) : (loadLeaves es s).err = s.err := rfl
@[simp] theorem loadLeaves_errcmd (es : List Entry) (s : State) :
    (loadLeaves es s).errcmd = s.errcmd := rfl
@[simp] theorem loadLeaves_errval (es : List Entry) (s : State) :
    (loadLeaves es s).errval = s.errval := rfl
@[simp] theorem loadLeaves_errpos (es : List Entry) (s : State) :
    (loadLeaves es s).errpos = s.errpos := rfl
@[simp] theorem loadLeaves_synth (es : List Entry) (s : State) :
    (loadLeaves es s).synth = s.synth := rfl
@[simp] theorem loadLeaves_padfb (es : List Entry) (s : State) :
    (loadLeaves es s).padfb = s.padfb := rfl
@[simp] theorem loadLeaves_skip (es : List Entry) (s : State) :
    (loadLeaves es s).skip = s.skip := rfl
@[simp] theorem loadLeaves_total (es : List Entry) (s : State) :
    (loadLeaves es s).total = s.total := rfl
@[simp] theorem loadLeaves_ndist (es : List Entry) (s : State) :
    (loadLeaves es s).ndist = s.ndist := rfl
@[simp] theorem loadLeaves_nleaf (es : List Entry) (s : State) :
    (loadLeaves es s).nleaf = s.nleaf := rfl
@[simp] theorem loadLeaves_nnode (es : List Entry) (s : State) :
    (loadLeaves es s).nnode = s.nleaf := rfl
@[simp] theorem loadLeaves_root (es : List Entry) (s : State) :
    (loadLeaves es s).root = Config.nil := rfl
@[simp] theorem loadLeaves_cur (es : List Entry) (s : State) : (loadLeaves es s).cur = s.cur := rfl
@[simp] theorem loadLeaves_bitlen (es : List Entry) (s : State) :
    (loadLeaves es s).bitlen = s.bitlen := rfl
@[simp] theorem loadLeaves_pad (es : List Entry) (s : State) : (loadLeaves es s).pad = s.pad := rfl
@[simp] theorem loadLeaves_count (es : List Entry) (s : State) :
    (loadLeaves es s).count = s.count := rfl
@[simp] theorem loadLeaves_slist (es : List Entry) (s : State) :
    (loadLeaves es s).slist = s.slist := rfl
@[simp] theorem loadLeaves_node (es : List Entry) (s : State) :
    (loadLeaves es s).node = Memory.writeList s.node 0 (es.map leafOf) := rfl
@[simp] theorem loadLeaves_srcq (es : List Entry) (s : State) :
    (loadLeaves es s).srcq = (List.range s.nleaf.toNat).map (BitVec.ofNat 8) := rfl
@[simp] theorem loadLeaves_tgtq (es : List Entry) (s : State) : (loadLeaves es s).tgtq = [] := rfl
@[simp] theorem loadLeaves_code (es : List Entry) (s : State) :
    (loadLeaves es s).code = s.code := rfl
@[simp] theorem loadLeaves_bitbuf (es : List Entry) (s : State) :
    (loadLeaves es s).bitbuf = s.bitbuf := rfl
@[simp] theorem loadLeaves_bitcap (es : List Entry) (s : State) :
    (loadLeaves es s).bitcap = s.bitcap := rfl
@[simp] theorem loadLeaves_samples (es : List Entry) (s : State) :
    (loadLeaves es s).samples = s.samples := rfl
@[simp] theorem loadLeaves_host (es : List Entry) (s : State) :
    (loadLeaves es s).host = s.host := rfl
@[simp] theorem loadLeaves_inp (es : List Entry) (s : State) : (loadLeaves es s).inp = s.inp := rfl
@[simp] theorem loadLeaves_results (es : List Entry) (s : State) :
    (loadLeaves es s).results = s.results := rfl

/-! ### `addInternal`: a merge's writes (rule R165) -/

@[simp] theorem addInternal_phase (p : P64) (a b : NodeIx) (s : State) :
    (addInternal p a b s).phase = s.phase := rfl
@[simp] theorem addInternal_err (p : P64) (a b : NodeIx) (s : State) :
    (addInternal p a b s).err = s.err := rfl
@[simp] theorem addInternal_errcmd (p : P64) (a b : NodeIx) (s : State) :
    (addInternal p a b s).errcmd = s.errcmd := rfl
@[simp] theorem addInternal_errval (p : P64) (a b : NodeIx) (s : State) :
    (addInternal p a b s).errval = s.errval := rfl
@[simp] theorem addInternal_errpos (p : P64) (a b : NodeIx) (s : State) :
    (addInternal p a b s).errpos = s.errpos := rfl
@[simp] theorem addInternal_synth (p : P64) (a b : NodeIx) (s : State) :
    (addInternal p a b s).synth = s.synth := rfl
@[simp] theorem addInternal_padfb (p : P64) (a b : NodeIx) (s : State) :
    (addInternal p a b s).padfb = s.padfb := rfl
@[simp] theorem addInternal_skip (p : P64) (a b : NodeIx) (s : State) :
    (addInternal p a b s).skip = s.skip := rfl
@[simp] theorem addInternal_total (p : P64) (a b : NodeIx) (s : State) :
    (addInternal p a b s).total = s.total := rfl
@[simp] theorem addInternal_ndist (p : P64) (a b : NodeIx) (s : State) :
    (addInternal p a b s).ndist = s.ndist := rfl
@[simp] theorem addInternal_nleaf (p : P64) (a b : NodeIx) (s : State) :
    (addInternal p a b s).nleaf = s.nleaf := rfl
@[simp] theorem addInternal_nnode (p : P64) (a b : NodeIx) (s : State) :
    (addInternal p a b s).nnode = s.nnode + 1 := rfl
@[simp] theorem addInternal_root (p : P64) (a b : NodeIx) (s : State) :
    (addInternal p a b s).root = s.nnode := rfl
@[simp] theorem addInternal_cur (p : P64) (a b : NodeIx) (s : State) :
    (addInternal p a b s).cur = s.cur := rfl
@[simp] theorem addInternal_bitlen (p : P64) (a b : NodeIx) (s : State) :
    (addInternal p a b s).bitlen = s.bitlen := rfl
@[simp] theorem addInternal_pad (p : P64) (a b : NodeIx) (s : State) :
    (addInternal p a b s).pad = s.pad := rfl
@[simp] theorem addInternal_count (p : P64) (a b : NodeIx) (s : State) :
    (addInternal p a b s).count = s.count := rfl
@[simp] theorem addInternal_slist (p : P64) (a b : NodeIx) (s : State) :
    (addInternal p a b s).slist = s.slist := rfl
@[simp] theorem addInternal_node (p : P64) (a b : NodeIx) (s : State) :
    (addInternal p a b s).node = Memory.write s.node s.nnode.toNat (.internal p a b) := rfl
@[simp] theorem addInternal_srcq (p : P64) (a b : NodeIx) (s : State) :
    (addInternal p a b s).srcq = s.srcq := rfl
@[simp] theorem addInternal_tgtq (p : P64) (a b : NodeIx) (s : State) :
    (addInternal p a b s).tgtq = s.tgtq ++ [s.nnode] := rfl
@[simp] theorem addInternal_code (p : P64) (a b : NodeIx) (s : State) :
    (addInternal p a b s).code = s.code := rfl
@[simp] theorem addInternal_bitbuf (p : P64) (a b : NodeIx) (s : State) :
    (addInternal p a b s).bitbuf = s.bitbuf := rfl
@[simp] theorem addInternal_bitcap (p : P64) (a b : NodeIx) (s : State) :
    (addInternal p a b s).bitcap = s.bitcap := rfl
@[simp] theorem addInternal_samples (p : P64) (a b : NodeIx) (s : State) :
    (addInternal p a b s).samples = s.samples := rfl
@[simp] theorem addInternal_host (p : P64) (a b : NodeIx) (s : State) :
    (addInternal p a b s).host = s.host := rfl
@[simp] theorem addInternal_inp (p : P64) (a b : NodeIx) (s : State) :
    (addInternal p a b s).inp = s.inp := rfl
@[simp] theorem addInternal_results (p : P64) (a b : NodeIx) (s : State) :
    (addInternal p a b s).results = s.results := rfl

/-! ### `emptyPayload`: `BITLEN <- 0` -/

@[simp] theorem emptyPayload_phase (s : State) : (emptyPayload s).phase = s.phase := rfl
@[simp] theorem emptyPayload_err (s : State) : (emptyPayload s).err = s.err := rfl
@[simp] theorem emptyPayload_errcmd (s : State) : (emptyPayload s).errcmd = s.errcmd := rfl
@[simp] theorem emptyPayload_errval (s : State) : (emptyPayload s).errval = s.errval := rfl
@[simp] theorem emptyPayload_errpos (s : State) : (emptyPayload s).errpos = s.errpos := rfl
@[simp] theorem emptyPayload_synth (s : State) : (emptyPayload s).synth = s.synth := rfl
@[simp] theorem emptyPayload_padfb (s : State) : (emptyPayload s).padfb = s.padfb := rfl
@[simp] theorem emptyPayload_skip (s : State) : (emptyPayload s).skip = s.skip := rfl
@[simp] theorem emptyPayload_total (s : State) : (emptyPayload s).total = s.total := rfl
@[simp] theorem emptyPayload_ndist (s : State) : (emptyPayload s).ndist = s.ndist := rfl
@[simp] theorem emptyPayload_nleaf (s : State) : (emptyPayload s).nleaf = s.nleaf := rfl
@[simp] theorem emptyPayload_nnode (s : State) : (emptyPayload s).nnode = s.nnode := rfl
@[simp] theorem emptyPayload_root (s : State) : (emptyPayload s).root = s.root := rfl
@[simp] theorem emptyPayload_cur (s : State) : (emptyPayload s).cur = s.cur := rfl
@[simp] theorem emptyPayload_bitlen (s : State) : (emptyPayload s).bitlen = 0 := rfl
@[simp] theorem emptyPayload_pad (s : State) : (emptyPayload s).pad = s.pad := rfl
@[simp] theorem emptyPayload_count (s : State) : (emptyPayload s).count = s.count := rfl
@[simp] theorem emptyPayload_slist (s : State) : (emptyPayload s).slist = s.slist := rfl
@[simp] theorem emptyPayload_node (s : State) : (emptyPayload s).node = s.node := rfl
@[simp] theorem emptyPayload_srcq (s : State) : (emptyPayload s).srcq = s.srcq := rfl
@[simp] theorem emptyPayload_tgtq (s : State) : (emptyPayload s).tgtq = s.tgtq := rfl
@[simp] theorem emptyPayload_code (s : State) : (emptyPayload s).code = s.code := rfl
@[simp] theorem emptyPayload_bitbuf (s : State) : (emptyPayload s).bitbuf = s.bitbuf := rfl
@[simp] theorem emptyPayload_bitcap (s : State) : (emptyPayload s).bitcap = s.bitcap := rfl
@[simp] theorem emptyPayload_samples (s : State) : (emptyPayload s).samples = s.samples := rfl
@[simp] theorem emptyPayload_host (s : State) : (emptyPayload s).host = s.host := rfl
@[simp] theorem emptyPayload_inp (s : State) : (emptyPayload s).inp = s.inp := rfl
@[simp] theorem emptyPayload_results (s : State) : (emptyPayload s).results = s.results := rfl

/-! ### `appendBits`: appending bits to the payload -/

@[simp] theorem appendBits_phase (bits : List Bit) (s : State) :
    (appendBits bits s).phase = s.phase := rfl
@[simp] theorem appendBits_err (bits : List Bit) (s : State) :
    (appendBits bits s).err = s.err := rfl
@[simp] theorem appendBits_errcmd (bits : List Bit) (s : State) :
    (appendBits bits s).errcmd = s.errcmd := rfl
@[simp] theorem appendBits_errval (bits : List Bit) (s : State) :
    (appendBits bits s).errval = s.errval := rfl
@[simp] theorem appendBits_errpos (bits : List Bit) (s : State) :
    (appendBits bits s).errpos = s.errpos := rfl
@[simp] theorem appendBits_synth (bits : List Bit) (s : State) :
    (appendBits bits s).synth = s.synth := rfl
@[simp] theorem appendBits_padfb (bits : List Bit) (s : State) :
    (appendBits bits s).padfb = s.padfb := rfl
@[simp] theorem appendBits_skip (bits : List Bit) (s : State) :
    (appendBits bits s).skip = s.skip := rfl
@[simp] theorem appendBits_total (bits : List Bit) (s : State) :
    (appendBits bits s).total = s.total := rfl
@[simp] theorem appendBits_ndist (bits : List Bit) (s : State) :
    (appendBits bits s).ndist = s.ndist := rfl
@[simp] theorem appendBits_nleaf (bits : List Bit) (s : State) :
    (appendBits bits s).nleaf = s.nleaf := rfl
@[simp] theorem appendBits_nnode (bits : List Bit) (s : State) :
    (appendBits bits s).nnode = s.nnode := rfl
@[simp] theorem appendBits_root (bits : List Bit) (s : State) :
    (appendBits bits s).root = s.root := rfl
@[simp] theorem appendBits_cur (bits : List Bit) (s : State) :
    (appendBits bits s).cur = s.cur := rfl
@[simp] theorem appendBits_bitlen (bits : List Bit) (s : State) :
    (appendBits bits s).bitlen = s.bitlen + bits.length := rfl
@[simp] theorem appendBits_pad (bits : List Bit) (s : State) :
    (appendBits bits s).pad = s.pad := rfl
@[simp] theorem appendBits_count (bits : List Bit) (s : State) :
    (appendBits bits s).count = s.count := rfl
@[simp] theorem appendBits_slist (bits : List Bit) (s : State) :
    (appendBits bits s).slist = s.slist := rfl
@[simp] theorem appendBits_node (bits : List Bit) (s : State) :
    (appendBits bits s).node = s.node := rfl
@[simp] theorem appendBits_srcq (bits : List Bit) (s : State) :
    (appendBits bits s).srcq = s.srcq := rfl
@[simp] theorem appendBits_tgtq (bits : List Bit) (s : State) :
    (appendBits bits s).tgtq = s.tgtq := rfl
@[simp] theorem appendBits_code (bits : List Bit) (s : State) :
    (appendBits bits s).code = s.code := rfl
@[simp] theorem appendBits_bitbuf (bits : List Bit) (s : State) :
    (appendBits bits s).bitbuf = Memory.writeList s.bitbuf s.bitlen bits := rfl
@[simp] theorem appendBits_bitcap (bits : List Bit) (s : State) :
    (appendBits bits s).bitcap = s.bitcap := rfl
@[simp] theorem appendBits_samples (bits : List Bit) (s : State) :
    (appendBits bits s).samples = s.samples := rfl
@[simp] theorem appendBits_host (bits : List Bit) (s : State) :
    (appendBits bits s).host = s.host := rfl
@[simp] theorem appendBits_inp (bits : List Bit) (s : State) :
    (appendBits bits s).inp = s.inp := rfl
@[simp] theorem appendBits_results (bits : List Bit) (s : State) :
    (appendBits bits s).results = s.results := rfl

/-! ### `notePadding`: the unpacker's `PAD` and `PADFB` -/

@[simp] theorem notePadding_phase (bits : List Bit) (s : State) :
    (notePadding bits s).phase = s.phase := rfl
@[simp] theorem notePadding_err (bits : List Bit) (s : State) :
    (notePadding bits s).err = s.err := rfl
@[simp] theorem notePadding_errcmd (bits : List Bit) (s : State) :
    (notePadding bits s).errcmd = s.errcmd := rfl
@[simp] theorem notePadding_errval (bits : List Bit) (s : State) :
    (notePadding bits s).errval = s.errval := rfl
@[simp] theorem notePadding_errpos (bits : List Bit) (s : State) :
    (notePadding bits s).errpos = s.errpos := rfl
@[simp] theorem notePadding_synth (bits : List Bit) (s : State) :
    (notePadding bits s).synth = s.synth := rfl
@[simp] theorem notePadding_padfb (bits : List Bit) (s : State) :
    (notePadding bits s).padfb = padfbFlag (sentinelIndex bits) := rfl
@[simp] theorem notePadding_skip (bits : List Bit) (s : State) :
    (notePadding bits s).skip = s.skip := rfl
@[simp] theorem notePadding_total (bits : List Bit) (s : State) :
    (notePadding bits s).total = s.total := rfl
@[simp] theorem notePadding_ndist (bits : List Bit) (s : State) :
    (notePadding bits s).ndist = s.ndist := rfl
@[simp] theorem notePadding_nleaf (bits : List Bit) (s : State) :
    (notePadding bits s).nleaf = s.nleaf := rfl
@[simp] theorem notePadding_nnode (bits : List Bit) (s : State) :
    (notePadding bits s).nnode = s.nnode := rfl
@[simp] theorem notePadding_root (bits : List Bit) (s : State) :
    (notePadding bits s).root = s.root := rfl
@[simp] theorem notePadding_cur (bits : List Bit) (s : State) :
    (notePadding bits s).cur = s.cur := rfl
@[simp] theorem notePadding_bitlen (bits : List Bit) (s : State) :
    (notePadding bits s).bitlen = s.bitlen := rfl
@[simp] theorem notePadding_pad (bits : List Bit) (s : State) :
    (notePadding bits s).pad = BitVec.ofNat 4 (strippedBits (sentinelIndex bits)) := rfl
@[simp] theorem notePadding_count (bits : List Bit) (s : State) :
    (notePadding bits s).count = s.count := rfl
@[simp] theorem notePadding_slist (bits : List Bit) (s : State) :
    (notePadding bits s).slist = s.slist := rfl
@[simp] theorem notePadding_node (bits : List Bit) (s : State) :
    (notePadding bits s).node = s.node := rfl
@[simp] theorem notePadding_srcq (bits : List Bit) (s : State) :
    (notePadding bits s).srcq = s.srcq := rfl
@[simp] theorem notePadding_tgtq (bits : List Bit) (s : State) :
    (notePadding bits s).tgtq = s.tgtq := rfl
@[simp] theorem notePadding_code (bits : List Bit) (s : State) :
    (notePadding bits s).code = s.code := rfl
@[simp] theorem notePadding_bitbuf (bits : List Bit) (s : State) :
    (notePadding bits s).bitbuf = s.bitbuf := rfl
@[simp] theorem notePadding_bitcap (bits : List Bit) (s : State) :
    (notePadding bits s).bitcap = s.bitcap := rfl
@[simp] theorem notePadding_samples (bits : List Bit) (s : State) :
    (notePadding bits s).samples = s.samples := rfl
@[simp] theorem notePadding_host (bits : List Bit) (s : State) :
    (notePadding bits s).host = s.host := rfl
@[simp] theorem notePadding_inp (bits : List Bit) (s : State) :
    (notePadding bits s).inp = s.inp := rfl
@[simp] theorem notePadding_results (bits : List Bit) (s : State) :
    (notePadding bits s).results = s.results := rfl

/-! ### `startWalk`: the decoder's start (rule R262) -/

@[simp] theorem startWalk_phase (s : State) : (startWalk s).phase = s.phase := rfl
@[simp] theorem startWalk_err (s : State) : (startWalk s).err = s.err := rfl
@[simp] theorem startWalk_errcmd (s : State) : (startWalk s).errcmd = s.errcmd := rfl
@[simp] theorem startWalk_errval (s : State) : (startWalk s).errval = s.errval := rfl
@[simp] theorem startWalk_errpos (s : State) : (startWalk s).errpos = s.errpos := rfl
@[simp] theorem startWalk_synth (s : State) : (startWalk s).synth = s.synth := rfl
@[simp] theorem startWalk_padfb (s : State) : (startWalk s).padfb = s.padfb := rfl
@[simp] theorem startWalk_skip (s : State) : (startWalk s).skip = false := rfl
@[simp] theorem startWalk_total (s : State) : (startWalk s).total = s.total := rfl
@[simp] theorem startWalk_ndist (s : State) : (startWalk s).ndist = s.ndist := rfl
@[simp] theorem startWalk_nleaf (s : State) : (startWalk s).nleaf = s.nleaf := rfl
@[simp] theorem startWalk_nnode (s : State) : (startWalk s).nnode = s.nnode := rfl
@[simp] theorem startWalk_root (s : State) : (startWalk s).root = s.root := rfl
@[simp] theorem startWalk_cur (s : State) : (startWalk s).cur = s.root := rfl
@[simp] theorem startWalk_bitlen (s : State) : (startWalk s).bitlen = s.bitlen := rfl
@[simp] theorem startWalk_pad (s : State) : (startWalk s).pad = s.pad := rfl
@[simp] theorem startWalk_count (s : State) : (startWalk s).count = s.count := rfl
@[simp] theorem startWalk_slist (s : State) : (startWalk s).slist = s.slist := rfl
@[simp] theorem startWalk_node (s : State) : (startWalk s).node = s.node := rfl
@[simp] theorem startWalk_srcq (s : State) : (startWalk s).srcq = s.srcq := rfl
@[simp] theorem startWalk_tgtq (s : State) : (startWalk s).tgtq = s.tgtq := rfl
@[simp] theorem startWalk_code (s : State) : (startWalk s).code = s.code := rfl
@[simp] theorem startWalk_bitbuf (s : State) : (startWalk s).bitbuf = s.bitbuf := rfl
@[simp] theorem startWalk_bitcap (s : State) : (startWalk s).bitcap = s.bitcap := rfl
@[simp] theorem startWalk_samples (s : State) : (startWalk s).samples = s.samples := rfl
@[simp] theorem startWalk_host (s : State) : (startWalk s).host = s.host := rfl
@[simp] theorem startWalk_inp (s : State) : (startWalk s).inp = s.inp := rfl
@[simp] theorem startWalk_results (s : State) : (startWalk s).results = s.results := rfl

/-! ### `present`: presenting a stream -/

@[simp] theorem present_phase (x : List Byte) (r : List Request) (s : State) :
    (present x r s).phase = s.phase := rfl
@[simp] theorem present_err (x : List Byte) (r : List Request) (s : State) :
    (present x r s).err = s.err := rfl
@[simp] theorem present_errcmd (x : List Byte) (r : List Request) (s : State) :
    (present x r s).errcmd = s.errcmd := rfl
@[simp] theorem present_errval (x : List Byte) (r : List Request) (s : State) :
    (present x r s).errval = s.errval := rfl
@[simp] theorem present_errpos (x : List Byte) (r : List Request) (s : State) :
    (present x r s).errpos = s.errpos := rfl
@[simp] theorem present_synth (x : List Byte) (r : List Request) (s : State) :
    (present x r s).synth = s.synth := rfl
@[simp] theorem present_padfb (x : List Byte) (r : List Request) (s : State) :
    (present x r s).padfb = s.padfb := rfl
@[simp] theorem present_skip (x : List Byte) (r : List Request) (s : State) :
    (present x r s).skip = s.skip := rfl
@[simp] theorem present_total (x : List Byte) (r : List Request) (s : State) :
    (present x r s).total = s.total := rfl
@[simp] theorem present_ndist (x : List Byte) (r : List Request) (s : State) :
    (present x r s).ndist = s.ndist := rfl
@[simp] theorem present_nleaf (x : List Byte) (r : List Request) (s : State) :
    (present x r s).nleaf = s.nleaf := rfl
@[simp] theorem present_nnode (x : List Byte) (r : List Request) (s : State) :
    (present x r s).nnode = s.nnode := rfl
@[simp] theorem present_root (x : List Byte) (r : List Request) (s : State) :
    (present x r s).root = s.root := rfl
@[simp] theorem present_cur (x : List Byte) (r : List Request) (s : State) :
    (present x r s).cur = s.cur := rfl
@[simp] theorem present_bitlen (x : List Byte) (r : List Request) (s : State) :
    (present x r s).bitlen = s.bitlen := rfl
@[simp] theorem present_pad (x : List Byte) (r : List Request) (s : State) :
    (present x r s).pad = s.pad := rfl
@[simp] theorem present_count (x : List Byte) (r : List Request) (s : State) :
    (present x r s).count = s.count := rfl
@[simp] theorem present_slist (x : List Byte) (r : List Request) (s : State) :
    (present x r s).slist = s.slist := rfl
@[simp] theorem present_node (x : List Byte) (r : List Request) (s : State) :
    (present x r s).node = s.node := rfl
@[simp] theorem present_srcq (x : List Byte) (r : List Request) (s : State) :
    (present x r s).srcq = s.srcq := rfl
@[simp] theorem present_tgtq (x : List Byte) (r : List Request) (s : State) :
    (present x r s).tgtq = s.tgtq := rfl
@[simp] theorem present_code (x : List Byte) (r : List Request) (s : State) :
    (present x r s).code = s.code := rfl
@[simp] theorem present_bitbuf (x : List Byte) (r : List Request) (s : State) :
    (present x r s).bitbuf = s.bitbuf := rfl
@[simp] theorem present_bitcap (x : List Byte) (r : List Request) (s : State) :
    (present x r s).bitcap = s.bitcap := rfl
@[simp] theorem present_samples (x : List Byte) (r : List Request) (s : State) :
    (present x r s).samples = s.samples := rfl
@[simp] theorem present_host (x : List Byte) (r : List Request) (s : State) :
    (present x r s).host = r := rfl
@[simp] theorem present_inp (x : List Byte) (r : List Request) (s : State) :
    (present x r s).inp = x := rfl
@[simp] theorem present_results (x : List Byte) (r : List Request) (s : State) :
    (present x r s).results = s.results := rfl

/-! ### `sampleStatus`: a sample changes no state of the engine -/

@[simp] theorem sampleStatus_phase (s : State) : (sampleStatus s).phase = s.phase := rfl
@[simp] theorem sampleStatus_err (s : State) : (sampleStatus s).err = s.err := rfl
@[simp] theorem sampleStatus_errcmd (s : State) : (sampleStatus s).errcmd = s.errcmd := rfl
@[simp] theorem sampleStatus_errval (s : State) : (sampleStatus s).errval = s.errval := rfl
@[simp] theorem sampleStatus_errpos (s : State) : (sampleStatus s).errpos = s.errpos := rfl
@[simp] theorem sampleStatus_synth (s : State) : (sampleStatus s).synth = s.synth := rfl
@[simp] theorem sampleStatus_padfb (s : State) : (sampleStatus s).padfb = s.padfb := rfl
@[simp] theorem sampleStatus_skip (s : State) : (sampleStatus s).skip = s.skip := rfl
@[simp] theorem sampleStatus_total (s : State) : (sampleStatus s).total = s.total := rfl
@[simp] theorem sampleStatus_ndist (s : State) : (sampleStatus s).ndist = s.ndist := rfl
@[simp] theorem sampleStatus_nleaf (s : State) : (sampleStatus s).nleaf = s.nleaf := rfl
@[simp] theorem sampleStatus_nnode (s : State) : (sampleStatus s).nnode = s.nnode := rfl
@[simp] theorem sampleStatus_root (s : State) : (sampleStatus s).root = s.root := rfl
@[simp] theorem sampleStatus_cur (s : State) : (sampleStatus s).cur = s.cur := rfl
@[simp] theorem sampleStatus_bitlen (s : State) : (sampleStatus s).bitlen = s.bitlen := rfl
@[simp] theorem sampleStatus_pad (s : State) : (sampleStatus s).pad = s.pad := rfl
@[simp] theorem sampleStatus_count (s : State) : (sampleStatus s).count = s.count := rfl
@[simp] theorem sampleStatus_slist (s : State) : (sampleStatus s).slist = s.slist := rfl
@[simp] theorem sampleStatus_node (s : State) : (sampleStatus s).node = s.node := rfl
@[simp] theorem sampleStatus_srcq (s : State) : (sampleStatus s).srcq = s.srcq := rfl
@[simp] theorem sampleStatus_tgtq (s : State) : (sampleStatus s).tgtq = s.tgtq := rfl
@[simp] theorem sampleStatus_code (s : State) : (sampleStatus s).code = s.code := rfl
@[simp] theorem sampleStatus_bitbuf (s : State) : (sampleStatus s).bitbuf = s.bitbuf := rfl
@[simp] theorem sampleStatus_bitcap (s : State) : (sampleStatus s).bitcap = s.bitcap := rfl
@[simp] theorem sampleStatus_samples (s : State) : (sampleStatus s).samples = s.samples + 1 := rfl
@[simp] theorem sampleStatus_host (s : State) : (sampleStatus s).host = s.host := rfl
@[simp] theorem sampleStatus_inp (s : State) : (sampleStatus s).inp = s.inp := rfl
@[simp] theorem sampleStatus_results (s : State) :
    (sampleStatus s).results = s.results ++ [.sampled s.status s.errpos] := rfl

/-! ### `enqueueWord`: enqueueing a command word -/

@[simp] theorem enqueueWord_phase (n w : Nat) (s : State) :
    (enqueueWord n w s).phase = s.phase := rfl
@[simp] theorem enqueueWord_err (n w : Nat) (s : State) : (enqueueWord n w s).err = s.err := rfl
@[simp] theorem enqueueWord_errcmd (n w : Nat) (s : State) :
    (enqueueWord n w s).errcmd = s.errcmd := rfl
@[simp] theorem enqueueWord_errval (n w : Nat) (s : State) :
    (enqueueWord n w s).errval = s.errval := rfl
@[simp] theorem enqueueWord_errpos (n w : Nat) (s : State) :
    (enqueueWord n w s).errpos = s.errpos := rfl
@[simp] theorem enqueueWord_synth (n w : Nat) (s : State) :
    (enqueueWord n w s).synth = s.synth := rfl
@[simp] theorem enqueueWord_padfb (n w : Nat) (s : State) :
    (enqueueWord n w s).padfb = s.padfb := rfl
@[simp] theorem enqueueWord_skip (n w : Nat) (s : State) : (enqueueWord n w s).skip = s.skip := rfl
@[simp] theorem enqueueWord_total (n w : Nat) (s : State) :
    (enqueueWord n w s).total = s.total := rfl
@[simp] theorem enqueueWord_ndist (n w : Nat) (s : State) :
    (enqueueWord n w s).ndist = s.ndist := rfl
@[simp] theorem enqueueWord_nleaf (n w : Nat) (s : State) :
    (enqueueWord n w s).nleaf = s.nleaf := rfl
@[simp] theorem enqueueWord_nnode (n w : Nat) (s : State) :
    (enqueueWord n w s).nnode = s.nnode := rfl
@[simp] theorem enqueueWord_root (n w : Nat) (s : State) : (enqueueWord n w s).root = s.root := rfl
@[simp] theorem enqueueWord_cur (n w : Nat) (s : State) : (enqueueWord n w s).cur = s.cur := rfl
@[simp] theorem enqueueWord_bitlen (n w : Nat) (s : State) :
    (enqueueWord n w s).bitlen = s.bitlen := rfl
@[simp] theorem enqueueWord_pad (n w : Nat) (s : State) : (enqueueWord n w s).pad = s.pad := rfl
@[simp] theorem enqueueWord_count (n w : Nat) (s : State) :
    (enqueueWord n w s).count = s.count := rfl
@[simp] theorem enqueueWord_slist (n w : Nat) (s : State) :
    (enqueueWord n w s).slist = s.slist := rfl
@[simp] theorem enqueueWord_node (n w : Nat) (s : State) : (enqueueWord n w s).node = s.node := rfl
@[simp] theorem enqueueWord_srcq (n w : Nat) (s : State) : (enqueueWord n w s).srcq = s.srcq := rfl
@[simp] theorem enqueueWord_tgtq (n w : Nat) (s : State) : (enqueueWord n w s).tgtq = s.tgtq := rfl
@[simp] theorem enqueueWord_code (n w : Nat) (s : State) : (enqueueWord n w s).code = s.code := rfl
@[simp] theorem enqueueWord_bitbuf (n w : Nat) (s : State) :
    (enqueueWord n w s).bitbuf = s.bitbuf := rfl
@[simp] theorem enqueueWord_bitcap (n w : Nat) (s : State) :
    (enqueueWord n w s).bitcap = s.bitcap := rfl
@[simp] theorem enqueueWord_samples (n w : Nat) (s : State) :
    (enqueueWord n w s).samples = s.samples := rfl
@[simp] theorem enqueueWord_host (n w : Nat) (s : State) :
    (enqueueWord n w s).host = .command (tableWord n w) [] :: s.host := rfl
@[simp] theorem enqueueWord_inp (n w : Nat) (s : State) : (enqueueWord n w s).inp = s.inp := rfl
@[simp] theorem enqueueWord_results (n w : Nat) (s : State) :
    (enqueueWord n w s).results = s.results := rfl

end Sys2Proof.Laws
end

