-- ==== Sys2Proof/Laws/Ops.lean ====
section
/-! SUPPORT. For each shared operation, what it can do, said once: sequencing, loops, reading runs of
elements, the payload, the order of checks around a command, and one step. -/

namespace Sys2Proof.Laws

open Sys2Proof.Machine

/-! ### Sequencing -/

@[simp] theorem andThen_ok (s : State) (out : List Byte) (f : State → Effect) :
    (Effect.ok s out).andThen f =
      match f s with
      | .ok s' out' => .ok s' (out ++ out')
      | .raise c v p s' => .raise c v p s'
      | .stop r => .stop r := rfl

@[simp] theorem andThen_raise (c : Cause) (v : Byte) (p : Nat) (s : State) (f : State → Effect) :
    (Effect.raise c v p s).andThen f = .raise c v p s := rfl

@[simp] theorem andThen_stop (r : Fault) (f : State → Effect) :
    (Effect.stop r).andThen f = .stop r := rfl

theorem andThen_ok_nil (s : State) (f : State → Effect) : (Effect.ok s []).andThen f = f s := by
  rw [andThen_ok]; cases f s <;> simp

/-- A sequence runs to its end exactly when both pieces do, and OUT is theirs in order. -/
theorem andThen_eq_ok {x : Effect} {f : State → Effect} {t : State} {out : List Byte} :
    x.andThen f = .ok t out ↔
      ∃ s1 o1 o2, x = .ok s1 o1 ∧ f s1 = .ok t o2 ∧ out = o1 ++ o2 := by
  cases x with
  | ok s o =>
    rw [andThen_ok]
    constructor
    · intro h
      cases hf : f s with
      | ok s' o' =>
        rw [hf] at h
        simp only [Effect.ok.injEq] at h
        exact ⟨s, o, o', rfl, by rw [hf, h.1], h.2.symm⟩
      | raise => rw [hf] at h; cases h
      | stop => rw [hf] at h; cases h
    · rintro ⟨s1, o1, o2, hx, hf, rfl⟩
      cases hx
      rw [hf]
  | raise => simp
  | stop => simp

/-- A sequence raises where its first piece does, or where its second does after the first ran. -/
theorem andThen_eq_raise {x : Effect} {f : State → Effect} {c : Cause} {v : Byte} {p : Nat}
    {t : State} :
    x.andThen f = .raise c v p t ↔
      x = .raise c v p t ∨ ∃ s1 o1, x = .ok s1 o1 ∧ f s1 = .raise c v p t := by
  cases x with
  | ok s o =>
    rw [andThen_ok]
    cases hf : f s <;> simp [hf]
  | raise => simp
  | stop => simp

theorem andThen_eq_stop {x : Effect} {f : State → Effect} {r : Fault} :
    x.andThen f = .stop r ↔ x = .stop r ∨ ∃ s1 o1, x = .ok s1 o1 ∧ f s1 = .stop r := by
  cases x with
  | ok s o =>
    rw [andThen_ok]
    cases hf : f s <;> simp [hf]
  | raise => simp
  | stop => simp

/-! ### Loops over a stream -/

variable {α : Type}

@[simp] theorem forEach_nil (step : α → Nat → State → Effect) (i : Nat) (s : State) :
    forEach step [] i s = .ok s [] := rfl

theorem forEach_cons (step : α → Nat → State → Effect) (e : α) (es : List α) (i : Nat) (s : State) :
    forEach step (e :: es) i s = (step e i s).andThen (forEach step es (i + 1)) := rfl

theorem andThen_assoc (x : Effect) (f g : State → Effect) :
    (x.andThen f).andThen g = x.andThen (fun s => (f s).andThen g) := by
  cases x with
  | ok s o =>
    simp only [andThen_ok]
    cases hf : f s with
    | ok s' o' => simp only [andThen_ok]; cases g s' <;> simp
    | raise => rfl
    | stop => rfl
  | raise => rfl
  | stop => rfl

/-- A loop over two streams in a row is the two loops in a row. -/
theorem forEach_append (step : α → Nat → State → Effect) (xs ys : List α) (i : Nat) (s : State) :
    forEach step (xs ++ ys) i s =
      (forEach step xs i s).andThen (forEach step ys (i + xs.length)) := by
  induction xs generalizing i s with
  | nil => simp only [List.nil_append, forEach_nil, List.length_nil, Nat.add_zero, andThen_ok_nil]
  | cons x xs ih =>
    rw [List.cons_append, forEach_cons, forEach_cons, andThen_assoc]
    congr 1
    funext s'
    rw [ih, List.length_cons]
    congr 2
    omega

/-- What every running step keeps, a running loop keeps. -/
theorem forEach_keeps {step : α → Nat → State → Effect} {P : State → Prop}
    (h : ∀ e i s t o, P s → step e i s = .ok t o → P t) {es : List α} {i : Nat} {s t : State}
    {out : List Byte} (hs : P s) (hr : forEach step es i s = .ok t out) : P t := by
  induction es generalizing i s out with
  | nil => cases hr; exact hs
  | cons e es ih =>
    rw [forEach_cons, andThen_eq_ok] at hr
    obtain ⟨s1, o1, o2, h1, h2, -⟩ := hr
    exact ih (h e i s s1 o1 hs h1) h2

/-! ### Reading runs of elements -/

/-- Reading a run succeeds exactly when every element of it holds a value. -/
theorem collect_eq_ok {store : Store} {read : Nat → Option α} {i n : Nat} {xs : List α} :
    collect store read i n = .ok xs ↔ xs.length = n ∧ ∀ k < n, read (i + k) = xs[k]? := by
  induction n generalizing i xs with
  | zero =>
    simp only [collect, Except.ok.injEq, Nat.not_lt_zero, false_implies, implies_true, and_true]
    exact ⟨fun h => by simp [← h], fun h => (List.length_eq_zero_iff.mp h).symm⟩
  | succ n ih =>
    simp only [collect]
    constructor
    · intro h
      split at h
      · cases h
      next x hx =>
      split at h
      · cases h
      next ys hys =>
      cases h
      obtain ⟨hl, hk⟩ := ih.mp hys
      refine ⟨by simp [hl], fun k hkn => ?_⟩
      cases k with
      | zero => simpa using hx
      | succ k =>
        have := hk k (by omega)
        rw [show i + (k + 1) = i + 1 + k by omega, this]
        simp
    · rintro ⟨hl, hk⟩
      cases xs with
      | nil => simp at hl
      | cons x xs =>
        have h0 := hk 0 (by omega)
        simp only [Nat.add_zero, List.getElem?_cons_zero] at h0
        rw [h0]
        have : collect store read (i + 1) n = .ok xs := by
          refine ih.mpr ⟨by simpa using hl, fun k hkn => ?_⟩
          have := hk (k + 1) (by omega)
          rw [show i + 1 + k = i + (k + 1) by omega, this]
          simp
        simp [this]

/-! ### The payload -/

/-- Appending to the payload leaves its elements and adds the new ones after them. -/
theorem readBit_appendBits (bits : List Bit) (s : State) (j : Nat) :
    (appendBits bits s).readBit j =
      if j < s.bitlen then s.readBit j else bits[j - s.bitlen]? := by
  unfold State.readBit
  simp only [appendBits_bitlen, appendBits_bitbuf, read_writeList]
  by_cases h : j < s.bitlen
  · rw [if_pos (by omega), if_neg (by omega), if_pos h, if_pos h]
  · by_cases h2 : j < s.bitlen + bits.length
    · rw [if_pos h2, if_pos (by omega), if_neg h]
    · rw [if_neg h2, if_neg h, List.getElem?_eq_none (by omega)]

/-- The payload is `xs`: `BITLEN` counts it and `BITBUF` holds it. -/
def HoldsPayload (s : State) (xs : List Bit) : Prop :=
  s.bitlen = xs.length ∧ ∀ j < xs.length, s.readBit j = xs[j]?

theorem holdsPayload_empty (s : State) : HoldsPayload (emptyPayload s) [] := by
  simp [HoldsPayload]

theorem holdsPayload_append {s : State} {xs : List Bit} (h : HoldsPayload s xs) (ys : List Bit) :
    HoldsPayload (appendBits ys s) (xs ++ ys) := by
  obtain ⟨hl, hr⟩ := h
  refine ⟨by simp [hl], fun j hj => ?_⟩
  rw [readBit_appendBits, hl]
  split
  · next hlt => rw [hr j hlt, List.getElem?_append_left hlt]
  · next hge => rw [List.getElem?_append_right (by omega)]

theorem readPayload_eq {s : State} {xs : List Bit} (h : HoldsPayload s xs) :
    readPayload s = .ok xs := by
  unfold readPayload
  rw [collect_eq_ok]
  exact ⟨h.1.symm, fun k hk => by simpa using h.2 k (h.1 ▸ hk)⟩

/-- A payload that can be read is held. -/
theorem holdsPayload_of_read {s : State} {xs : List Bit} (h : readPayload s = .ok xs) :
    HoldsPayload s xs := by
  unfold readPayload at h
  rw [collect_eq_ok] at h
  exact ⟨h.1.symm, fun j hj => by simpa using h.2 j (h.1 ▸ hj)⟩

/-! ### Reads that an update leaves alone -/

theorem readNode_congr {s t : State} (hn : t.node = s.node) (hc : t.nnode = s.nnode) (n : NodeIx) :
    t.readNode n = s.readNode n := by unfold State.readNode; rw [hn, hc]

theorem readSlist_congr {s t : State} (hn : t.slist = s.slist) (hc : t.nleaf = s.nleaf) (i : Nat) :
    t.readSlist i = s.readSlist i := by unfold State.readSlist; rw [hn, hc]

theorem readCount_congr {s t : State} (h : t.count = s.count) (x : Nat) :
    t.readCount x = s.readCount x := by unfold State.readCount; rw [h]

theorem readCode_congr {s t : State} (h : t.code = s.code) (x : Nat) :
    t.readCode x = s.readCode x := by unfold State.readCode; rw [h]

/-- A histogram step counts its symbol and no other. -/
theorem readCount_countSymbol (sym : Nat) (s : State) (x : Nat) :
    (countSymbol sym s).readCount x = if x = sym then s.readCount sym + 1 else s.readCount x := by
  unfold State.readCount
  rw [countSymbol_count, read_writeOver]
  split <;> simp [State.readCount]

/-- A merge's new node is read back, and no other node changes. -/
theorem readNode_addInternal {p : P64} {a b : NodeIx} {s : State} (h : s.nnode.toNat < Config.nodeMax)
    (n : NodeIx) :
    (addInternal p a b s).readNode n =
      if n = s.nnode then some (.internal p a b) else s.readNode n := by
  unfold State.readNode
  have h1 : (s.nnode + 1).toNat = s.nnode.toNat + 1 := by
    rw [BitVec.toNat_add]
    simp only [Config.nodeMax] at h
    rw [show (1 : BitVec 8).toNat = 1 from rfl, Nat.mod_eq_of_lt (by omega)]
  rw [addInternal_node, addInternal_nnode, h1, read_write]
  by_cases hn : n = s.nnode
  · subst hn; simp
  · have : n.toNat ≠ s.nnode.toNat := fun h => hn (BitVec.eq_of_toNat_eq h)
    rw [if_neg hn, if_neg this]
    by_cases hlt : n.toNat < s.nnode.toNat
    · rw [if_pos hlt, if_pos (by omega)]
    · rw [if_neg hlt, if_neg (by omega)]

theorem walk_congr {s t : State} (h : ∀ n, t.readNode n = s.readNode n) (n : NodeIx)
    (bits : List Bit) : walk t n bits = walk s n bits := by
  induction bits generalizing n with
  | nil => rfl
  | cons b bits ih => simp only [walk, h, ih]

/-- The lifecycle registers and memories of two states are the same. -/
structure SameLifecycle (s t : State) : Prop where
  err : t.err = s.err
  phase : t.phase = s.phase
  total : t.total = s.total
  ndist : t.ndist = s.ndist
  nleaf : t.nleaf = s.nleaf
  nnode : t.nnode = s.nnode
  root : t.root = s.root
  count : t.count = s.count
  slist : t.slist = s.slist
  node : t.node = s.node
  srcq : t.srcq = s.srcq
  tgtq : t.tgtq = s.tgtq
  code : t.code = s.code

/-- The invariants of rule R49 speak of the lifecycle registers and memories only: not of the codec's,
the decoder's cursor and flags, or the host's side. -/
theorem lifecycleInv_congr {s t : State} (h : SameLifecycle s t) (hs : LifecycleInv s) :
    LifecycleInv t := by
  have hc : t.readCount = s.readCount := funext (readCount_congr h.count)
  have hl : t.readSlist = s.readSlist := funext (readSlist_congr h.slist h.nleaf)
  have hn : t.readNode = s.readNode := funext (readNode_congr h.node h.nnode)
  have hd : t.readCode = s.readCode := funext (readCode_congr h.code)
  have hw : walk t = walk s := by
    funext n bits; exact walk_congr (congrFun hn) n bits
  have hsym : leafSymbols t = leafSymbols s := by unfold leafSymbols; rw [hl, h.nleaf]
  have hkids : childRefs t = childRefs s := by
    unfold childRefs
    rw [h.nnode]
    congr 1
    funext n
    simp only [childrenOf, hn]
  have hint : isInternalOver t = isInternalOver s := by
    funext n; simp only [isInternalOver, hn]
  have hlead : leadsTo t = leadsTo s := by
    funext bits sym; simp only [leadsTo, isLeafOf, hw, hn, h.root]
  have hpath : codeIsPath t = codeIsPath s := by
    funext sym; simp only [codeIsPath, hd, hlead]
  have hapart : codesApart t = codesApart s := by
    funext a b; simp only [codesApart, hd]
  simp only [LifecycleInv, CountInv, SortedInv, TreeInv, CodedInv, leafMatches, hc, hl, hn, hd, hsym,
    hkids, hint, hpath, hapart, h.err, h.phase, h.total, h.ndist, h.nleaf, h.nnode, h.root, h.srcq,
    h.tgtq] at hs ⊢
  exact hs

/-- The invariants say nothing of the host's side. -/
theorem lifecycleInv_ports {s : State} (h : LifecycleInv s) (host : List Request) (inp : List Byte)
    (results : List Response) :
    LifecycleInv { s with host := host, inp := inp, results := results } :=
  lifecycleInv_congr (s := s) ⟨rfl, rfl, rfl, rfl, rfl, rfl, rfl, rfl, rfl, rfl, rfl, rfl, rfl⟩ h

/-! ### Around a command, and one step -/

/-- A command whose checks pass runs its body. -/
theorem runCommand_ready {i : Instr} {body : State → Effect} {s : State} (he : s.err = 0)
    (hp : legalIn i s.phase = true) : runCommand i body s = conclude i (body s) := by
  rw [runCommand, if_pos he, if_pos hp]

/-- A command in a phase that does not allow it raises `Sequence` (rule R291). -/
theorem runCommand_sequence {i : Instr} {body : State → Effect} {s : State} (he : s.err = 0)
    (hp : legalIn i s.phase = false) :
    runCommand i body s = conclude i (.raise .sequence 0 0 s) := by
  rw [runCommand, if_pos he, if_neg (by simp [hp])]

/-- A command while `ERR != 0` is refused (rule R307). -/
theorem runCommand_refused {i : Instr} {body : State → Effect} {s : State} (he : s.err ≠ 0) :
    runCommand i body s = .next (consumeIn i.readsIn (refuse s)) := by
  rw [runCommand, if_neg he]

/-- The body of a command other than `CLR`; of `CLR` it is its whole effect. -/
def bodyOf : Instr → State → Effect
  | .clr => fun s => .ok (clearSession s) []
  | .hist => fun s => forEach histStep s.inp 0 s
  | .sort => sortBody
  | .build => buildBody
  | .gen => genBody
  | .enc => encBody
  | .dec => decBody
  | .pack => packBody
  | .unpack => unpackBody

theorem exec_clr (s : State) : exec .clr s = conclude .clr (.ok (clearSession s) []) := rfl

theorem exec_eq_runCommand {i : Instr} (h : i ≠ .clr) (s : State) :
    exec i s = runCommand i (bodyOf i) s := by
  cases i <;> first | exact absurd rfl h | rfl

/-- What a command can answer: it ended `done`, it raised a fault, it was refused, or it read an element
that holds no value. -/
theorem exec_cases (i : Instr) (s : State) :
    (∃ t out, bodyOf i s = .ok t out ∧
        exec i s = .next (consumeIn i.readsIn (reply .done out t))) ∨
      (∃ c v p t, exec i s = .next (consumeIn i.readsIn (takeFault (encode i) c v p t)) ∧ i ≠ .clr ∧
        s.err = 0 ∧ (bodyOf i s = .raise c v p t ∨
          legalIn i s.phase = false ∧ c = .sequence ∧ v = 0 ∧ p = 0 ∧ t = s)) ∨
      (exec i s = .next (consumeIn i.readsIn (refuse s)) ∧ i ≠ .clr ∧ s.err ≠ 0) ∨
      (∃ r, bodyOf i s = .stop r ∧ exec i s = .fault r) := by
  by_cases hc : i = .clr
  · subst hc; exact .inl ⟨_, _, rfl, rfl⟩
  rw [exec_eq_runCommand hc]
  by_cases he : s.err = 0
  · cases hp : legalIn i s.phase with
    | true =>
      rw [runCommand_ready he hp]
      cases hb : bodyOf i s with
      | ok t out => exact .inl ⟨t, out, rfl, rfl⟩
      | raise c v p t => exact .inr (.inl ⟨c, v, p, t, rfl, hc, he, .inl rfl⟩)
      | stop r => exact .inr (.inr (.inr ⟨r, rfl, rfl⟩))
    | false =>
      rw [runCommand_sequence he hp]
      exact .inr (.inl ⟨.sequence, 0, 0, s, rfl, hc, he, .inr ⟨rfl, rfl, rfl, rfl, rfl⟩⟩)
  · rw [runCommand_refused he]
    exact .inr (.inr (.inl ⟨rfl, hc, he⟩))

/-- What a step can do: stay idle, reset, sample, or run a command word. -/
theorem step_cases (s : State) :
    (s.host = [] ∧ step s = .next s) ∨
      (∃ rest, s.host = .reset :: rest ∧ step s = .next (clearSession { s with host := rest })) ∨
      (∃ rest, s.host = .sample :: rest ∧ step s = .next (sampleStatus { s with host := rest })) ∨
      (∃ w x rest i, s.host = .command w x :: rest ∧ decode w = .command i ∧
        step s = exec i (present x rest s)) ∨
      (∃ w x rest, s.host = .command w x :: rest ∧ (∀ i, decode w ≠ .command i) ∧
        step s = .next (rejectWord w (present x rest s))) := by
  unfold step hostMove
  cases hh : s.host with
  | nil => exact .inl ⟨rfl, rfl⟩
  | cons r rest =>
    cases r with
    | reset => exact .inr (.inl ⟨rest, rfl, rfl⟩)
    | sample => exact .inr (.inr (.inl ⟨rest, rfl, rfl⟩))
    | command w x =>
      simp only [issueWord]
      cases hd : decode w with
      | command i => exact .inr (.inr (.inr (.inl ⟨w, x, rest, i, rfl, hd, rfl⟩)))
      | reservedBits b => exact .inr (.inr (.inr (.inr ⟨w, x, rest, rfl, by simp [hd], rfl⟩)))
      | unassignedOpcode b => exact .inr (.inr (.inr (.inr ⟨w, x, rest, rfl, by simp [hd], rfl⟩)))

end Sys2Proof.Laws
end

