-- ==== Sys2Proof/Laws/Families.lean ====
section
/-! SUPPORT. For each step rule of a command family, everything it can do, said once; later proofs cite
these instead of unfolding the step. -/

namespace Sys2Proof.Laws

open Sys2Proof.Machine

/-! ### HIST (rule R133) -/

theorem isSymbol_iff (e : Byte) : isSymbol e = true ↔ e.toNat < 128 := by simp [isSymbol]

theorem histStep_symbol {e : Byte} {i : Nat} {s : State} (h : e.toNat < 128)
    (ht : s.total.toNat < 2 ^ 32 - 1) : histStep e i s = .ok (countSymbol e.toNat s) [] := by
  have h1 : isSymbol e = true := (isSymbol_iff e).mpr h
  have h2 : s.total.toNat ≠ Config.countMax := by simp only [Config.countMax]; omega
  simp [histStep, h1, h2]

theorem histStep_range {e : Byte} {i : Nat} {s : State} (h : 128 ≤ e.toNat) :
    histStep e i s = .raise .symbolRange e i s := by
  have h1 : isSymbol e = false := by
    rw [Bool.eq_false_iff, ne_eq, isSymbol_iff]; omega
  simp [histStep, h1]

theorem histStep_full {e : Byte} {i : Nat} {s : State} (h : e.toNat < 128)
    (ht : s.total.toNat = 2 ^ 32 - 1) : histStep e i s = .raise .countOverflow e i s := by
  have h1 : isSymbol e = true := (isSymbol_iff e).mpr h
  simp [histStep, h1, ht, Config.countMax]

/-- A histogram step counts its symbol, or raises one of its two faults with its element and index. -/
theorem histStep_cases (e : Byte) (i : Nat) (s : State) :
    (e.toNat < 128 ∧ s.total.toNat < 2 ^ 32 - 1 ∧ histStep e i s = .ok (countSymbol e.toNat s) []) ∨
      (128 ≤ e.toNat ∧ histStep e i s = .raise .symbolRange e i s) ∨
      (e.toNat < 128 ∧ s.total.toNat = 2 ^ 32 - 1 ∧
        histStep e i s = .raise .countOverflow e i s) := by
  have hb : s.total.toNat < 2 ^ 32 := s.total.isLt
  by_cases h : e.toNat < 128
  · by_cases ht : s.total.toNat = 2 ^ 32 - 1
    · exact .inr (.inr ⟨h, ht, histStep_full h ht⟩)
    · exact .inl ⟨h, by omega, histStep_symbol h (by omega)⟩
  · exact .inr (.inl ⟨by omega, histStep_range (by omega)⟩)

/-! ### The codec (rules R211, R212 and R217) -/

@[simp] theorem bitOfToken_zero : bitOfToken 0x00#8 = some false := rfl
@[simp] theorem bitOfToken_one : bitOfToken 0x01#8 = some true := rfl

theorem bitOfToken_eq_none {e : Byte} : bitOfToken e = none ↔ e ≠ 0x00#8 ∧ e ≠ 0x01#8 := by
  unfold bitOfToken
  split
  · simp [*]
  split <;> simp [*]

@[simp] theorem bitOfToken_tokenOf (b : Bit) : bitOfToken (tokenOf b) = some b := by cases b <;> rfl

/-- A token step appends its bit, or raises one of its two faults with its element and index. -/
theorem loadToken_cases (e : Byte) (i : Nat) (s : State) :
    (∃ b, bitOfToken e = some b ∧ s.bitcap ≠ some s.bitlen ∧
        loadToken e i s = .ok (appendBits [b] s) []) ∨
      (bitOfToken e = none ∧ loadToken e i s = .raise .malformedBitstring e i s) ∨
      (∃ b, bitOfToken e = some b ∧ s.bitcap = some s.bitlen ∧
        loadToken e i s = .raise .capacity e i s) := by
  unfold loadToken
  cases hb : bitOfToken e with
  | none => exact .inr (.inl ⟨rfl, rfl⟩)
  | some b =>
    by_cases hc : s.bitcap = some s.bitlen
    · exact .inr (.inr ⟨b, rfl, hc, by simp [hc]⟩)
    · exact .inl ⟨b, rfl, hc, by simp [hc]⟩

/-- The packing core on a held payload writes `PAD` and outputs the packed bytes. -/
theorem packCore_eq {s : State} {xs : List Bit} (h : HoldsPayload s xs) :
    packCore s = .ok { s with pad := BitVec.ofNat 4 (paddingFor s.bitlen) }
      (bytesOfBits (withPrefix xs)) := by
  unfold packCore; rw [readPayload_eq h]

theorem emitTokens_eq {s : State} {xs : List Bit} (h : HoldsPayload s xs) :
    emitTokens s = .ok s (xs.map tokenOf) := by
  unfold emitTokens; rw [readPayload_eq h]

/-- The state in which the unpacking core leaves the engine when it runs through. -/
def unpacked (s : State) : State :=
  appendBits (payloadOf (bitsOfBytes s.inp))
    (emptyPayload (notePadding (bitsOfBytes s.inp) s))

/-- The unpacking core raises `EmptyStream`, raises `Capacity`, or holds the payload. -/
theorem unpackCore_cases (s : State) :
    (s.inp = [] ∧ unpackCore s = .raise .emptyStream 0 0 s) ∨
      (s.inp ≠ [] ∧ exceedsCap s.bitcap
          (8 * s.inp.length - strippedBits (sentinelIndex (bitsOfBytes s.inp))) = true ∧
        unpackCore s = .raise .capacity 0 0 (notePadding (bitsOfBytes s.inp) s)) ∨
      (s.inp ≠ [] ∧ exceedsCap s.bitcap
          (8 * s.inp.length - strippedBits (sentinelIndex (bitsOfBytes s.inp))) = false ∧
        unpackCore s = .ok (unpacked s) []) := by
  unfold unpackCore unpacked
  by_cases hi : s.inp = []
  · exact .inl ⟨hi, by simp [hi]⟩
  · cases hc : exceedsCap s.bitcap
        (8 * s.inp.length - strippedBits (sentinelIndex (bitsOfBytes s.inp))) with
    | true => exact .inr (.inl ⟨hi, rfl, by simp [hi, hc]⟩)
    | false => exact .inr (.inr ⟨hi, rfl, by simp [hi, hc]⟩)

theorem holdsPayload_unpacked (s : State) :
    HoldsPayload (unpacked s) (payloadOf (bitsOfBytes s.inp)) := by
  have := holdsPayload_append (holdsPayload_empty (notePadding (bitsOfBytes s.inp) s))
    (payloadOf (bitsOfBytes s.inp))
  simpa [unpacked] using this

@[simp] theorem length_bitsOfBytes (b : List Byte) : (bitsOfBytes b).length = 8 * b.length := by
  induction b with
  | nil => rfl
  | cons v b ih => simp only [bitsOfBytes, List.flatMap_cons, List.length_append] at ih ⊢
                   rw [ih]; simp only [bitsOfByte, List.length_cons, List.length_nil]; omega

/-- One byte holds its eight bits, first bit most significant (rule R67). -/
theorem bitsOfByte_byteOfBits (b7 b6 b5 b4 b3 b2 b1 b0 : Bit) :
    bitsOfByte (byteOfBits b7 b6 b5 b4 b3 b2 b1 b0) = [b7, b6, b5, b4, b3, b2, b1, b0] := by
  cases b7 <;> cases b6 <;> cases b5 <;> cases b4 <;> cases b3 <;> cases b2 <;> cases b1 <;>
    cases b0 <;> rfl

/-! ### ENC (rule R241) -/

/-- An encoder step appends its element's code, or raises one of its two faults with its element and
index. -/
theorem encStep_cases (e : Byte) (i : Nat) (s : State) :
    (∃ c, codeFor s e = some c ∧ exceedsCap s.bitcap (s.bitlen + c.len) = false ∧
        encStep e i s = .ok (appendBits c.bits s) []) ∨
      (codeFor s e = none ∧ encStep e i s = .raise .alphabetMismatch e i s) ∨
      (∃ c, codeFor s e = some c ∧ exceedsCap s.bitcap (s.bitlen + c.len) = true ∧
        encStep e i s = .raise .capacity e i s) := by
  unfold encStep
  cases hc : codeFor s e with
  | none => exact .inr (.inl ⟨rfl, rfl⟩)
  | some c =>
    cases hx : exceedsCap s.bitcap (s.bitlen + c.len) with
    | true => exact .inr (.inr ⟨c, rfl, hx, by simp [hx]⟩)
    | false => exact .inl ⟨c, rfl, hx, by simp [hx]⟩

theorem codeFor_congr {s t : State} (h : t.code = s.code) (e : Byte) : codeFor t e = codeFor s e := by
  unfold codeFor; rw [readCode_congr h]

/-! ### DEC (rule R264) -/

/-- A decoder step from an internal node to a leaf outputs its symbol and returns to the root. -/
theorem decStep_leaf {bit : Bit} {i : Nat} {s : State} {p q : P64} {l r : NodeIx} {sym : Sym}
    (hc : s.readNode s.cur = some (.internal p l r))
    (hn : s.readNode (if bit then r else l) = some (.leaf sym q)) :
    decStep bit i s = .ok { s with cur := s.root } [elementOf sym] := by
  unfold decStep moveTo
  rw [hc]
  show (match s.readNode (if bit then r else l) with
    | none => _
    | some (.leaf sym _) => _
    | some (.internal _ _ _) => _) = _
  rw [hn]

/-- A decoder step from an internal node to an internal node moves the cursor and outputs nothing. -/
theorem decStep_internal {bit : Bit} {i : Nat} {s : State} {p q : P64} {l r l' r' : NodeIx}
    (hc : s.readNode s.cur = some (.internal p l r))
    (hn : s.readNode (if bit then r else l) = some (.internal q l' r')) :
    decStep bit i s = .ok { s with cur := if bit then r else l } [] := by
  unfold decStep moveTo
  rw [hc]
  show (match s.readNode (if bit then r else l) with
    | none => _
    | some (.leaf sym _) => _
    | some (.internal _ _ _) => _) = _
  rw [hn]

/-- The defensive transition: on a leaf the bit is consumed, the cursor reset and `SKIP` set (rule
R267). -/
theorem decStep_onLeaf {bit : Bit} {i : Nat} {s : State} {sym : Sym} {p : P64}
    (hc : s.readNode s.cur = some (.leaf sym p)) :
    decStep bit i s = .ok { s with cur := s.root, skip := true } [] := by
  unfold decStep; rw [hc]

/-- A decoder step writes only `CUR` and `SKIP`, and outputs at most one element. -/
theorem decStep_ok {bit : Bit} {i : Nat} {s t : State} {out : List Byte}
    (h : decStep bit i s = .ok t out) :
    t = { s with cur := t.cur, skip := t.skip } ∧ out.length ≤ 1 := by
  unfold decStep moveTo at h
  repeat' split at h
  all_goals first | cases h; done | (cases h; exact ⟨rfl, by simp⟩)

/-! ### BUILD (rules R164 and R165) -/

/-- A pick takes the head of one of the two queues and changes nothing else. -/
theorem pick_ok {s t : State} {n : NodeIx} (h : pick s = .ok (n, t)) :
    (∃ hs, s.srcq = n :: hs ∧ t = { s with srcq := hs }) ∨
      (∃ ts, s.tgtq = n :: ts ∧ t = { s with tgtq := ts }) := by
  unfold pick at h
  split at h
  · cases h
  · next t' ts hs ht => cases h; exact .inr ⟨ts, ht, rfl⟩
  · next h' hs hh ht => cases h; exact .inl ⟨hs, hh, rfl⟩
  · next h' hs t' ts hh ht =>
    split at h
    · cases h
    · cases h
    · split at h
      · cases h; exact .inl ⟨hs, hh, rfl⟩
      · cases h; exact .inr ⟨ts, ht, rfl⟩

/-- A pick takes exactly one node off the two queues. -/
theorem pick_length {s t : State} {n : NodeIx} (h : pick s = .ok (n, t)) :
    t.srcq.length + t.tgtq.length + 1 = s.srcq.length + s.tgtq.length := by
  rcases pick_ok h with ⟨hs, hq, rfl⟩ | ⟨ts, hq, rfl⟩
  · simp [hq]; omega
  · simp [hq]; omega

/-- A merge that runs is two picks and one new internal node over them, in order. -/
theorem mergeStep_ok {s t : State} {out : List Byte} (h : mergeStep s = .ok t out) :
    ∃ a b s1 s2 x y, pick s = .ok (a, s1) ∧ pick s1 = .ok (b, s2) ∧ s2.readNode a = some x ∧
      s2.readNode b = some y ∧ t = addInternal (binary64.add x.prob y.prob) a b s2 ∧ out = [] := by
  unfold mergeStep at h
  split at h
  · cases h
  next a s1 h1 =>
  split at h
  · cases h
  next b s2 h2 =>
  unfold joinNodes at h
  split at h
  · cases h
  · cases h
  next x y hx hy =>
  cases h
  exact ⟨a, b, s1, s2, x, y, h1, h2, hx, hy, rfl, rfl⟩

/-- Each merge strictly reduces the combined queue size by one (rule R167). -/
theorem mergeStep_length {s t : State} {out : List Byte} (h : mergeStep s = .ok t out) :
    t.srcq.length + t.tgtq.length + 1 = s.srcq.length + s.tgtq.length := by
  obtain ⟨a, b, s1, s2, x, y, h1, h2, -, -, rfl, -⟩ := mergeStep_ok h
  have l1 := pick_length h1
  have l2 := pick_length h2
  simp
  omega

end Sys2Proof.Laws
end

