-- ==== Sys2Proof/Laws/PerInstr.lean ====
section
/-! SUPPORT. Statements about every command as syntax, one lemma per constructor. -/

namespace Sys2Proof.Laws.RoundTrip

/-- The decoder reads a well-formed command's own word back as that command (rules R91 and R92). -/
def Statement (i : Instr) : Prop := i.wellFormed = true → decode (encode i) = .command i

theorem clr : Statement .clr := fun _ => by decide
theorem hist : Statement .hist := fun _ => by decide
theorem sort : Statement .sort := fun _ => by decide
theorem build : Statement .build := fun _ => by decide
theorem gen : Statement .gen := fun _ => by decide
theorem enc : Statement .enc := fun _ => by decide
theorem dec : Statement .dec := fun _ => by decide
theorem pack : Statement .pack := fun _ => by decide
theorem unpack : Statement .unpack := fun _ => by decide

end Sys2Proof.Laws.RoundTrip
end

