-- ==== Sys2Proof/Tests/Slice0.lean ====
section
/-! SUPPORT. Tests: the well-formedness smoke tests, words written out bit by bit, and one-step tests with
expected results from 95_test_vectors.md and the rules' worked examples. Then, for every statement with
hypotheses, a witness that meets them together, at a boundary of each clause. -/

namespace Sys2Proof.Tests

open Sys2Proof.Machine Sys2Proof.Claims

/-! ### Helpers -/

/-- A field of the next state. -/
def after {α : Type} (o : Host.Outcome State Fault Refusal) (f : State → α) : Option α :=
  match o with
  | .next t => some (f t)
  | .fault _ => none
  | .refused _ => none

/-- The four error registers. -/
def errors (s : State) : BitVec 4 × Byte × Byte × BitVec 32 := (s.err, s.errcmd, s.errval, s.errpos)

/-- An engine in a phase with a stream on IN. -/
def ready (p : Phase) (stream : List Byte) : State := { State.reset with phase := p, inp := stream }

/-- The session of S1 ("aaab") after each lifecycle command. -/
def counted1 : State :=
  { State.reset with count := [(0x61, 3), (0x62, 1)], total := 4, ndist := 2 }
def sorted1 : State :=
  { counted1 with
    phase := .sorted, nleaf := 2,
    slist := [(0, ⟨0x62, 0x3FD0000000000000⟩), (1, ⟨0x61, 0x3FE8000000000000⟩)] }
def built1 : State :=
  { sorted1 with
    phase := .built, nnode := 3, root := 2, tgtq := [2],
    node := [(0, .leaf 0x62 0x3FD0000000000000), (1, .leaf 0x61 0x3FE8000000000000),
      (2, .internal 0x3FF0000000000000 0 1)] }
def coded1 : State := { built1 with phase := .coded, code := [(0x61, ⟨[true]⟩), (0x62, ⟨[false]⟩)] }

/-- The list of V-BUILD-7 (counts 2, 3, 4, 5 of 14). -/
def sorted7 : State :=
  { State.reset with
    phase := .sorted, nleaf := 4,
    slist := [(0, ⟨0x61, 0x3FC2492492492492⟩), (1, ⟨0x62, 0x3FCB6DB6DB6DB6DB⟩),
      (2, ⟨0x63, 0x3FD2492492492492⟩), (3, ⟨0x64, 0x3FD6DB6DB6DB6DB7⟩)] }

/-- The list of V-BUILD-4 ("mississippi"). -/
def sorted4 : State :=
  { State.reset with
    phase := .sorted, nleaf := 4,
    slist := [(0, ⟨0x6D, 0x3FB745D1745D1746⟩), (1, ⟨0x70, 0x3FC745D1745D1746⟩),
      (2, ⟨0x69, 0x3FD745D1745D1746⟩), (3, ⟨0x73, 0x3FD745D1745D1746⟩)] }

/-- The tree of rule R176 ("abracadabra"). -/
def built3 : State :=
  { State.reset with
    phase := .built, nleaf := 5, nnode := 9, root := 8, tgtq := [8],
    node := [(0, .leaf 0x63 0x3FB745D1745D1746), (1, .leaf 0x64 0x3FB745D1745D1746),
      (2, .leaf 0x62 0x3FC745D1745D1746), (3, .leaf 0x72 0x3FC745D1745D1746),
      (4, .leaf 0x61 0x3FDD1745D1745D17), (5, .internal 0x3FC745D1745D1746 0 1),
      (6, .internal 0x3FD745D1745D1746 2 3), (7, .internal 0x3FE1745D1745D174 5 6),
      (8, .internal 0x3FF0000000000000 4 7)] }

/-! ### Well-formedness: an ill-formed term for each check -/

/-- Rule R91: the reserved bits of 0x12 are not zero. -/
theorem test_reserved_bits_refused :
    (c0Fields 0x12#8).rsvIsZero = false ∧ (c0Fields 0x12#8).wellFormed = false := by decide
/-- Rule R99: 0x00 and 0x0A have no command. -/
theorem test_unassigned_opcodes_refused :
    (c0Fields 0x00#8).opIsAssigned = false ∧ (c0Fields 0x0A#8).opIsAssigned = false := by decide
/-- Rule R106: a character past ASCII has no element. -/
theorem test_non_ascii_literal_refused : (Literal.text [Char.ofNat 233]).wellFormed = false := by decide
/-- Rule R104: a stream literal stands exactly with the commands that read IN. -/
theorem test_line_literals_refused :
    (Line.command .hist none).wellFormed = false ∧
      (Line.command .sort (some (.hex []))).wellFormed = false ∧
      (Line.train (.text [Char.ofNat 233])).wellFormed = false ∧
      (Line.compress (.text [Char.ofNat 233])).wellFormed = false := by decide

/-! ### Words and text -/

/-- Rule R92, each word written out bit by bit. -/
theorem test_words_decode :
    decode 0b00000001#8 = .command .clr ∧ decode 0b00000010#8 = .command .hist ∧
      decode 0b00000011#8 = .command .sort ∧ decode 0b00000100#8 = .command .build ∧
      decode 0b00000101#8 = .command .gen ∧ decode 0b00000110#8 = .command .enc ∧
      decode 0b00000111#8 = .command .dec ∧ decode 0b00001000#8 = .command .pack ∧
      decode 0b00001001#8 = .command .unpack := by decide
/-- V-CMD-3 to V-CMD-6. -/
theorem test_illegal_words_rejected_by_name :
    decode 0x00#8 = .unassignedOpcode 0 ∧ decode 0x0A#8 = .unassignedOpcode 0xA ∧
      decode 0x12#8 = .reservedBits 1 ∧ decode 0xFF#8 = .reservedBits 0xF := by decide
/-- Rule R106: the stream literal `hex` with a comment after it. -/
theorem test_parse_hist :
    parseLine (['H', 'I', 'S', 'T', ' ', 'h', 'e', 'x', openBrace, '6', '1', ' ', '7', 'F', closeBrace,
      ' ', '-', '-']) = some (.command .hist (some (.hex [0x61, 0x7F]))) := by decide
/-- Rule R106: bit tokens. -/
theorem test_parse_pack :
    parseLine (['P', 'A', 'C', 'K', ' ', 'b', 'i', 't', 's', openBrace, '1', '0', closeBrace]) =
      some (.command .pack (some (.bits [true, false]))) := by decide

/-! ### Numerics -/

/-- V-SORT-2, V-BUILD-7 and rule R10. -/
theorem test_ratio_rounds :
    pRatio 1 3 = 0x3FD5555555555555 ∧ pRatio 2 14 = 0x3FC2492492492492 ∧
      pRatio 5 14 = 0x3FD6DB6DB6DB6DB7 ∧ pRatio 0 14 = 0 ∧ pRatio 7 7 = 0x3FF0000000000000 := by
  decide +kernel
/-- V-BUILD-7: one unit in the last place below `p_ratio(5, 14)`; V-BUILD-5: 0.2 + 0.4. -/
theorem test_add_rounds :
    pAdd 0x3FC2492492492492 0x3FCB6DB6DB6DB6DB = 0x3FD6DB6DB6DB6DB6 ∧
      pAdd 0x3FC999999999999A 0x3FD999999999999A = 0x3FE3333333333334 := by decide +kernel

/-! ### One step of each command -/

/-- V-CLR-2. -/
theorem test_clr_clears :
    after (exec .clr { coded1 with pad := 4 }) (fun t => (t.phase, t.total, t.root, t.pad)) =
      some (.count, 0, 0xFF, 0) ∧
      after (exec .clr coded1) (fun t => (t.count, t.code, t.nleaf)) = some ([], [], 0) := by decide
/-- V-CLR-3. -/
theorem test_clr_returns_from_fault :
    after (exec .clr { State.reset with err := 1, errcmd := 0x0A }) errors = some (0, 0, 0, 0) := by
  decide
/-- V-HIST-2. -/
theorem test_hist_counts :
    after (exec .hist (ready .count [0x00, 0x7F, 0x00])) (fun t => (t.count, t.total, t.ndist)) =
      some ([(0, 2), (0x7F, 1)], 3, 2) := by decide
/-- V-HIST-3 and V-HIST-4. -/
theorem test_hist_faults :
    after (exec .hist (ready .count [0x61, 0x80, 0x62])) errors = some (3, 0x02, 0x80, 1) ∧
      after (exec .hist { ready .count [0x61] with
        total := 0xFFFFFFFF, count := [(0x61, 0xFFFFFFFF)], ndist := 1 }) errors =
        some (4, 0x02, 0x61, 0) := by decide
/-- V-SORT-4: a tie on the count broken by ordinal. -/
theorem test_sort_mississippi :
    after (exec .sort { State.reset with
      count := [(0x69, 4), (0x6D, 1), (0x70, 2), (0x73, 4)], total := 11, ndist := 4 })
      (fun t => (t.slist, t.nleaf, t.synth)) = some (sorted4.slist, 4, false) := by decide +kernel
/-- V-SORT-3: the singleton rule wraps ordinal 127 to 0. -/
theorem test_sort_singleton_wraps :
    after (exec .sort { State.reset with count := [(0x7F, 2)], total := 2, ndist := 1 })
      (fun t => (t.slist, t.nleaf, t.synth)) =
      some ([(0, ⟨0x00, 0⟩), (1, ⟨0x7F, 0x3FF0000000000000⟩)], 2, true) := by decide +kernel
/-- V-BUILD-7: the rounded sum is below the leaf, so Target wins the second pick of merge 2. -/
theorem test_build_rounding_decides :
    after (exec .build sorted7) (fun t => (t.readNode 4, t.readNode 5, t.readNode 6, t.root)) =
      some (some (.internal 0x3FD6DB6DB6DB6DB6 0 1), some (.internal 0x3FE4924924924924 2 4),
        some (.internal 0x3FF0000000000000 3 5), 6) := by decide +kernel
/-- V-BUILD-4: the first pick of merge 2 comes from Target and the second from Source. -/
theorem test_build_target_first :
    after (exec .build sorted4) (fun t => (t.readNode 5, t.readNode 6, t.srcq, t.tgtq)) =
      some (some (.internal 0x3FE45D1745D1745D 4 2), some (.internal 0x3FF0000000000000 3 5), [],
        [6]) := by decide +kernel
/-- V-GEN-3 and rule R197. -/
theorem test_gen_abracadabra :
    after (exec .gen built3) (fun t => t.code) =
      some [(0x61, ⟨[false]⟩), (0x62, ⟨[true, true, false]⟩), (0x63, ⟨[true, false, false]⟩),
        (0x64, ⟨[true, false, true]⟩), (0x72, ⟨[true, true, true]⟩)] := by decide
/-- V-GEN-6: a second GEN. -/
theorem test_gen_twice : after (exec .gen coded1) errors = some (2, 0x05, 0, 0) := by decide
/-- V-ENC-1. -/
theorem test_enc_aaab :
    after (exec .enc { coded1 with inp := [0x61, 0x61, 0x61, 0x62] })
      (fun t => (t.bitlen, t.pad, t.results)) = some (4, 4, [.completed .done [0x1E]]) := by decide
/-- V-ENC-4 and V-ENC-13. -/
theorem test_enc_faults :
    after (exec .enc { coded1 with inp := [0x61, 0x62, 0x63] }) errors = some (7, 0x06, 0x63, 2) ∧
      after (exec .enc { coded1 with inp := [0x61, 0x61, 0x61, 0x62], bitcap := some 3 }) errors =
        some (9, 0x06, 0x62, 3) := by decide
/-- V-DEC-13: the fallback, then the walk. -/
theorem test_dec_fallback :
    after (exec .dec { built3 with inp := [0x00, 0x45, 0x6E] })
      (fun t => (t.results, t.padfb, t.pad, t.cur)) =
      some ([.completed .done [0x61, 0x63, 0x61, 0x64, 0x61, 0x62, 0x72, 0x61]], true, 8, 8) := by
  decide
/-- V-DEC-12: the payload ends inside a code. -/
theorem test_dec_ends_inside_code :
    after (exec .dec { built3 with inp := [0xB7, 0x45, 0x6F] }) (fun t => (t.results, t.cur, t.skip)) =
      some ([.completed .done [0x61, 0x62, 0x72, 0x61, 0x63, 0x61, 0x64, 0x61, 0x62, 0x72]], 7,
        false) := by decide
/-- V-PACK-9. -/
theorem test_pack_nine_ones :
    after (exec .pack (ready .count [1, 1, 1, 1, 1, 1, 1, 1, 1])) (fun t => (t.pad, t.results)) =
      some (7, [.completed .done [0x03, 0xFF]]) := by decide
/-- V-PACK-16: the malformed token is checked before the capacity. -/
theorem test_pack_order_of_checks :
    after (exec .pack { ready .count [1, 1, 1, 1, 1, 1, 1, 1, 7] with bitcap := some 8 }) errors =
      some (8, 0x08, 0x07, 8) := by decide
/-- V-UNPACK-5: nine payload bits. -/
theorem test_unpack_nine_zeros :
    after (exec .unpack (ready .count [0x02, 0x00])) (fun t => (t.pad, t.padfb, t.results)) =
      some (7, false, [.completed .done [0, 0, 0, 0, 0, 0, 0, 0, 0]]) := by decide
/-- V-UNPACK-10: the fallback; V-UNPACK-11: no byte. -/
theorem test_unpack_fallback_and_empty :
    after (exec .unpack (ready .count [0x00, 0xAB])) (fun t => (t.pad, t.padfb, t.results)) =
      some (8, true, [.completed .done [1, 0, 1, 0, 1, 0, 1, 1]]) ∧
      after (exec .unpack (ready .count [])) errors = some (10, 0x09, 0, 0) := by decide

/-! ### The step, and what the host asks of it -/

/-- V-CMD-5, through the step. -/
theorem test_step_illegal_word :
    after (step { State.reset with host := [.command 0x12 []] }) errors = some (1, 0x12, 0, 0) := by
  decide
/-- V-REF-1: refused, its stream discarded, the first fault kept. -/
theorem test_step_refuses :
    after (step { State.reset with err := 5, errcmd := 0x03, host := [.command 0x02 [0x61]] })
      (fun t => (errors t, t.inp, t.results)) =
      some ((5, 0x03, 0, 0), [], [.completed .refused []]) := by decide
/-- PRG1: the status word at its end. -/
theorem test_status_word : { coded1 with pad := 4 }.status = 0x00004003 := by decide
/-- A table row runs as the first command after reset (V-CMD-2). -/
theorem test_fetch_word :
    decodeTableWord 8 2 = some .hist ∧
      after (step (State.reset.withFetchWord 8 2)) (fun t => (t.err, t.host, t.results)) =
        some (0, [], [.completed .done []]) := by decide

/-! ### Witnesses: each statement's hypotheses met together -/

theorem witness_ResetInputActsAsClr : { coded1 with host := [.reset] }.host = .reset :: [] := rfl

theorem witness_StepRunsDecodedCommand :
    { coded1 with host := [.command 0x06 [0x61]] }.host = .command 0x06 [0x61] :: [] ∧
      decode 0x06 = .command .enc ∧ Instr.enc.wellFormed = true := by decide

theorem witness_ClrStartsNewSession :
    { State.reset with err := 5 }.err ≠ 0 ∧ Instr.gen ≠ .clr := by decide

/-- The first and last word of each range, and a reserved bit over a valid opcode. -/
theorem witness_IllegalWordRaisesIllegalCommand :
    { State.reset with host := [.command 0x00 []] }.host = .command 0x00 [] :: [] ∧
      State.reset.err = 0 ∧ (0x0A ≤ (0x0A#8).toNat ∧ (0x0A#8).toNat ≤ 0x0F) ∧
      (0x0A ≤ (0x0F#8).toNat ∧ (0x0F#8).toNat ≤ 0x0F) ∧ (0x11#8).extractLsb' 4 4 ≠ 0#4 := by decide

theorem witness_FaultedEngineRefusesAllButClr :
    { State.reset with err := 1, host := [.command 0x02 [0x61], .command 0x00 []] }.host =
        .command 0x02 [0x61] :: [.command 0x00 []] ∧
      { State.reset with err := 1 }.err ≠ 0 ∧ 0x02#8 ≠ 0x01#8 := by decide

theorem witness_WrongPhaseRaisesSequence :
    (ready .sorted []).err = 0 ∧ (ready .sorted []).phase ≠ .count ∧ (ready .count []).phase ≠ .sorted ∧
      (ready .coded []).phase ≠ .built ∧ (ready .built []).phase ≠ .coded ∧
      ((ready .sorted []).phase = .count ∨ (ready .sorted []).phase = .sorted) := by decide

/-- A command that ends `done`, one that faults and one that is refused. -/
theorem witness_EveryCommandAnswersOnce :
    (∃ t, exec .pack (ready .count [1]) = .next t ∧ t.err = 0) ∧
      (∃ t, exec .sort State.reset = .next t ∧ t.err ≠ 0) ∧
      (∃ t, exec .gen { State.reset with err := 5 } = .next t ∧ t.err = 5) :=
  ⟨⟨_, rfl, by decide⟩, ⟨_, rfl, by decide⟩, ⟨_, rfl, by decide⟩⟩

theorem witness_StatusWordLayout : coded1.err = 0 := rfl

theorem witness_SampleReadsStatusOnly : { coded1 with host := [.sample] }.host = .sample :: [] := rfl

/-- The smallest and the largest symbol, and a total that becomes exactly `2^32 - 1`. -/
theorem witness_HistCountsItsStream :
    let s := { ready .count [0x00, 0x7F] with total := 0xFFFFFFFD, count := [(1, 0xFFFFFFFD)], ndist := 1 }
    s.err = 0 ∧ s.phase = .count ∧ (∀ e ∈ s.inp, e.toNat < 128) ∧
      s.total.toNat + s.inp.length ≤ 2 ^ 32 - 1 ∧
      (∀ x < 128, (s.readCount x).toNat ≤ s.total.toNat) := by decide +kernel

theorem witness_HistAccumulates :
    (∃ t1 t2, exec .hist { State.reset with inp := [0x61] } = .next t1 ∧
      exec .hist { t1 with inp := [0x62] } = .next t2 ∧ t2.err = 0) ∧
      (State.reset.err = 0 ∧ State.reset.phase = .count ∧ State.reset.inp = []) :=
  ⟨⟨_, _, rfl, rfl, by decide⟩, by decide⟩

/-- The smallest element out of the alphabet, with `TOTAL` full when it arrives. -/
theorem witness_HistRaisesSymbolRange :
    let s := { ready .count ([0x7F] ++ 0x80 :: [0x00]) with total := 0xFFFFFFFE }
    s.err = 0 ∧ s.phase = .count ∧ s.inp = [0x7F] ++ 0x80 :: [0x00] ∧
      (∀ x ∈ [0x7F#8], x.toNat < 128) ∧ s.total.toNat + [0x7F#8].length ≤ 2 ^ 32 - 1 ∧
      128 ≤ (0x80#8).toNat := by decide

theorem witness_HistRaisesCountOverflow :
    let s := { ready .count ([0x7F] ++ 0x00 :: [0x80]) with total := 0xFFFFFFFE }
    s.err = 0 ∧ s.phase = .count ∧ s.inp = [0x7F] ++ 0x00 :: [0x80] ∧
      (∀ x ∈ [0x7F#8], x.toNat < 128) ∧ (0x00#8).toNat < 128 ∧
      s.total.toNat + [0x7F#8].length = 2 ^ 32 - 1 := by decide

theorem witness_SortDeliversAscendingList :
    counted1.err = 0 ∧ counted1.phase = .count ∧ counted1.total ≠ 0 := by decide

/-- Two counted symbols, and one with the synthetic entry before it. -/
theorem witness_SortOrderIsByCount :
    counted1.err = 0 ∧ counted1.phase = .count ∧ counted1.total ≠ 0 ∧
      (∀ x < 128, (counted1.readCount x).toNat ≤ counted1.total.toNat) ∧
      after (exec .sort counted1) (fun t => (t.synth, (t.readSlist 0).isSome, (t.readSlist 1).isSome)) =
        some (false, true, true) ∧
      let s := { State.reset with count := [(0x7F, 2)], total := 2, ndist := 1 }
      s.err = 0 ∧ s.phase = .count ∧ s.total ≠ 0 ∧
        (∀ x < 128, (s.readCount x).toNat ≤ s.total.toNat) ∧
        after (exec .sort s) (fun t => (t.synth, (t.readSlist 0).isSome, (t.readSlist 1).isSome)) =
          some (true, true, true) := by decide +kernel

/-- The last ordinal, where the synthetic one wraps to 0. -/
theorem witness_SortInjectsSyntheticEntry :
    let s := { State.reset with count := [(0x7F, 2)], total := 2, ndist := 1 }
    s.err = 0 ∧ s.phase = .count ∧ s.total ≠ 0 ∧ s.readCount (0x7F#7).toNat = s.total ∧
      (∀ x < 128, x ≠ (0x7F#7).toNat → s.readCount x = 0) := by decide +kernel

theorem witness_SortRaisesEmptyInput :
    State.reset.err = 0 ∧ State.reset.phase = .count ∧ State.reset.total = 0 := by decide

/-- Two neighbouring counts of the largest total. -/
theorem witness_Binary64MeetsProbLaws :
    (binary64.le 0 0x3FE0000000000000 = true ∧
      binary64.le 0x3FE0000000000000 0x3FF0000000000000 = true) ∧
      (2 ^ 32 - 2 : Nat) < 2 ^ 32 - 1 ∧ (2 ^ 32 - 1 : Nat) ≤ 2 ^ 32 - 1 ∧ (2 ^ 32 - 1 : Nat) < 2 ^ 32 := by
  decide +kernel

theorem witness_RatioRoundsToNearest :
    1 ≤ 3 ∧ 3 < 2 ^ 32 ∧ 1 ≤ 3 ∧ (0x3FD5555555555556#64).toNat < 0x7FF0000000000000 := by decide

/-- A tie: `1 + 2^-53` lies halfway between 1 and the next value. -/
theorem witness_SumRoundsToNearestEven :
    (0x3FF0000000000000#64).toNat < 0x7FD0000000000000 ∧
      (0x3CA0000000000000#64).toNat < 0x7FD0000000000000 ∧
      (0x3FF0000000000001#64).toNat < 0x7FF0000000000000 ∧
      ((units (pAdd 0x3FF0000000000000 0x3CA0000000000000) : Int) -
          (units 0x3FF0000000000000 + units 0x3CA0000000000000 : Nat)).natAbs =
        ((units 0x3FF0000000000001 : Int) -
          (units 0x3FF0000000000000 + units 0x3CA0000000000000 : Nat)).natAbs ∧
      0x3FF0000000000001#64 ≠ pAdd 0x3FF0000000000000 0x3CA0000000000000 := by decide +kernel

theorem witness_RatioEndsAreExact :
    1 ≤ 1 ∧ 1 < 2 ^ 32 ∧ 1 ≤ 2 ^ 32 - 1 ∧ 2 ^ 32 - 1 < 2 ^ 32 := by decide

/-- The four cases of a pick: each queue empty, a tie, and Target smaller. -/
theorem witness_PickPrefersSourceOnTies :
    (({ built1 with srcq := [], tgtq := [2] }.srcq = [] ∧
      { built1 with srcq := [1], tgtq := [] }.tgtq = []) ∧
      { built1 with srcq := [1], tgtq := [1] }.srcq = 1 :: []) ∧
      built1.readNode 1 = some (.leaf 0x61 0x3FE8000000000000) ∧
      built1.readNode 0 = some (.leaf 0x62 0x3FD0000000000000) ∧
      units 0x3FE8000000000000 ≤ units 0x3FE8000000000000 ∧
      units 0x3FD0000000000000 < units 0x3FE8000000000000 := by decide +kernel

theorem witness_MergeCreatesParentOfPicks :
    let s := { built1 with srcq := [0, 1], tgtq := [], nnode := 2 }
    pick s = .ok (0, { s with srcq := [1] }) ∧
      pick { s with srcq := [1] } = .ok (1, { s with srcq := [] }) ∧ s.nnode.toNat < 255 ∧
      s.readNode 0 = some (.leaf 0x62 0x3FD0000000000000) ∧
      s.readNode 1 = some (.leaf 0x61 0x3FE8000000000000) :=
  ⟨rfl, rfl, by decide, by decide, by decide⟩

theorem witness_BuildLeavesFullTree :
    sorted1.err = 0 ∧ sorted1.phase = .sorted ∧ 2 ≤ sorted1.nleaf.toNat ∧ sorted1.nleaf.toNat ≤ 128 ∧
      (∀ i < sorted1.nleaf.toNat, (sorted1.readSlist i).isSome = true) := by decide

/-- The list of V-BUILD-4, with a merge that takes Target first: the
reference joins what the vector joins. -/
theorem witness_BuildMatchesReferenceMerge :
    sorted4.err = 0 ∧ sorted4.phase = .sorted ∧ 2 ≤ sorted4.nleaf.toNat ∧ sorted4.nleaf.toNat ≤ 128 ∧
      (∀ i < sorted4.nleaf.toNat, (sorted4.readSlist i).isSome = true) ∧
      (referenceTree (sortedList sorted4)).drop 4 =
        [.internal 0x3FD1745D1745D174 0 1, .internal 0x3FE45D1745D1745D 4 2,
          .internal 0x3FF0000000000000 3 5] := by decide +kernel

/-- Two sessions with the same list and different histograms and flags. -/
theorem witness_TreeDependsOnListOnly :
    let s2 := { sorted1 with total := 8, padfb := true, node := [(0, .leaf 1 1)] }
    sorted1.nleaf = s2.nleaf ∧ (∀ i, sorted1.readSlist i = s2.readSlist i) ∧
      (∃ t1, exec .build sorted1 = .next t1 ∧ t1.err = 0) ∧
      ∃ t2, exec .build s2 = .next t2 ∧ t2.err = 0 :=
  ⟨rfl, fun _ => rfl, ⟨_, rfl, by decide +kernel⟩, ⟨_, rfl, by decide +kernel⟩⟩

theorem witness_BuildRaisesTooFewLeaves :
    (ready .sorted []).err = 0 ∧ (ready .sorted []).phase = .sorted ∧
      { ready .sorted [] with nleaf := 1 }.nleaf.toNat < 2 := by decide

theorem built1_isTree : IsTree built1 := ⟨by decide, by decide, by decide, by decide, by decide⟩

theorem coded1_isTree : IsTree coded1 := ⟨by decide, by decide, by decide, by decide, by decide⟩

theorem witness_GenGivesLeavesTheirPaths : built1.err = 0 ∧ built1.phase = .built ∧ IsTree built1 :=
  ⟨rfl, rfl, built1_isTree⟩

theorem witness_GeneratedCodesArePrefixFree :
    built1.err = 0 ∧ built1.phase = .built ∧ IsTree built1 ∧
      ∃ t, exec .gen built1 = .next t ∧ (0x61 : Nat) ≠ 0x62 ∧
        t.readCode 0x61 = some ⟨[true]⟩ ∧ t.readCode 0x62 = some ⟨[false]⟩ :=
  ⟨rfl, rfl, built1_isTree, _, rfl, by decide, by decide, by decide⟩

theorem witness_GeneratedCodesFillKraftSum :
    built1.err = 0 ∧ built1.phase = .built ∧ IsTree built1 ∧ ∃ t, exec .gen built1 = .next t :=
  ⟨rfl, rfl, built1_isTree, _, rfl⟩

theorem witness_BitsAndBytesAreInverse :
    [false, false, false, true, true, true, true, false].length % 8 = 0 ∧
      0 < [false, false, false, true, true, true, true, false].length / 8 ∧ 0 < [0x1E#8].length ∧
      7 < 8 := by decide

theorem fits_unbounded {s : State} (h : s.bitcap = none) (n : Nat) : Fits s n := by
  intro c hc; rw [h] at hc; cases hc

theorem fits_exactly {s : State} {n : Nat} (h : s.bitcap = some n) : Fits s n := by
  intro c hc; rw [h] at hc; cases hc; exact Nat.le_refl _

/-- No token, and eight tokens in a buffer of eight bits. -/
theorem witness_PackEmitsPaddedBytes :
    (∃ s : State, s.err = 0 ∧ s.inp = [] ∧ (∀ e ∈ s.inp, IsToken e) ∧ Fits s s.inp.length) ∧
      ∃ s : State, s.err = 0 ∧ s.inp.length = 8 ∧ (∀ e ∈ s.inp, IsToken e) ∧ s.bitcap = some 8 ∧
        Fits s s.inp.length :=
  ⟨⟨State.reset, rfl, rfl, by decide, fits_unbounded rfl _⟩,
    { ready .coded [1, 0, 0, 1, 1, 0, 1, 1] with bitcap := some 8 }, rfl, rfl, by decide, rfl,
    fits_exactly rfl⟩

theorem witness_PackRaisesMalformedBitstring :
    ∃ s : State, s.err = 0 ∧ s.inp = [1] ++ 2 :: [0] ∧ (∀ x ∈ [1#8], IsToken x) ∧ Fits s [1#8].length ∧
      ¬IsToken 2 :=
  ⟨{ ready .count ([1] ++ 2 :: [0]) with bitcap := some 1 }, rfl, rfl, by decide, fits_exactly rfl,
    by decide⟩

/-- A sentinel in the last and in the first bit of the first byte, and none in it. -/
theorem witness_UnpackStripsPadding :
    (ready .count [0x01]).inp ≠ [] ∧ (ready .count [0x80]).inp ≠ [] ∧ (ready .count [0x00]).inp ≠ [] ∧
      (unpackedBits [0x01]).length = 0 ∧ (unpackedBits [0x80]).length = 7 ∧
      (unpackedBits [0x00]).length = 0 ∧ Fits (ready .count [0x00]) 0 :=
  ⟨by decide, by decide, by decide, by decide, by decide, by decide, fun _ h => nomatch h⟩

theorem witness_EmptyStreamIsRaised :
    built1.err = 0 ∧ built1.inp = [] ∧ (built1.phase = .built ∨ built1.phase = .coded) := by decide

/-- One bit too many for each of the four commands. -/
theorem witness_CapacityIsRaised :
    (∃ s : State, s.err = 0 ∧ s.bitcap = some 1 ∧ s.inp = [1] ++ 0 :: [] ∧ (∀ x ∈ [1#8], IsToken x) ∧
      IsToken 0 ∧ [1#8].length = 1) ∧
      (∃ s : State, s.err = 0 ∧ s.bitcap = some 1 ∧ s.phase = .coded ∧ s.inp = [0x61] ++ 0x62 :: [] ∧
        (∀ x ∈ [0x61#8], HasCode s x) ∧ HasCode s 0x62 ∧ (encodedBits s [0x61]).length ≤ 1 ∧
        1 < (encodedBits s [0x61]).length + (codeBits s 0x62).length) ∧
      ∃ s : State, s.err = 0 ∧ s.bitcap = some 1 ∧ s.inp ≠ [] ∧ 1 < (unpackedBits s.inp).length ∧
        (s.phase = .built ∨ s.phase = .coded) :=
  ⟨⟨{ ready .count ([1] ++ 0 :: []) with bitcap := some 1 }, by decide⟩,
    ⟨{ coded1 with bitcap := some 1, inp := [0x61] ++ 0x62 :: [] }, by decide⟩,
    { coded1 with bitcap := some 1, inp := [0x04] }, by decide⟩

theorem witness_PackThenUnpackReturnsBits :
    ∃ s : State, s.err = 0 ∧ (∀ e ∈ s.inp, IsToken e) ∧ s.bitcap = some 3 ∧ Fits s s.inp.length :=
  ⟨{ ready .sorted [1, 0, 1] with bitcap := some 3 }, rfl, by decide, rfl, fits_exactly rfl⟩

/-- A payload that just fits. -/
theorem witness_EncPacksConcatenatedCodes :
    ∃ s : State, s.err = 0 ∧ s.phase = .coded ∧ (∀ e ∈ s.inp, HasCode s e) ∧ s.inp ≠ [] ∧
      Fits s (encodedBits s s.inp).length :=
  ⟨{ coded1 with bitcap := some 2, inp := [0x61, 0x62] }, rfl, rfl, by decide, by decide,
    fits_exactly rfl⟩

/-- The smallest element out of the alphabet, and the largest symbol, without a code. -/
theorem witness_EncRaisesAlphabetMismatch :
    (∃ s : State, s.err = 0 ∧ s.phase = .coded ∧ s.inp = [0x61] ++ 0x80 :: [] ∧
      (∀ x ∈ [0x61#8], HasCode s x) ∧ Fits s (encodedBits s [0x61]).length ∧ 128 ≤ (0x80#8).toNat) ∧
      ∃ s : State, s.err = 0 ∧ s.phase = .coded ∧ s.inp = [] ++ 0x7F :: [] ∧
        s.readCode (0x7F#8).toNat = none :=
  ⟨⟨{ coded1 with inp := [0x61] ++ 0x80 :: [] }, rfl, rfl, rfl, by decide, fits_unbounded rfl _,
      by decide⟩,
    { coded1 with inp := [] ++ 0x7F :: [] }, rfl, rfl, rfl, by decide⟩

/-- Before GEN and after it. -/
theorem witness_DecWalksTreeWithoutFault :
    (∃ s : State, s.err = 0 ∧ s.phase = .built ∧ IsTree s ∧ s.inp ≠ [] ∧
      Fits s (unpackedBits s.inp).length) ∧
      ∃ s : State, s.err = 0 ∧ s.phase = .coded ∧ IsTree s ∧ s.inp ≠ [] ∧
        Fits s (unpackedBits s.inp).length :=
  ⟨⟨{ built1 with inp := [0x00] }, rfl, rfl, built1_isTree, by decide, fits_unbounded rfl _⟩,
    { coded1 with bitcap := some 4, inp := [0x1E] }, rfl, rfl, coded1_isTree, by decide, fits_exactly rfl⟩

/-- The invariants of rule R49 in the session of S1, at each phase. -/
theorem counted1_inv : LifecycleInv counted1 :=
  fun _ => ⟨by decide +kernel, fun h => absurd h (by decide), fun h => absurd h (by decide),
    fun h => absurd h (by decide)⟩
theorem sorted1_inv : LifecycleInv sorted1 :=
  fun _ => ⟨by decide +kernel, fun _ => by decide +kernel, fun h => absurd h (by decide),
    fun h => absurd h (by decide)⟩
theorem built1_inv : LifecycleInv built1 :=
  fun _ => ⟨by decide +kernel, fun _ => by decide +kernel, fun _ => by decide,
    fun h => absurd h (by decide)⟩
theorem coded1_inv : LifecycleInv coded1 :=
  fun _ => ⟨by decide +kernel, fun _ => by decide +kernel, fun _ => by decide, fun _ => by decide +kernel⟩

theorem witness_BuildRaisesTooFewLeaves_invariant :
    sorted1.err = 0 ∧ LifecycleInv sorted1 ∧ ∃ t, exec .build sorted1 = .next t ∧ t.err = 0 :=
  ⟨rfl, sorted1_inv, _, rfl, by decide⟩

theorem witness_DecRecoversConcatenatedCodes :
    ∃ s : State, s.err = 0 ∧ s.phase = .coded ∧ LifecycleInv s ∧ s.inp ≠ [] ∧
      (∀ e ∈ [0x61#8, 0x62#8], HasCode s e) ∧ unpackedBits s.inp = encodedBits s [0x61, 0x62] ∧
      Fits s (unpackedBits s.inp).length :=
  ⟨{ coded1 with host := [], inp := [0x06], results := [] }, rfl, rfl,
    Laws.lifecycleInv_ports coded1_inv _ _ _, by decide, by decide, by decide, fits_unbounded rfl _⟩

theorem witness_EncodeThenDecodeReturnsInput :
    ∃ s : State, s.err = 0 ∧ s.phase = .coded ∧ LifecycleInv s ∧ (∀ e ∈ s.inp, HasCode s e) ∧
      s.inp ≠ [] ∧ Fits s (encodedBits s s.inp).length :=
  ⟨{ coded1 with host := [], inp := [0x61, 0x62], results := [] }, rfl, rfl,
    Laws.lifecycleInv_ports coded1_inv _ _ _, by decide, by decide, fits_unbounded rfl _⟩

theorem witness_StepKeepsLifecycleInvariant :
    ∃ s t : State, s.err = 0 ∧ LifecycleInv s ∧ step s = .next t ∧ t.phase = .built :=
  ⟨{ sorted1 with host := [.command 0x04 []], inp := [], results := [] }, _, rfl,
    Laws.lifecycleInv_ports sorted1_inv _ _ _, rfl, rfl⟩

theorem witness_StepNeverStopsUnderInvariant :
    ∃ s : State, s.err = 0 ∧ s.phase = .coded ∧ s.host = [.command 0x07 [0x1E]] ∧ LifecycleInv s :=
  ⟨{ coded1 with host := [.command 0x07 [0x1E]], inp := [], results := [] }, rfl, rfl, rfl,
    Laws.lifecycleInv_ports coded1_inv _ _ _⟩

theorem coded1_memories : MemoryInv coded1 := by decide

theorem witness_StepKeepsMemoriesCanonical :
    MemoryInv { coded1 with host := [.command 0x08 [1]] } ∧
      ∃ t, step { coded1 with host := [.command 0x08 [1]] } = .next t := ⟨coded1_memories, _, rfl⟩

/-- `ERR` and `PAD` at the ends of their ranges. -/
theorem witness_StepKeepsRegisterRanges :
    let s := { coded1 with err := 10, pad := 8, host := [.command 0x08 [1]] }
    RangeInv s ∧ ∃ t, step s = .next t := ⟨by decide, _, rfl⟩

theorem witness_StepKeepsOutputAllOrNothing :
    let s := { State.reset with
      results := [.completed .done [1], .completed .fault [], .completed .refused [], .sampled 0 0],
      host := [.command 0x08 [1]] }
    (∀ r ∈ s.results, outputOnlyWhenDone r = true) ∧ ∃ t, step s = .next t := ⟨by decide, _, rfl⟩

theorem witness_PhaseMovesForwardOnly :
    (∃ t, exec .build sorted1 = .next t ∧ t.err = 0) ∧ (∃ t, exec .gen built1 = .next t ∧ t.err = 0) ∧
      ∃ t, exec .clr coded1 = .next t ∧ t.err = 0 :=
  ⟨⟨_, rfl, by decide +kernel⟩, ⟨_, rfl, by decide⟩, ⟨_, rfl, by decide⟩⟩

theorem witness_TreeAndTableAreImmutable :
    (∃ t, exec .gen built1 = .next t ∧ t.err = 0) ∧ Instr.gen ≠ .clr ∧
      (built1.phase = .built ∨ built1.phase = .coded) ∧
      (∃ t, exec .enc { coded1 with inp := [0x61] } = .next t ∧ t.err = 0) ∧ coded1.phase = .coded :=
  ⟨⟨_, rfl, by decide⟩, by decide, by decide, ⟨_, rfl, by decide⟩, by decide⟩

theorem witness_CommandsWriteOnlyTheirMemories :
    ∃ t, exec .dec { coded1 with inp := [0x1E] } = .next t ∧ t.err = 0 := ⟨_, rfl, by decide⟩

theorem witness_CommandsWriteOnlyTheirRegisters :
    ∃ t, exec .unpack { coded1 with inp := [0x1E] } = .next t ∧ t.err = 0 := ⟨_, rfl, by decide⟩

end Sys2Proof.Tests
end

section
/-! PROOFS. The probability numerics (00_scope.md, rules R9 and R10): how `units` reads a word back, the
rounding of one quotient, and the four statements about binary64 that follow from them. -/

namespace Sys2Proof.Proofs.Numerics

open Sys2Proof.Machine

/-! ### Rounding to a grid -/

/-- The multiple of `g` that lies nearest to `a`, as a number of grid steps, ties to the even one: the
rounding step of `roundQuotient` on its own. -/
def nearestStep (a g : Nat) : Nat :=
  a / g + if g < 2 * (a % g) ∨ (2 * (a % g) = g ∧ a / g % 2 = 1) then 1 else 0

/-- How far `b` lies from `a`, as the obligations write it. -/
def distance (b a : Nat) : Nat := ((b : Int) - a).natAbs

theorem distance_lt_of_lt {a b c : Nat} (hbc : b < c) (hca : c ≤ a) : distance c a < distance b a := by
  unfold distance; omega

theorem div_le_nearestStep (a g : Nat) : a / g ≤ nearestStep a g := Nat.le_add_right _ _

theorem nearestStep_le (a g : Nat) : nearestStep a g ≤ a / g + 1 := by
  unfold nearestStep; split <;> omega

/-- A multiple of the step is not moved. -/
theorem nearestStep_mul (m : Nat) {g : Nat} (hg : 0 < g) : nearestStep (m * g) g = m := by
  simp [nearestStep, Nat.mul_div_cancel _ hg, hg.ne]

/-- The two multiples of `g` around `a`, and which of them is taken. -/
theorem nearestStep_cases (a g : Nat) :
    a = a / g * g + a % g ∧
      ((nearestStep a g = a / g ∧ (2 * (a % g) < g ∨ 2 * (a % g) = g ∧ a / g % 2 = 0)) ∨
        (nearestStep a g = a / g + 1 ∧ (g < 2 * (a % g) ∨ 2 * (a % g) = g ∧ a / g % 2 = 1))) := by
  refine ⟨(Nat.div_add_mod' a g).symm, ?_⟩
  unfold nearestStep
  split <;> omega

/-- Rounding moves a value by at most half a step. -/
theorem distance_nearestStep_le {g : Nat} (a : Nat) (hg : 0 < g) :
    2 * distance (nearestStep a g * g) a ≤ g := by
  have hr := Nat.mod_lt a hg
  unfold distance
  obtain ⟨ha, ⟨h, hhalf⟩ | ⟨h, hhalf⟩⟩ := nearestStep_cases a g
  · rw [h]; omega
  · have hsucc : (a / g + 1) * g = a / g * g + g := Nat.succ_mul _ _
    rw [h]; omega

/-- Every multiple of `g` other than the one taken is strictly further away, but in a tie, where the one
taken is even. -/
theorem nearestStep_nearest {g m : Nat} (a : Nat) (hg : 0 < g) (hm : m ≠ nearestStep a g) :
    distance (nearestStep a g * g) a < distance (m * g) a ∨
      (distance (nearestStep a g * g) a = distance (m * g) a ∧ nearestStep a g % 2 = 0) := by
  have hr := Nat.mod_lt a hg
  obtain ⟨ha, hcase⟩ := nearestStep_cases a g
  have hside : m = a / g ∨ m = a / g + 1 ∨ m + 1 ≤ a / g ∨ a / g + 2 ≤ m := by omega
  have hbelow : m + 1 ≤ a / g → m * g + g ≤ a / g * g := fun h => by
    simpa [Nat.succ_mul] using Nat.mul_le_mul_right g h
  have habove : a / g + 2 ≤ m → a / g * g + 2 * g ≤ m * g := fun h => by
    simpa [Nat.add_mul] using Nat.mul_le_mul_right g h
  have hsucc : (a / g + 1) * g = a / g * g + g := Nat.succ_mul _ _
  unfold distance
  obtain ⟨h, hhalf⟩ | ⟨h, hhalf⟩ := hcase
  · rw [h] at hm ⊢
    obtain rfl | rfl | hlo | hhi := hside
    · exact absurd rfl hm
    · rw [hsucc]; omega
    · have := hbelow hlo; omega
    · have := habove hhi; omega
  · rw [h] at hm ⊢
    obtain rfl | rfl | hlo | hhi := hside
    · rw [hsucc]; omega
    · exact absurd rfl hm
    · have := hbelow hlo; omega
    · have := habove hhi; omega

/-! ### Reading a word back -/

theorem units_eq (x : P64) :
    units x = if x.toNat / 2 ^ 52 % 2 ^ 11 = 0 then x.toNat % 2 ^ 52
      else (2 ^ 52 + x.toNat % 2 ^ 52) * 2 ^ (x.toNat / 2 ^ 52 % 2 ^ 11 - 1) := by
  simp [units, Nat.shiftRight_eq_div_pow]

/-- The word `k * 2^52 + m` is `m` steps of size `2^k`: `m` keeps its implicit bit in the normal range, and
`m = 2^53`, a carry out of the fraction, is read correctly too. -/
theorem units_of_toNat {x : P64} {k m : Nat} (hx : x.toNat = k * 2 ^ 52 + m) (hk : k < 2046)
    (hm : m ≤ 2 ^ 53) (hnormal : k = 0 ∨ 2 ^ 52 ≤ m) : units x = m * 2 ^ k := by
  rw [units_eq]
  obtain hsub | ⟨hlo, hhi⟩ | hcarry : m < 2 ^ 52 ∨ (2 ^ 52 ≤ m ∧ m < 2 ^ 53) ∨ m = 2 ^ 53 := by omega
  · obtain rfl : k = 0 := by omega
    rw [if_pos (by omega)]; omega
  · have hexpo : x.toNat / 2 ^ 52 % 2 ^ 11 = k + 1 := by omega
    have hfrac : 2 ^ 52 + x.toNat % 2 ^ 52 = m := by omega
    rw [hexpo, hfrac, if_neg (Nat.succ_ne_zero k), Nat.add_sub_cancel]
  · have hexpo : x.toNat / 2 ^ 52 % 2 ^ 11 = k + 2 := by omega
    have hfrac : x.toNat % 2 ^ 52 = 0 := by omega
    rw [hexpo, hfrac, if_neg (by omega), hcarry, Nat.add_sub_assoc (by decide), Nat.pow_succ]
    ring

/-- Every finite non-negative word in that form. -/
theorem exists_step_form {x : P64} (hx : x.toNat < 0x7FF0000000000000) :
    ∃ k m, x.toNat = k * 2 ^ 52 + m ∧ k < 2046 ∧ m < 2 ^ 53 ∧ (k = 0 ∨ 2 ^ 52 ≤ m) ∧
      units x = m * 2 ^ k := by
  obtain hsub | hnormal := Nat.lt_or_ge x.toNat (2 ^ 52)
  · have hform : x.toNat = 0 * 2 ^ 52 + x.toNat := by omega
    exact ⟨0, x.toNat, hform, by decide, by omega, .inl rfl,
      units_of_toNat hform (by decide) (by omega) (.inl rfl)⟩
  · have hform : x.toNat = (x.toNat / 2 ^ 52 - 1) * 2 ^ 52 + (2 ^ 52 + x.toNat % 2 ^ 52) := by omega
    have hfrac : 2 ^ 52 + x.toNat % 2 ^ 52 < 2 ^ 53 := by omega
    exact ⟨_, _, hform, by omega, hfrac, .inr (by omega),
      units_of_toNat hform (by omega) hfrac.le (.inr (by omega))⟩

/-- A number of at most 53 bits at a smaller step size is below every number of 53 bits at a larger one. -/
theorem scaled_lt_scaled {j k m n : Nat} (hjk : j < k) (hm : m < 2 ^ 53) (hn : 2 ^ 52 ≤ n) :
    m * 2 ^ j < n * 2 ^ k :=
  calc m * 2 ^ j < 2 ^ 53 * 2 ^ j := Nat.mul_lt_mul_of_pos_right hm (Nat.two_pow_pos j)
    _ = 2 ^ 52 * 2 ^ (j + 1) := by ring
    _ ≤ n * 2 ^ k := Nat.mul_le_mul hn (Nat.pow_le_pow_right (by decide) hjk)

/-- Two different finite words have different values. -/
theorem units_inj {x y : P64} (hx : x.toNat < 0x7FF0000000000000) (hy : y.toNat < 0x7FF0000000000000)
    (h : units x = units y) : x = y := by
  obtain ⟨k, m, hxform, -, hm, hmnormal, hxunits⟩ := exists_step_form hx
  obtain ⟨l, n, hyform, -, hn, hnnormal, hyunits⟩ := exists_step_form hy
  rw [hxunits, hyunits] at h
  obtain hkl | rfl | hlk := Nat.lt_trichotomy k l
  · exact absurd h (scaled_lt_scaled hkl hm (hnnormal.resolve_left (by omega))).ne
  · obtain rfl := Nat.eq_of_mul_eq_mul_right (Nat.two_pow_pos k) h
    exact BitVec.eq_of_toNat_eq (hxform.trans hyform.symm)
  · exact absurd h (scaled_lt_scaled hlk hn (hmnormal.resolve_left (by omega))).ne'

/-- Where a step size `2^s` cuts the finite values: a word is a multiple of it, or lies below `2^52`
steps. -/
theorem units_multiple_or_below {x : P64} (hx : x.toNat < 0x7FF0000000000000) (s : Nat) :
    (∃ m, units x = m * 2 ^ s) ∨ (0 < s ∧ units x < 2 ^ 52 * 2 ^ s) := by
  obtain ⟨k, m, -, -, hm, -, hunits⟩ := exists_step_form hx
  obtain hks | hsk := Nat.lt_or_ge k s
  · exact .inr ⟨by omega, hunits ▸ scaled_lt_scaled hks hm le_rfl⟩
  · refine .inl ⟨m * 2 ^ (k - s), ?_⟩
    rw [hunits, Nat.mul_assoc, ← Nat.pow_add, Nat.sub_add_cancel hsk]

/-! ### One rounding of a quotient -/

/-- The exponent of the step size at which `roundQuotient a d` rounds. -/
def stepExponent (a d : Nat) : Nat := Nat.log2 (a / d) - 52

/-- That step size, in units of `1 / d`. -/
def stepSize (a d : Nat) : Nat := d * 2 ^ stepExponent a d

theorem roundQuotient_eq (a d : Nat) :
    roundQuotient a d = BitVec.ofNat 64
      (min (stepExponent a d * 2 ^ 52 + nearestStep a (stepSize a d)) infinityWord) := by
  rw [nearestStep, stepSize, ← Nat.add_assoc]; rfl

theorem stepSize_pos {d : Nat} (a : Nat) (hd : 0 < d) : 0 < stepSize a d :=
  Nat.mul_pos hd (Nat.two_pow_pos _)

theorem steps_mul (m a d : Nat) : m * 2 ^ stepExponent a d * d = m * stepSize a d := by
  rw [Nat.mul_assoc, stepSize, Nat.mul_comm d]

/-- The quotient before rounding has at most 53 bits. -/
theorem div_stepSize_lt (a d : Nat) : a / stepSize a d < 2 ^ 53 := by
  rw [stepSize, ← Nat.div_div_eq_div_mul, Nat.div_lt_iff_lt_mul (Nat.two_pow_pos _), ← Nat.pow_add]
  exact Nat.lt_log2_self.trans_le (Nat.pow_le_pow_right (by decide) (by unfold stepExponent; omega))

/-- Rounding up can carry to `2^53`, no further. -/
theorem nearestStep_stepSize_le (a d : Nat) : nearestStep a (stepSize a d) ≤ 2 ^ 53 :=
  (nearestStep_le a _).trans (div_stepSize_lt a d)

/-- The quotient before rounding has 53 bits in the normal range. -/
theorem le_div_stepSize {a d : Nat} (hs : 0 < stepExponent a d) : 2 ^ 52 ≤ a / stepSize a d := by
  have hlog : 52 + stepExponent a d = Nat.log2 (a / d) := by unfold stepExponent at hs ⊢; omega
  have hne : a / d ≠ 0 := by
    intro h; rw [h, Nat.log2_zero] at hlog; omega
  rw [stepSize, ← Nat.div_div_eq_div_mul, Nat.le_div_iff_mul_le (Nat.two_pow_pos _), ← Nat.pow_add, hlog]
  exact Nat.log2_self_le hne

theorem stepExponent_le_of_lt {a d k : Nat} (h : a / d < 2 ^ (53 + k)) : stepExponent a d ≤ k := by
  unfold stepExponent
  obtain hzero | hpos := Nat.eq_zero_or_pos (a / d)
  · rw [hzero, Nat.log2_zero]; omega
  · have := (Nat.log2_lt hpos.ne').2 h
    omega

section Finite

/-! Below, the step is one of a finite value, and so is the next larger one. -/

variable {a d : Nat} (hfinite : stepExponent a d ≤ 2044)
include hfinite

theorem roundQuotient_toNat :
    (roundQuotient a d).toNat = stepExponent a d * 2 ^ 52 + nearestStep a (stepSize a d) := by
  have hstep := nearestStep_stepSize_le a d
  rw [roundQuotient_eq, BitVec.toNat_ofNat, infinityWord]
  omega

theorem roundQuotient_finite : (roundQuotient a d).toNat < 0x7FF0000000000000 := by
  have hstep := nearestStep_stepSize_le a d
  rw [roundQuotient_toNat hfinite]
  omega

theorem units_roundQuotient :
    units (roundQuotient a d) = nearestStep a (stepSize a d) * 2 ^ stepExponent a d := by
  refine units_of_toNat (roundQuotient_toNat hfinite) (by omega) (nearestStep_stepSize_le a d) ?_
  obtain h | h := Nat.eq_zero_or_pos (stepExponent a d)
  · exact .inl h
  · exact .inr ((le_div_stepSize h).trans (div_le_nearestStep _ _))

theorem units_roundQuotient_mul :
    units (roundQuotient a d) * d = nearestStep a (stepSize a d) * stepSize a d := by
  rw [units_roundQuotient hfinite, steps_mul]

/-- Rounding moves a quotient by at most half a step. -/
theorem roundQuotient_error (hd : 0 < d) :
    2 * distance (units (roundQuotient a d) * d) a ≤ stepSize a d := by
  rw [units_roundQuotient_mul hfinite]
  exact distance_nearestStep_le a (stepSize_pos a hd)

/-- Every finite word with another value than the rounded quotient is strictly further from the quotient,
but in a tie, where the rounded quotient has an even significand. -/
theorem roundQuotient_nearest {x : P64} (hd : 0 < d) (hx : x.toNat < 0x7FF0000000000000)
    (hne : units x ≠ units (roundQuotient a d)) :
    distance (units (roundQuotient a d) * d) a < distance (units x * d) a ∨
      (distance (units (roundQuotient a d) * d) a = distance (units x * d) a ∧
        (roundQuotient a d).toNat % 2 = 0) := by
  have hpos := stepSize_pos a hd
  obtain ⟨m, hm⟩ | ⟨hs, hbelow⟩ := units_multiple_or_below hx (stepExponent a d)
  · have hstep : m ≠ nearestStep a (stepSize a d) := by
      rintro rfl; exact hne (hm.trans (units_roundQuotient hfinite).symm)
    have hmul : units x * d = m * stepSize a d := by rw [hm, steps_mul]
    rw [units_roundQuotient_mul hfinite, hmul, roundQuotient_toNat hfinite]
    have := nearestStep_nearest a hpos hstep
    omega
  · -- `x` lies below the multiple of the step size just below the quotient.
    have hlt : units x * d < a / stepSize a d * stepSize a d :=
      calc units x * d < 2 ^ 52 * 2 ^ stepExponent a d * d := Nat.mul_lt_mul_of_pos_right hbelow hd
        _ = 2 ^ 52 * stepSize a d := steps_mul _ a d
        _ ≤ _ := Nat.mul_le_mul_right _ (le_div_stepSize hs)
    have hdown := distance_lt_of_lt hlt (Nat.div_mul_le_self a _)
    left
    rw [units_roundQuotient_mul hfinite]
    by_cases hstep : a / stepSize a d = nearestStep a (stepSize a d)
    · rwa [← hstep]
    · have := nearestStep_nearest a hpos hstep
      omega

theorem roundQuotient_nearest_le {x : P64} (hd : 0 < d) (hx : x.toNat < 0x7FF0000000000000) :
    distance (units (roundQuotient a d) * d) a ≤ distance (units x * d) a := by
  by_cases hvalue : units x = units (roundQuotient a d)
  · rw [hvalue]
  · have := roundQuotient_nearest hfinite hd hx hvalue
    omega

end Finite

/-! ### Ratios: quotients of at most 1.0

Here 1.0 is `2^(52 + k)` units, whose own step is `2^k`; rule R10 is the case `k = 1022`. -/

section Ratio

variable {c t k : Nat}

/-- No ratio passes 1.0, so none is rounded at a larger step than 1.0 is. -/
theorem stepExponent_ratio_le (ht : 1 ≤ t) (hct : c ≤ t) : stepExponent (c * 2 ^ (52 + k)) t ≤ k := by
  refine stepExponent_le_of_lt ?_
  calc c * 2 ^ (52 + k) / t ≤ t * 2 ^ (52 + k) / t := Nat.div_le_div_right (Nat.mul_le_mul_right _ hct)
    _ = 2 ^ (52 + k) := Nat.mul_div_cancel_left _ ht
    _ < 2 ^ (53 + k) := Nat.pow_lt_pow_right (by decide) (by omega)

/-- For totals below `2^32`, rounding moves a ratio by at most `2^-21` of what one more count adds. -/
theorem ratio_error (hk : k ≤ 2044) (ht : 1 ≤ t) (htmax : t < 2 ^ 32) (hct : c ≤ t) :
    2 ^ 21 * distance (units (roundQuotient (c * 2 ^ (52 + k)) t) * t) (c * 2 ^ (52 + k)) ≤
      2 ^ (52 + k) := by
  have hexp : stepExponent (c * 2 ^ (52 + k)) t ≤ k := stepExponent_ratio_le ht hct
  have hhalf := roundQuotient_error (hexp.trans hk) ht
  have hstep : stepSize (c * 2 ^ (52 + k)) t ≤ 2 ^ 32 * 2 ^ k :=
    Nat.mul_le_mul htmax.le (Nat.pow_le_pow_right (by decide) hexp)
  have hone : 2 ^ (52 + k) = 2 ^ 52 * 2 ^ k := Nat.pow_add 2 52 k
  omega

/-- One more count adds more to a ratio than two roundings take away. -/
theorem units_ratio_lt {c1 c2 : Nat} (hk : k ≤ 2044) (hc : c1 < c2) (hct : c2 ≤ t) (ht : t < 2 ^ 32) :
    units (roundQuotient (c1 * 2 ^ (52 + k)) t) < units (roundQuotient (c2 * 2 ^ (52 + k)) t) := by
  have htpos : 1 ≤ t := by omega
  have herror1 := ratio_error hk htpos ht (hc.le.trans hct)
  have herror2 := ratio_error hk htpos ht hct
  have hgap : c1 * 2 ^ (52 + k) + 2 ^ (52 + k) ≤ c2 * 2 ^ (52 + k) :=
    Nat.succ_mul c1 _ ▸ Nat.mul_le_mul_right _ hc
  have hone : 0 < 2 ^ (52 + k) := Nat.two_pow_pos _
  refine Nat.lt_of_mul_lt_mul_right (a := t) ?_
  unfold distance at herror1 herror2
  omega

theorem ratio_zero (ht : 1 ≤ t) : (roundQuotient (0 * 2 ^ (52 + k)) t).toNat = 0 := by
  have hexp : stepExponent 0 t = 0 := by simp [stepExponent]
  rw [Nat.zero_mul, roundQuotient_toNat (by omega), hexp]
  simpa using nearestStep_mul 0 (stepSize_pos 0 ht)

/-- The ratio 1.0 is `2^52` times the step it is rounded at. -/
theorem ratio_self (hk : k ≤ 2044) (ht : 1 ≤ t) :
    (roundQuotient (t * 2 ^ (52 + k)) t).toNat = (k + 1) * 2 ^ 52 := by
  have hexp : stepExponent (t * 2 ^ (52 + k)) t = k := by
    rw [stepExponent, Nat.mul_div_cancel_left _ ht, Nat.log2_two_pow, Nat.add_sub_cancel_left]
  have hsteps : t * 2 ^ (52 + k) = 2 ^ 52 * (t * 2 ^ k) := by ring
  rw [roundQuotient_toNat (hexp.le.trans hk), stepSize, hexp, hsteps,
    nearestStep_mul _ (Nat.mul_pos ht (Nat.two_pow_pos k)), Nat.succ_mul]

end Ratio

/-! ### Sums: quotients of denominator 1 -/

theorem units_lt_of_lt {x : P64} {k : Nat} (hx : x.toNat < (k + 2) * 2 ^ 52) (hk : k ≤ 2044) :
    units x < 2 ^ (53 + k) := by
  obtain ⟨l, m, hform, -, hm, hnormal, hunits⟩ := exists_step_form (x := x) (by omega)
  calc units x = m * 2 ^ l := hunits
    _ < 2 ^ 53 * 2 ^ l := Nat.mul_lt_mul_of_pos_right hm (Nat.two_pow_pos l)
    _ = 2 ^ (53 + l) := (Nat.pow_add 2 53 l).symm
    _ ≤ 2 ^ (53 + k) := Nat.pow_le_pow_right (by decide) (by omega)

/-- A sum of two values is rounded at a step at most one exponent above theirs. -/
theorem stepExponent_sum_le {a b k : Nat} (ha : a < 2 ^ (53 + k)) (hb : b < 2 ^ (53 + k)) :
    stepExponent (a + b) 1 ≤ k + 1 := by
  refine stepExponent_le_of_lt ?_
  calc (a + b) / 1 = a + b := Nat.div_one _
    _ < 2 ^ (53 + k) + 2 ^ (53 + k) := Nat.add_lt_add ha hb
    _ = 2 ^ (53 + (k + 1)) := by ring

/-- A sum of two values in the lower half of the finite range is finite. -/
theorem sum_finite {a b : P64} (ha : a.toNat < 0x7FD0000000000000) (hb : b.toNat < 0x7FD0000000000000) :
    stepExponent (units a + units b) 1 ≤ 2044 :=
  stepExponent_sum_le (k := 2043) (units_lt_of_lt ha (by decide)) (units_lt_of_lt hb (by decide))

/-! ### The statements -/

theorem pRatio_eq (c t : Nat) : pRatio c t = roundQuotient (c * 2 ^ (52 + 1022)) t := by
  simp only [pRatio, Nat.reduceAdd]

/-- Settles O27: both ratios are multiples of the step they are rounded at. -/
theorem ratioEndsAreExact : Obligations.RatioEndsAreExact := by
  intro t ht _
  constructor <;> refine BitVec.eq_of_toNat_eq ?_ <;> rw [pRatio_eq]
  · exact ratio_zero ht
  · rw [ratio_self (by decide) ht]; rfl

/-- Settles O25: `p_ratio` is one rounded quotient, of a ratio that stays finite. -/
theorem ratioRoundsToNearest : Obligations.RatioRoundsToNearest := by
  intro c t x ht _ hct hx
  rw [pRatio_eq]
  have hexp : stepExponent (c * 2 ^ (52 + 1022)) t ≤ 1022 := stepExponent_ratio_le ht hct
  have h := roundQuotient_nearest_le (hexp.trans (by decide)) ht hx
  simpa only [distance, Nat.cast_mul, Nat.cast_pow, Nat.cast_ofNat] using h

/-- Settles O26: `p_add` is one rounded quotient of denominator 1. A second word equally near has another
value, so there is a tie, which went to the even significand. -/
theorem sumRoundsToNearestEven : Obligations.SumRoundsToNearestEven := by
  intro a b x ha hb hx
  have hfinite := sum_finite ha hb
  refine ⟨?_, fun hnear hne => ?_⟩
  · simpa [distance, pAdd] using roundQuotient_nearest_le hfinite Nat.one_pos hx
  · have hvalue := mt (units_inj hx (roundQuotient_finite hfinite)) hne
    obtain hlt | ⟨-, heven⟩ := roundQuotient_nearest hfinite Nat.one_pos hx hvalue
    · refine absurd hnear (Nat.ne_of_lt ?_)
      simpa [distance, pAdd] using hlt
    · exact heven

/-- Settles O24: `p_le` is the order of the numeric values, and a larger count rounds to a larger one. -/
theorem binary64MeetsProbLaws : Obligations.Binary64MeetsProbLaws := by
  simp only [Obligations.Binary64MeetsProbLaws, Prob.lt, binary64, pLe, pRatio_eq, decide_eq_true_eq,
    Bool.not_eq_true', decide_eq_false_iff_not, Nat.not_le]
  exact ⟨fun _ _ => Nat.le_total _ _, fun _ _ _ => Nat.le_trans,
    fun _ _ _ => units_ratio_lt (by decide)⟩

end Sys2Proof.Proofs.Numerics
end

section
/-! PROOFS. What each command writes (10_state.md, rules R20 and R21): the effect of a command that ends
with `ERR = 0`, as a frame that every piece of its pseudocode keeps, and the statements that follow. -/

namespace Sys2Proof.Proofs.Frames

open Sys2Proof.Machine Sys2Proof.Laws

/-! ### The frame of a command -/

/-- `s`, with what the "written by" column of rule R20 lets command `i` write taken from `t`. -/
def overlay (i : Instr) (s t : State) : State :=
  match i with
  | .clr =>
    { t with
      slist := s.slist, node := s.node, bitbuf := s.bitbuf, bitcap := s.bitcap, samples := s.samples,
      host := s.host, inp := s.inp, results := s.results }
  | .hist => { s with total := t.total, ndist := t.ndist, count := t.count }
  | .sort => { s with phase := t.phase, synth := t.synth, nleaf := t.nleaf, slist := t.slist }
  | .build =>
    { s with
      phase := t.phase, nnode := t.nnode, root := t.root, node := t.node, srcq := t.srcq,
      tgtq := t.tgtq }
  | .gen => { s with phase := t.phase, code := t.code }
  | .enc => { s with bitlen := t.bitlen, pad := t.pad, bitbuf := t.bitbuf }
  | .pack => { s with bitlen := t.bitlen, pad := t.pad, bitbuf := t.bitbuf }
  | .unpack => { s with bitlen := t.bitlen, pad := t.pad, padfb := t.padfb, bitbuf := t.bitbuf }
  | .dec =>
    { s with
      bitlen := t.bitlen, pad := t.pad, padfb := t.padfb, bitbuf := t.bitbuf, skip := t.skip,
      cur := t.cur }

/-- From `s` to `t` nothing changed but what command `i` may write. -/
def WritesOnly (i : Instr) (s t : State) : Prop := t = overlay i s t

theorem WritesOnly.refl (i : Instr) (s : State) : WritesOnly i s s := by cases i <;> rfl

theorem WritesOnly.trans {i : Instr} {s t u : State} (hst : WritesOnly i s t) (htu : WritesOnly i t u) :
    WritesOnly i s u := by
  unfold WritesOnly at *
  have hcollapse : overlay i (overlay i s t) u = overlay i s u := by cases i <;> rfl
  rw [← hcollapse, ← hst]
  exact htu

/-- A field that is not in the frame is unchanged. -/
theorem WritesOnly.keeps {α : Type} {i : Instr} {s t : State} (h : WritesOnly i s t) (field : State → α)
    (hfield : ∀ u, field (overlay i s u) = field s) : field t = field s := by
  rw [h]
  exact hfield t

/-- A loop writes only what its steps write. -/
theorem WritesOnly.forEach {α : Type} {i : Instr} {step : α → Nat → State → Effect}
    (h : ∀ e k s t out, step e k s = .ok t out → WritesOnly i s t) {es : List α} {k : Nat} {s t : State}
    {out : List Byte} (hr : forEach step es k s = .ok t out) : WritesOnly i s t :=
  forEach_keeps (P := WritesOnly i s) (fun e k u v o hu hv => hu.trans (h e k u v o hv)) (.refl i s) hr

/-! ### The pieces of the pseudocode -/

theorem histStep_writes {e : Byte} {k : Nat} {s t : State} {out : List Byte}
    (h : histStep e k s = .ok t out) : WritesOnly .hist s t := by
  obtain ⟨-, -, heq⟩ | ⟨-, heq⟩ | ⟨-, -, heq⟩ := histStep_cases e k s <;> rw [heq] at h <;> cases h
  rfl

theorem sortBody_writes {s t : State} {out : List Byte} (h : sortBody s = .ok t out) :
    WritesOnly .sort s t ∧ t.phase = .sorted := by
  unfold sortBody at h
  split at h <;> cases h
  exact ⟨rfl, rfl⟩

theorem pick_writes {s t : State} {n : NodeIx} (h : pick s = .ok (n, t)) : WritesOnly .build s t := by
  obtain ⟨hs, -, rfl⟩ | ⟨ts, -, rfl⟩ := pick_ok h <;> rfl

theorem mergeStep_writes {s t : State} {out : List Byte} (h : mergeStep s = .ok t out) :
    WritesOnly .build s t := by
  obtain ⟨a, b, s1, s2, x, y, h1, h2, -, -, rfl, -⟩ := mergeStep_ok h
  exact ((pick_writes h1).trans (pick_writes h2)).trans rfl

/-- A round of the merge loop that runs: no more than one node was queued and nothing was done, or one
merge was made and the loop went on. -/
theorem mergeLoop_succ_ok {n : Nat} {s t : State} {out : List Byte}
    (h : mergeLoop (n + 1) s = .ok t out) :
    (s.srcq.length + s.tgtq.length ≤ 1 ∧ t = s) ∨
      ∃ u o1 o2, mergeStep s = .ok u o1 ∧ mergeLoop n u = .ok t o2 := by
  rw [mergeLoop] at h
  split at h
  · obtain ⟨u, o1, o2, h1, h2, -⟩ := andThen_eq_ok.mp h
    exact .inr ⟨u, o1, o2, h1, h2⟩
  · cases h
    exact .inl ⟨by omega, rfl⟩

/-- What every merge keeps, the merge loop keeps. -/
theorem mergeLoop_keeps {P : State → Prop} (hstep : ∀ s t o, P s → mergeStep s = .ok t o → P t)
    {n : Nat} {s t : State} {out : List Byte} (hs : P s) (h : mergeLoop n s = .ok t out) : P t := by
  induction n generalizing s out with
  | zero => cases h; exact hs
  | succ n ih =>
    obtain ⟨-, rfl⟩ | ⟨u, o1, o2, h1, h2⟩ := mergeLoop_succ_ok h
    · exact hs
    · exact ih (hstep s u o1 hs h1) h2

theorem mergeLoop_writes {n : Nat} {s t : State} {out : List Byte} (h : mergeLoop n s = .ok t out) :
    WritesOnly .build s t :=
  mergeLoop_keeps (P := WritesOnly .build s) (fun _ _ _ hs hm => hs.trans (mergeStep_writes hm))
    (.refl .build s) h

/-- A `BUILD` that ends without a fault read the list, ran the merge loop over its leaves and entered
BUILT. -/
theorem buildBody_ok {s t : State} {out : List Byte} (h : buildBody s = .ok t out) :
    ∃ entries u o, collect .slist s.readSlist 0 s.nleaf.toNat = .ok entries ∧
      mergeLoop s.nleaf.toNat (loadLeaves entries s) = .ok u o ∧ t = { u with phase := .built } := by
  unfold buildBody at h
  split at h
  · cases h
  split at h
  · cases h
  next entries hentries =>
  obtain ⟨u, o, o', hloop, henter, -⟩ := andThen_eq_ok.mp h
  cases henter
  exact ⟨entries, u, o, hentries, hloop, rfl⟩

theorem buildBody_writes {s t : State} {out : List Byte} (h : buildBody s = .ok t out) :
    WritesOnly .build s t ∧ t.phase = .built := by
  obtain ⟨entries, u, o, -, hloop, rfl⟩ := buildBody_ok h
  have hload : WritesOnly .build s (loadLeaves entries s) := rfl
  exact ⟨(hload.trans (mergeLoop_writes hloop)).trans rfl, rfl⟩

/-- A `GEN` that ends without a fault traversed the whole tree and writes the table it made. -/
theorem genBody_ok {s t : State} {out : List Byte} (h : genBody s = .ok t out) :
    ∃ table, visit s 128 s.root [] [] = .ok table ∧ t = { s with code := table, phase := .coded } := by
  unfold genBody at h
  split at h
  · cases h
  next table htable =>
  cases h
  exact ⟨table, htable, rfl⟩

theorem genBody_writes {s t : State} {out : List Byte} (h : genBody s = .ok t out) :
    WritesOnly .gen s t ∧ t.phase = .coded := by
  obtain ⟨table, -, rfl⟩ := genBody_ok h
  exact ⟨rfl, rfl⟩

theorem encStep_writes {e : Byte} {k : Nat} {s t : State} {out : List Byte}
    (h : encStep e k s = .ok t out) : WritesOnly .enc s t := by
  obtain ⟨c, -, -, heq⟩ | ⟨-, heq⟩ | ⟨c, -, -, heq⟩ := encStep_cases e k s <;>
    rw [heq] at h <;> cases h
  rfl

theorem loadToken_writes {e : Byte} {k : Nat} {s t : State} {out : List Byte}
    (h : loadToken e k s = .ok t out) : WritesOnly .pack s t := by
  obtain ⟨b, -, -, heq⟩ | ⟨-, heq⟩ | ⟨b, -, -, heq⟩ := loadToken_cases e k s <;>
    rw [heq] at h <;> cases h
  rfl

/-- The packing core writes `PAD` alone. -/
theorem packCore_ok {s t : State} {out : List Byte} (h : packCore s = .ok t out) :
    t = { s with pad := t.pad } := by
  unfold packCore at h
  split at h <;> cases h
  rfl

/-- ENC and PACK load the payload element by element and pack it. -/
theorem loadAndPack_writes {i : Instr} {step : Byte → Nat → State → Effect} {s t : State}
    {out : List Byte} (hempty : WritesOnly i s (emptyPayload s))
    (hstep : ∀ e k s t out, step e k s = .ok t out → WritesOnly i s t)
    (hpad : ∀ s p, WritesOnly i s { s with pad := p })
    (h : (forEach step s.inp 0 (emptyPayload s)).andThen packCore = .ok t out) : WritesOnly i s t := by
  obtain ⟨u, o1, o2, hloop, hpack, -⟩ := andThen_eq_ok.mp h
  have hcore : WritesOnly i u t := packCore_ok hpack ▸ hpad u t.pad
  exact (hempty.trans (.forEach hstep hloop)).trans hcore

theorem encBody_writes {s t : State} {out : List Byte} (h : encBody s = .ok t out) :
    WritesOnly .enc s t :=
  loadAndPack_writes rfl (fun _ _ _ _ _ => encStep_writes) (fun _ _ => rfl) h

theorem packBody_writes {s t : State} {out : List Byte} (h : packBody s = .ok t out) :
    WritesOnly .pack s t :=
  loadAndPack_writes rfl (fun _ _ _ _ _ => loadToken_writes) (fun _ _ => rfl) h

/-- An unpacking core that runs through leaves the unpacked payload. -/
theorem unpackCore_ok {s t : State} {out : List Byte} (h : unpackCore s = .ok t out) :
    t = unpacked s := by
  obtain ⟨-, heq⟩ | ⟨-, -, heq⟩ | ⟨-, -, heq⟩ := unpackCore_cases s <;> rw [heq] at h <;> cases h
  rfl

theorem unpackBody_writes {s t : State} {out : List Byte} (h : unpackBody s = .ok t out) :
    WritesOnly .unpack s t := by
  obtain ⟨u, o1, o2, hcore, hemit, -⟩ := andThen_eq_ok.mp h
  unfold emitTokens at hemit
  split at hemit <;> cases hemit
  rw [unpackCore_ok hcore]
  rfl

theorem decBody_writes {s t : State} {out : List Byte} (h : decBody s = .ok t out) :
    WritesOnly .dec s t := by
  obtain ⟨u, o1, o2, hcore, hwalk, -⟩ := andThen_eq_ok.mp h
  have hunpack : WritesOnly .dec s u := by rw [unpackCore_ok hcore]; rfl
  unfold walkPayload at hwalk
  split at hwalk
  · cases hwalk
  · have hstart : WritesOnly .dec u (startWalk u) := rfl
    refine (hunpack.trans hstart).trans (WritesOnly.forEach (fun _ _ v w _ hstep => ?_) hwalk)
    rw [(decStep_ok hstep).1]
    rfl

/-- A command whose pseudocode runs through wrote only what rule R20 lets it write. -/
theorem bodyOf_writes {i : Instr} {s t : State} {out : List Byte} (h : bodyOf i s = .ok t out) :
    WritesOnly i s t := by
  cases i with
  | clr => cases h; rfl
  | hist => exact .forEach (fun _ _ _ _ _ => histStep_writes) h
  | sort => exact (sortBody_writes h).1
  | build => exact (buildBody_writes h).1
  | gen => exact (genBody_writes h).1
  | enc => exact encBody_writes h
  | dec => exact decBody_writes h
  | pack => exact packBody_writes h
  | unpack => exact unpackBody_writes h

/-! ### A command that ends with `ERR = 0` -/

theorem code_ne_zero (c : Cause) : c.code ≠ 0 := by cases c <;> decide

/-- A command that ends with `ERR = 0` ran its pseudocode through; one other than `CLR` was accepted, in a
phase that allows it. -/
theorem exec_done {i : Instr} {s t : State} (h : exec i s = .next t) (ht : t.err = 0) :
    (i ≠ .clr → s.err = 0 ∧ legalIn i s.phase = true) ∧
      ∃ u out, bodyOf i s = .ok u out ∧ t = consumeIn i.readsIn (reply .done out u) := by
  by_cases hi : i = .clr
  · subst hi
    cases h
    exact ⟨fun h => absurd rfl h, _, _, rfl, rfl⟩
  rw [exec_eq_runCommand hi] at h
  by_cases he : s.err = 0
  case neg =>
    rw [runCommand_refused he] at h
    cases h
    exact absurd (by simpa using ht) he
  cases hp : legalIn i s.phase with
  | false =>
    rw [runCommand_sequence he hp] at h
    cases h
    exact absurd (by simpa using ht) (code_ne_zero .sequence)
  | true =>
    rw [runCommand_ready he hp] at h
    cases hb : bodyOf i s with
    | ok u out => rw [hb] at h; cases h; exact ⟨fun _ => ⟨he, rfl⟩, u, out, rfl, rfl⟩
    | raise c v p u => rw [hb] at h; cases h; exact absurd (by simpa using ht) (code_ne_zero c)
    | stop r => rw [hb] at h; cases h

/-! ### The statements -/

/-- Settles O57: every field outside the command's frame is read off the frame. -/
theorem commandsWriteOnlyTheirRegisters : Obligations.CommandsWriteOnlyTheirRegisters := by
  intro i s t h ht
  obtain ⟨-, u, out, hbody, rfl⟩ := exec_done h ht
  have hframe : u = overlay i s u := bodyOf_writes hbody
  rw [hframe]
  cases i <;> simp [overlay]

/-- Settles O54: only SORT, BUILD and GEN write `PHASE`, each from the one phase that allows it. -/
theorem phaseMovesForwardOnly : Obligations.PhaseMovesForwardOnly := by
  intro i s t h ht
  obtain ⟨hlegal, u, out, hbody, rfl⟩ := exec_done h ht
  have hframe : u = overlay i s u := bodyOf_writes hbody
  cases i with
  | clr => cases hbody; exact .inr (.inl ⟨rfl, rfl⟩)
  | sort =>
    have hfrom : s.phase = .count := by simpa [legalIn] using (hlegal (by decide)).2
    exact .inr (.inr (.inl ⟨rfl, hfrom, (sortBody_writes hbody).2⟩))
  | build =>
    have hfrom : s.phase = .sorted := by simpa [legalIn] using (hlegal (by decide)).2
    exact .inr (.inr (.inr (.inl ⟨rfl, hfrom, (buildBody_writes hbody).2⟩)))
  | gen =>
    have hfrom : s.phase = .built := by simpa [legalIn] using (hlegal (by decide)).2
    exact .inr (.inr (.inr (.inr ⟨rfl, hfrom, (genBody_writes hbody).2⟩)))
  | hist | enc | dec | pack | unpack => left; rw [hframe]; simp [overlay]

/-- Settles O55: of the commands that write the tree or the table, BUILD is not legal from BUILT on and
GEN is not legal in CODED. -/
theorem treeAndTableAreImmutable : Obligations.TreeAndTableAreImmutable := by
  intro i s t h ht hclr
  obtain ⟨hlegal, u, out, hbody, rfl⟩ := exec_done h ht
  obtain ⟨-, hphase⟩ := hlegal hclr
  have hframe : u = overlay i s u := bodyOf_writes hbody
  rw [hframe]
  cases i with
  | clr => exact absurd rfl hclr
  | build =>
    have hsorted : s.phase = .sorted := by simpa [legalIn] using hphase
    simp [hsorted]
  | gen =>
    have hbuilt : s.phase = .built := by simpa [legalIn] using hphase
    simp [overlay, hbuilt]
  | hist | sort | enc | dec | pack | unpack => simp [overlay]

end Sys2Proof.Proofs.Frames
end

section
/-! PROOFS. The status word (10_state.md, rule R38), its sampling (rule R344), and the invariants at reset
(rules R49 and R331). -/

namespace Sys2Proof.Proofs.Status

open Sys2Proof.Machine Sys2Proof.Laws

theorem shown_of_no_error {s : State} (h : s.err = 0) {w : Nat} (lo : Nat) (field : BitVec w) :
    s.shown lo field = field := if_pos h

/-- The two bits of `PHASE` spell its place in the lifecycle order (rule R21). -/
theorem phase_bits_eq (p : Phase) : p.bits = BitVec.ofNat 2 p.rank := by cases p <;> rfl

/-- Settles O13: each field is read back from its place in the concatenation. -/
theorem statusWordLayout : Obligations.StatusWordLayout := by
  intro s
  unfold State.status
  refine ⟨?_, ?_, ?_, ?_, fun he => ⟨?_, ?_, ?_, ?_, ?_⟩⟩
  case refine_6 | refine_7 | refine_8 => simp only [shown_of_no_error he, BitVec.getLsbD_append]; simp
  all_goals
    simp (disch := omega) only [BitVec.extractLsb'_append_eq_of_le,
      BitVec.extractLsb'_append_eq_of_add_le, Nat.reduceSub, BitVec.extractLsb'_eq_self]
  · exact shown_of_no_error he 12 s.pad
  · rw [shown_of_no_error he, phase_bits_eq]

/-- Settles O14: a sample appends one response and advances the counter of free values. -/
theorem sampleReadsStatusOnly : Obligations.SampleReadsStatusOnly := by
  intro s rest h
  rw [step, hostMove, h]
  rfl

/-- A new session counts nothing and stands in COUNT, where the other clauses promise nothing. -/
theorem lifecycleInv_clearSession (s : State) : LifecycleInv (clearSession s) := by
  intro _
  refine ⟨?_, ?_, ?_, ?_⟩
  · simp [CountInv, State.readCount]
  all_goals simp [Phase.rank]

/-- Settles O48: the reset state is a new session's, its memories are empty, and `ERR` and `PAD` are 0. -/
theorem invariantsHoldAtReset : Obligations.InvariantsHoldAtReset :=
  ⟨lifecycleInv_clearSession State.reset, by decide, by decide⟩

end Sys2Proof.Proofs.Status
end

section
/-! PROOFS. Clause (a) of rule R49: what HIST keeps of the histogram, `TOTAL` the sum of COUNT and `NDIST`
the number of its non-zero elements (41_frequency_table.md, rule R133). -/

namespace Sys2Proof.Proofs.Histogram

open Sys2Proof.Machine Sys2Proof.Laws

/-! ### Changing one summand of a sum over the alphabet -/

/-- Two sums whose summands differ at one place differ by what they differ there. -/
theorem sum_range_of_one_differs {f g : Nat → Nat} {n x d : Nat} (hx : x < n) (hd : g x = f x + d)
    (h : ∀ y, y ≠ x → g y = f y) :
    ((List.range n).map g).sum = ((List.range n).map f).sum + d := by
  simp only [← List.sum_toFinset _ List.nodup_range, List.toFinset_range]
  have hmem : x ∈ Finset.range n := Finset.mem_range.mpr hx
  have herase : ∑ y ∈ (Finset.range n).erase x, g y = ∑ y ∈ (Finset.range n).erase x, f y :=
    Finset.sum_congr rfl fun y hy => h y (Finset.ne_of_mem_erase hy)
  rw [← Finset.add_sum_erase _ g hmem, ← Finset.add_sum_erase _ f hmem, herase, hd]
  omega

theorem countP_eq_sum {α : Type} (p : α → Bool) (l : List α) :
    l.countP p = (l.map fun x => (p x).toNat).sum := by
  induction l with
  | nil => rfl
  | cons x l ih =>
    rw [List.countP_cons, ih, List.map_cons, List.sum_cons, Nat.add_comm]
    cases p x <;> rfl

/-! ### One symbol counted -/

theorem countInv_congr {s t : State} (h : CountInv s) (hcount : t.count = s.count)
    (htotal : t.total = s.total) (hndist : t.ndist = s.ndist) : CountInv t := by
  simp only [CountInv, readCount_congr hcount, htotal, hndist]
  exact h

/-- No COUNT exceeds `TOTAL` (rule R133). -/
theorem readCount_le_total {s : State} (h : CountInv s) {x : Nat} (hx : x < Config.alpha) :
    (s.readCount x).toNat ≤ s.total.toNat := by
  rw [h.1]
  exact List.le_sum_of_mem (List.mem_map_of_mem (List.mem_range.mpr hx))

theorem ndist_le {s : State} (h : CountInv s) : s.ndist.toNat ≤ Config.alpha := by
  rw [h.2]
  exact List.countP_le_length.trans_eq List.length_range

/-- A non-empty histogram has a non-zero element. -/
theorem ndist_pos {s : State} (h : CountInv s) (ht : s.total ≠ 0) : 1 ≤ s.ndist.toNat := by
  obtain ⟨htotal, hndist⟩ := h
  rw [hndist]
  refine List.countP_pos_iff.mpr (by_contra fun hnone => ht (BitVec.eq_of_toNat_eq ?_))
  rw [htotal]
  refine List.sum_eq_zero fun y hy => ?_
  obtain ⟨x, hx, rfl⟩ := List.mem_map.mp hy
  simp only [bne_iff_ne, ne_eq, not_exists, not_and, not_not] at hnone
  rw [hnone x hx]
  rfl

/-- Counting one more symbol, where `TOTAL` is not full, wraps no register and keeps clause (a). -/
theorem countInv_countSymbol {s : State} (h : CountInv s) {sym : Nat} (hsym : sym < Config.alpha)
    (hfull : s.total.toNat < 2 ^ 32 - 1) : CountInv (countSymbol sym s) := by
  have hle := readCount_le_total h hsym
  have hndist := ndist_le h
  simp only [Config.alpha] at hndist
  have hother : ∀ y, y ≠ sym → (countSymbol sym s).readCount y = s.readCount y := fun y hy => by
    rw [readCount_countSymbol, if_neg hy]
  have hself : ((countSymbol sym s).readCount sym).toNat = (s.readCount sym).toNat + 1 := by
    rw [readCount_countSymbol, if_pos rfl]
    bv_omega
  constructor
  · rw [sum_range_of_one_differs hsym hself fun y hy => by rw [hother y hy], ← h.1, countSymbol_total]
    bv_omega
  · have hnew : ((countSymbol sym s).readCount sym != 0).toNat
        = (s.readCount sym != 0).toNat + if s.readCount sym = 0 then 1 else 0 := by
      have hseen : ((countSymbol sym s).readCount sym != 0) = true :=
        bne_iff_ne.mpr fun h0 => by simp [h0] at hself
      rw [hseen]
      by_cases h0 : s.readCount sym = 0
      · rw [if_pos h0, h0]; rfl
      · rw [if_neg h0, bne_iff_ne.mpr h0, Nat.add_zero]
    rw [countP_eq_sum, sum_range_of_one_differs hsym hnew fun y hy => by rw [hother y hy],
      ← countP_eq_sum, ← h.2, countSymbol_ndist]
    split
    · bv_omega
    · rfl

/-- What HIST counts keeps clause (a). -/
theorem countInv_hist {s t : State} {stream : List Byte} {out : List Byte} (h : CountInv s)
    (hr : forEach histStep stream 0 s = .ok t out) : CountInv t := by
  refine forEach_keeps (P := CountInv) (fun e k u v o hu hv => ?_) h hr
  obtain ⟨hsym, hfull, heq⟩ | ⟨-, heq⟩ | ⟨-, -, heq⟩ := histStep_cases e k u <;>
    rw [heq] at hv <;> cases hv
  exact countInv_countSymbol hu hsym hfull

end Sys2Proof.Proofs.Histogram
end

section
/-! PROOFS. Clause (b) of rule R49: the list that SORT delivers is strictly ascending, with distinct
symbols and `max(NDIST, 2)` entries (41_frequency_table.md, rules R135 to R138). -/

namespace Sys2Proof.Proofs.SortedList

open Sys2Proof.Machine Sys2Proof.Laws Sys2Proof.Claims Sys2Proof.Proofs.Histogram

/-! ### The order of list entries (rule R131) -/

theorem cfLt_iff (a b : Entry) :
    cfLt a b = true ↔ units a.prob < units b.prob ∨
      (units a.prob = units b.prob ∧ a.sym.toNat < b.sym.toNat) := by
  simp only [cfLt, Prob.lt, Prob.eq, binary64, pLe, Bool.or_eq_true, Bool.and_eq_true,
    Bool.not_eq_true', decide_eq_true_eq, decide_eq_false_iff_not]
  omega

theorem cfLt_trans {a b c : Entry} (hab : cfLt a b = true) (hbc : cfLt b c = true) :
    cfLt a c = true := by
  rw [cfLt_iff] at *
  omega

/-- Entries of different symbols are ordered one way or the other. -/
theorem cfLt_of_not_cfLt {a b : Entry} (hsym : a.sym ≠ b.sym) (h : ¬cfLt a b = true) :
    cfLt b a = true := by
  have : a.sym.toNat ≠ b.sym.toNat := fun heq => hsym (BitVec.eq_of_toNat_eq heq)
  rw [cfLt_iff] at *
  omega

/-! ### The sorter (rule R138) -/

theorem insertEntry_perm (e : Entry) (L : List Entry) : (insertEntry e L).Perm (e :: L) := by
  induction L with
  | nil => exact .refl _
  | cons x L ih =>
    rw [insertEntry]
    split
    · exact .refl _
    · exact (ih.cons x).trans (.swap e x L)

theorem sortEntries_perm (L : List Entry) : (sortEntries L).Perm L := by
  induction L with
  | nil => exact .refl _
  | cons e L ih => exact (insertEntry_perm e _).trans (ih.cons e)

/-- Inserting an entry of a new symbol keeps an ascending list ascending. -/
theorem insertEntry_ascending {e : Entry} {L : List Entry}
    (h : L.Pairwise fun a b => cfLt a b = true) (hnew : ∀ x ∈ L, e.sym ≠ x.sym) :
    (insertEntry e L).Pairwise fun a b => cfLt a b = true := by
  induction L with
  | nil => exact List.pairwise_singleton _ e
  | cons x L ih =>
    obtain ⟨hx, hL⟩ := List.pairwise_cons.mp h
    rw [insertEntry]
    split
    · next hlt =>
      refine List.pairwise_cons.mpr ⟨fun y hy => ?_, h⟩
      obtain rfl | hy := List.mem_cons.mp hy
      · exact hlt
      · exact cfLt_trans hlt (hx y hy)
    · next hge =>
      refine List.pairwise_cons.mpr ⟨fun y hy => ?_, ih hL fun y hy => hnew y (.tail x hy)⟩
      obtain rfl | hy := List.mem_cons.mp ((insertEntry_perm e L).mem_iff.mp hy)
      · exact cfLt_of_not_cfLt (hnew x (.head L)) hge
      · exact hx y hy

/-- A list of distinct symbols is sorted into a strictly ascending one. -/
theorem sortEntries_ascending {L : List Entry} (h : (L.map Entry.sym).Nodup) :
    (sortEntries L).Pairwise fun a b => cfLt a b = true := by
  induction L with
  | nil => exact .nil
  | cons e L ih =>
    obtain ⟨hnew, hL⟩ := List.nodup_cons.mp h
    refine insertEntry_ascending (ih hL) fun x hx heq => hnew ?_
    rw [heq]
    exact List.mem_map_of_mem ((sortEntries_perm L).mem_iff.mp hx)

/-! ### The entries before sorting (rules R136 and R137) -/

theorem entryOf_eq_some {s : State} {x : Nat} {e : Entry} (h : entryOf s x = some e) :
    s.readCount x ≠ 0 ∧ e.sym = BitVec.ofNat 7 x := by
  unfold entryOf at h
  split at h
  · cases h
  · cases h
    exact ⟨‹_›, rfl⟩

theorem entryOf_isSome (s : State) (x : Nat) : (entryOf s x).isSome = (s.readCount x != 0) := by
  unfold entryOf
  split
  · next h => rw [h]; rfl
  · next h => exact (bne_iff_ne.mpr h).symm

theorem length_countedEntries (s : State) :
    (countedEntries s).length = (List.range Config.alpha).countP fun x => s.readCount x != 0 := by
  simp only [countedEntries, List.length_filterMap_eq_countP, entryOf_isSome]

theorem nodup_countedEntries (s : State) : ((countedEntries s).map Entry.sym).Nodup := by
  refine List.pairwise_map.mpr (List.pairwise_filterMap.mpr ?_)
  refine List.Pairwise.imp_of_mem ?_ List.nodup_range
  intro x y hx hy hxy a ha b hb heq
  rw [(entryOf_eq_some ha).2, (entryOf_eq_some hb).2] at heq
  have := congrArg BitVec.toNat heq
  simp only [BitVec.toNat_ofNat, List.mem_range, Config.alpha] at this hx hy
  omega

/-- The singleton rule makes a list of one entry one of two and leaves every other as it is. -/
theorem injected_cases (s : State) (L : List Entry) :
    (∃ e, L = [e] ∧ injected s L = [e, syntheticEntry s e]) ∨
      (L.length ≠ 1 ∧ injected s L = L) := by
  match L with
  | [] => exact .inr ⟨by simp, rfl⟩
  | [e] => exact .inl ⟨e, rfl, rfl⟩
  | e :: f :: L => exact .inr ⟨by simp, rfl⟩

theorem length_injected (s : State) {L : List Entry} (h : 1 ≤ L.length) :
    (injected s L).length = max L.length 2 := by
  obtain ⟨e, rfl, heq⟩ | ⟨hne, heq⟩ := injected_cases s L <;> rw [heq]
  · rfl
  · omega

/-- The synthetic symbol is not the observed one. -/
theorem nodup_injected (s : State) {L : List Entry} (h : (L.map Entry.sym).Nodup) :
    ((injected s L).map Entry.sym).Nodup := by
  obtain ⟨e, rfl, heq⟩ | ⟨-, heq⟩ := injected_cases s L <;> rw [heq]
  · simp [syntheticEntry]
  · exact h

/-! ### The list as the engine holds it -/

theorem filterMap_getElem?_range {α : Type} (L : List α) :
    (List.range L.length).filterMap (fun i => L[i]?) = L := by
  induction L with
  | nil => rfl
  | cons x L ih =>
    rw [List.length_cons, List.range_succ_eq_map, List.filterMap_cons, List.filterMap_map]
    exact congrArg (x :: ·) ih

theorem leafSymbols_eq (s : State) : leafSymbols s = (sortedList s).map Entry.sym := by
  rw [leafSymbols, sortedList, List.map_filterMap]

/-- A state whose list memory holds exactly `L`, of `NLEAF` entries. -/
theorem sortedList_of_reads {s : State} {L : List Entry} (hlen : s.nleaf.toNat = L.length)
    (h : ∀ i < L.length, s.readSlist i = L[i]?) : sortedList s = L := by
  rw [sortedList, hlen, List.filterMap_congr fun i hi => h i (List.mem_range.mp hi),
    filterMap_getElem?_range]

theorem sortedInv_congr {s t : State} (h : SortedInv s) (htotal : t.total = s.total)
    (hndist : t.ndist = s.ndist) (hnleaf : t.nleaf = s.nleaf) (hslist : t.slist = s.slist) :
    SortedInv t := by
  have hread : t.readSlist = s.readSlist := funext (readSlist_congr hslist hnleaf)
  simp only [SortedInv, leafSymbols, hread, htotal, hndist, hnleaf] at h ⊢
  exact h

/-- The list that SORT writes is the one that it made, read back. -/
theorem sortedList_written {s : State} {m : Memory Entry} {L : List Entry} (hL : L.length ≤ Config.alpha)
    (hslist : s.slist = Memory.writeList m 0 L) (hnleaf : s.nleaf = BitVec.ofNat 8 L.length) :
    s.nleaf.toNat = L.length ∧ sortedList s = L := by
  have hlen : s.nleaf.toNat = L.length := by
    simp only [Config.alpha] at hL
    rw [hnleaf, BitVec.toNat_ofNat, Nat.mod_eq_of_lt (by omega)]
  refine ⟨hlen, sortedList_of_reads hlen fun i hi => ?_⟩
  rw [State.readSlist, if_pos ⟨hlen ▸ hi, hi.trans_le hL⟩, hslist, read_writeList,
    if_pos (by omega), Nat.sub_zero]

/-- The list that SORT makes of the entries counted. -/
def listOf (s : State) : List Entry := sortEntries (injected s (countedEntries s))

theorem length_listOf {s : State} (h : CountInv s) (ht : s.total ≠ 0) :
    (listOf s).length = max s.ndist.toNat 2 := by
  have hcounted : (countedEntries s).length = s.ndist.toNat := by rw [length_countedEntries, h.2]
  have hpos := ndist_pos h ht
  rw [listOf, (sortEntries_perm _).length_eq, length_injected s (by omega), hcounted]

theorem nodup_listOf (s : State) : ((listOf s).map Entry.sym).Nodup :=
  ((sortEntries_perm _).map _).nodup_iff.mpr (nodup_injected s (nodup_countedEntries s))

theorem listOf_ascending (s : State) : (listOf s).Pairwise fun a b => cfLt a b = true :=
  sortEntries_ascending (nodup_injected s (nodup_countedEntries s))

/-- A `SORT` that ends without a fault had a non-empty histogram and writes its list. -/
theorem sortBody_ok {s t : State} {out : List Byte} (h : sortBody s = .ok t out) :
    s.total ≠ 0 ∧ t = { s with
      synth := t.synth, slist := Memory.writeList s.slist 0 (listOf s),
      nleaf := BitVec.ofNat 8 (listOf s).length, phase := .sorted } := by
  unfold sortBody at h
  split at h
  · cases h
  next ht =>
  cases h
  refine ⟨ht, ?_⟩
  rw [listOf, (sortEntries_perm _).length_eq]

/-- What SORT delivers from a counted histogram meets clauses (a) and (b). -/
theorem sortedInv_sort {s t : State} {out : List Byte} (h : CountInv s) (hr : sortBody s = .ok t out) :
    CountInv t ∧ SortedInv t := by
  obtain ⟨ht, hstate⟩ := sortBody_ok hr
  have hlen := length_listOf h ht
  have hndist := ndist_le h
  simp only [Config.alpha] at hndist
  obtain ⟨hnleaf, hlist⟩ := sortedList_written (s := t) (m := s.slist) (L := listOf s)
    (by rw [hlen]; simp only [Config.alpha]; omega) (by rw [hstate]) (by rw [hstate])
  have htotal : t.total = s.total := by rw [hstate]
  have hndist : t.ndist = s.ndist := by rw [hstate]
  have hsyms : leafSymbols t = (listOf s).map Entry.sym := by rw [leafSymbols_eq, hlist]
  refine ⟨countInv_congr h (by rw [hstate]) htotal hndist, ?_, ?_, ?_, ?_, ?_⟩
  · rw [htotal]; bv_omega
  · rw [hnleaf, hlen, hndist]
  · rw [hsyms, List.length_map, hnleaf]
  · rw [hsyms]; exact nodup_listOf s
  · rw [← sortedList, hlist]; exact listOf_ascending s

end Sys2Proof.Proofs.SortedList
end

section
/-! PROOFS. Clause (c) of rule R49: the two-queue merge makes a tree over the list
(42_tree_builder.md, rules R162 to R167). The merge loop keeps `MergeInv`: each node in use is queued or is
the child of one node, and not both. -/

namespace Sys2Proof.Proofs.MergeTree

open Sys2Proof.Machine Sys2Proof.Laws Sys2Proof.Proofs.Frames

theorem ofNat_toNat_self (n : NodeIx) : BitVec.ofNat 8 n.toNat = n := by simp

theorem toNat_ofNat_self {n : Nat} (h : n < 256) : (BitVec.ofNat 8 n).toNat = n := Nat.mod_eq_of_lt h

/-! ### Internal nodes and the child references -/

theorem isInternalOver_iff {s : State} {n : Nat} :
    isInternalOver s n = true ↔
      ∃ p l r, s.readNode (BitVec.ofNat 8 n) = some (.internal p l r) ∧ l.toNat < n ∧ r.toNat < n := by
  unfold isInternalOver
  split
  · next p l r h => simp [h]
  · next h => simpa using fun p l r hread => absurd hread (h p l r)

theorem childrenOf_internal {s : State} {n : Nat} {p : P64} {l r : NodeIx}
    (h : s.readNode (BitVec.ofNat 8 n) = some (.internal p l r)) : childrenOf s n = [l, r] := by
  unfold childrenOf; rw [h]

theorem childrenOf_leaf {s : State} {n : Nat} {e : Entry}
    (h : s.readNode (BitVec.ofNat 8 n) = some (leafOf e)) : childrenOf s n = [] := by
  unfold childrenOf; rw [h]; rfl

theorem mem_childrenOf {s : State} {n : Nat} {c : NodeIx} (h : c ∈ childrenOf s n) :
    ∃ p l r, s.readNode (BitVec.ofNat 8 n) = some (.internal p l r) ∧ (c = l ∨ c = r) := by
  unfold childrenOf at h
  split at h
  · next p l r hread => exact ⟨p, l, r, hread, by simpa using h⟩
  · cases h

theorem childrenOf_congr {s t : State} {n : Nat}
    (h : t.readNode (BitVec.ofNat 8 n) = s.readNode (BitVec.ofNat 8 n)) :
    childrenOf t n = childrenOf s n := by
  unfold childrenOf; rw [h]

theorem isInternalOver_congr {s t : State} {n : Nat}
    (h : t.readNode (BitVec.ofNat 8 n) = s.readNode (BitVec.ofNat 8 n)) :
    isInternalOver t n = isInternalOver s n := by
  unfold isInternalOver; rw [h]

theorem childRefs_congr {s t : State} (h : ∀ n, t.readNode n = s.readNode n) (hnnode : t.nnode = s.nnode) :
    childRefs t = childRefs s := by
  unfold childRefs
  rw [hnnode]
  exact List.flatMap_congr fun n _ => childrenOf_congr (h _)

theorem treeInv_congr {s t : State} (h : TreeInv s) (hnleaf : t.nleaf = s.nleaf)
    (hslist : t.slist = s.slist) (hnnode : t.nnode = s.nnode) (hnode : t.node = s.node)
    (hroot : t.root = s.root) (hsrcq : t.srcq = s.srcq) (htgtq : t.tgtq = s.tgtq) : TreeInv t := by
  have hlist : t.readSlist = s.readSlist := funext (readSlist_congr hslist hnleaf)
  have hread : t.readNode = s.readNode := funext (readNode_congr hnode hnnode)
  have hint : isInternalOver t = isInternalOver s :=
    funext fun _ => isInternalOver_congr (congrFun hread _)
  have hrefs : childRefs t = childRefs s := childRefs_congr (congrFun hread) hnnode
  simp only [TreeInv, leafMatches, hint, hrefs, hlist, hread, hnleaf, hnnode, hroot, hsrcq, htgtq] at h ⊢
  exact h

/-! ### The two queues as one -/

/-- The nodes still to be merged: Source's, then Target's (rules R43 and R44). -/
def queued (s : State) : List NodeIx := s.srcq ++ s.tgtq

/-- A pick takes one node off the queues and changes nothing else (rule R164). -/
theorem pick_queued {s t : State} {n : NodeIx} (h : pick s = .ok (n, t)) :
    (queued s).Perm (n :: queued t) ∧ t = { s with srcq := t.srcq, tgtq := t.tgtq } := by
  obtain ⟨hs, hq, rfl⟩ | ⟨ts, hq, rfl⟩ := pick_ok h <;> rw [queued, hq]
  · exact ⟨.refl _, rfl⟩
  · exact ⟨List.perm_middle, rfl⟩

/-- A merge takes two nodes `a` and `b` off the queues, which leaves `u`, and adds their parent. -/
theorem mergeStep_adds {s t : State} {out : List Byte} (h : mergeStep s = .ok t out) :
    ∃ a b p u, t = addInternal p a b u ∧ (queued s).Perm (a :: b :: queued u) ∧
      u = { s with srcq := u.srcq, tgtq := u.tgtq } := by
  obtain ⟨a, b, s1, u, x, y, h1, h2, -, -, rfl, -⟩ := mergeStep_ok h
  obtain ⟨hperm1, hframe1⟩ := pick_queued h1
  obtain ⟨hperm2, hframe2⟩ := pick_queued h2
  refine ⟨a, b, _, u, rfl, hperm1.trans (hperm2.cons a), ?_⟩
  rw [hframe1] at hframe2
  exact hframe2

/-! ### The new internal node -/

section AddInternal

variable {s : State} {p : P64} {a b : NodeIx} (hroom : s.nnode.toNat < Config.nodeMax)
include hroom

theorem nnode_addInternal : (addInternal p a b s).nnode.toNat = s.nnode.toNat + 1 := by
  simp only [Config.nodeMax] at hroom
  rw [addInternal_nnode]
  bv_omega

theorem readNode_addInternal_new :
    (addInternal p a b s).readNode (BitVec.ofNat 8 s.nnode.toNat) = some (.internal p a b) := by
  rw [readNode_addInternal hroom, if_pos (ofNat_toNat_self s.nnode)]

theorem readNode_addInternal_old {n : Nat} (hn : n < s.nnode.toNat) :
    (addInternal p a b s).readNode (BitVec.ofNat 8 n) = s.readNode (BitVec.ofNat 8 n) := by
  refine (readNode_addInternal hroom _).trans (if_neg fun heq => ?_)
  have := congrArg BitVec.toNat heq
  simp only [BitVec.toNat_ofNat, Config.nodeMax] at this hroom
  omega

/-- The child references of a merge's new node come after those that stood. -/
theorem childRefs_addInternal : childRefs (addInternal p a b s) = childRefs s ++ [a, b] := by
  unfold childRefs
  rw [nnode_addInternal hroom, List.range_succ, List.flatMap_append]
  congr 1
  · refine List.flatMap_congr fun n hn => childrenOf_congr ?_
    exact readNode_addInternal_old hroom (List.mem_range.mp hn)
  · rw [List.flatMap_singleton, childrenOf_internal (readNode_addInternal_new hroom)]

end AddInternal

theorem queued_addInternal (p : P64) (a b : NodeIx) (s : State) :
    queued (addInternal p a b s) = queued s ++ [s.nnode] := by
  simp [queued]

/-! ### The invariant of the merge loop -/

/-- What holds between two merges over the list `L` (rules R162 to R167): leaves first, then internal nodes
over lower ones; as many nodes in use and queued as there will be merges; each node in use queued or a
child, once; and after a merge the newest node is the root, last in Target. -/
structure MergeInv (L : List Entry) (s : State) : Prop where
  leaves_le : L.length ≤ s.nnode.toNat
  balance : s.nnode.toNat + (queued s).length = 2 * L.length
  queued_pos : 1 ≤ (queued s).length
  leaf : ∀ i < L.length, s.readNode (BitVec.ofNat 8 i) = (L[i]?).map leafOf
  internal : ∀ n < s.nnode.toNat, L.length ≤ n → isInternalOver s n = true
  once : ∀ n : NodeIx,
    (childRefs s).count n + (queued s).count n = if n.toNat < s.nnode.toNat then 1 else 0
  newest : L.length < s.nnode.toNat → s.root.toNat + 1 = s.nnode.toNat ∧ s.tgtq.getLast? = some s.root

/-- A queued node is in use. -/
theorem MergeInv.lt_nnode_of_queued {L : List Entry} {s : State} (h : MergeInv L s) {n : NodeIx}
    (hn : n ∈ queued s) : n.toNat < s.nnode.toNat := by
  by_contra hout
  have honce := h.once n
  rw [if_neg hout] at honce
  have := List.count_pos_iff.mpr hn
  omega

/-- Source starts with the index of each leaf, once (rule R163). -/
theorem count_leafIndices {k : Nat} (hk : k ≤ 256) (n : NodeIx) :
    ((List.range k).map (BitVec.ofNat 8)).count n = if n.toNat < k then 1 else 0 := by
  have hnodup : ((List.range k).map (BitVec.ofNat 8)).Nodup := by
    refine List.Nodup.map_on (fun x hx y hy heq => ?_) List.nodup_range
    rw [List.mem_range] at hx hy
    have := congrArg BitVec.toNat heq
    rwa [toNat_ofNat_self (by omega), toNat_ofNat_self (by omega)] at this
  have hmem : n ∈ (List.range k).map (BitVec.ofNat 8) ↔ n.toNat < k := by
    simp only [List.mem_map, List.mem_range]
    constructor
    · rintro ⟨i, hi, rfl⟩
      exact (Nat.mod_le _ _).trans_lt hi
    · exact fun hn => ⟨n.toNat, hn, ofNat_toNat_self n⟩
  rw [hnodup.count]
  simp only [hmem]

/-- Steps 1 and 2 of BUILD: the leaves stand in Source, and no node is a child (rules R162 and R163). -/
theorem mergeInv_loadLeaves {s : State} {L : List Entry} (hlen : s.nleaf.toNat = L.length)
    (hpos : 1 ≤ L.length) : MergeInv L (loadLeaves L s) := by
  have hlt : L.length < 2 ^ 8 := hlen ▸ s.nleaf.isLt
  have hnnode : (loadLeaves L s).nnode.toNat = L.length := hlen
  have hqueued : queued (loadLeaves L s) = (List.range L.length).map (BitVec.ofNat 8) := by
    simp [queued, hlen]
  have hleaf : ∀ i < L.length, (loadLeaves L s).readNode (BitVec.ofNat 8 i) = (L[i]?).map leafOf := by
    intro i hi
    rw [State.readNode, toNat_ofNat_self (by omega), hnnode, if_pos hi, loadLeaves_node, read_writeList,
      if_pos (by simpa using hi), Nat.sub_zero, List.getElem?_map]
  have hnone : childRefs (loadLeaves L s) = [] := by
    refine List.flatMap_eq_nil_iff.mpr fun i hi => ?_
    rw [hnnode, List.mem_range] at hi
    refine childrenOf_leaf (e := L[i]) ?_
    rw [hleaf i hi, List.getElem?_eq_getElem hi, Option.map_some]
  refine ⟨hnnode.ge, ?_, ?_, hleaf, ?_, fun n => ?_, ?_⟩
  · rw [hqueued, hnnode, List.length_map, List.length_range]; omega
  · rw [hqueued, List.length_map, List.length_range]; exact hpos
  · intro n hn hge; omega
  · rw [hnone, hqueued, hnnode, count_leafIndices hlt.le, List.count_nil, Nat.zero_add]
  · intro hlt'; omega

/-- One merge keeps the invariant. -/
theorem mergeInv_mergeStep {L : List Entry} {s t : State} {out : List Byte} (hL : L.length ≤ 128)
    (h : MergeInv L s) (hm : mergeStep s = .ok t out) : MergeInv L t := by
  obtain ⟨a, b, p, u, rfl, hperm, hframe⟩ := mergeStep_adds hm
  have hnnode : u.nnode = s.nnode := by rw [hframe]
  have hread : ∀ n, u.readNode n = s.readNode n := readNode_congr (by rw [hframe]) hnnode
  have hrefs : childRefs u = childRefs s := childRefs_congr hread hnnode
  have hlen : (queued s).length = (queued u).length + 2 := hperm.length_eq
  have hin : ∀ c ∈ queued s, c.toNat < u.nnode.toNat := fun c hc => by
    rw [hnnode]; exact h.lt_nnode_of_queued hc
  obtain ⟨hle, hbal, -, hleaf, hint, honce, -⟩ := h
  have hroom : u.nnode.toNat < Config.nodeMax := by
    simp only [hnnode, Config.nodeMax]; omega
  have hnew := nnode_addInternal (p := p) (a := a) (b := b) hroom
  refine ⟨?_, ?_, ?_, fun i hi => ?_, fun n hn hge => ?_, fun n => ?_, fun _ => ?_⟩
  · rw [hnew, hnnode]; omega
  · rw [hnew, hnnode, queued_addInternal, List.length_append, List.length_singleton]; omega
  · rw [queued_addInternal, List.length_append, List.length_singleton]; omega
  · rw [readNode_addInternal_old hroom (by rw [hnnode]; omega), hread, hleaf i hi]
  · rw [hnew] at hn
    by_cases heq : n = u.nnode.toNat
    · rw [heq]
      exact isInternalOver_iff.mpr ⟨p, a, b, readNode_addInternal_new hroom,
        hin a (hperm.mem_iff.mpr (by simp)), hin b (hperm.mem_iff.mpr (by simp))⟩
    · rw [isInternalOver_congr (readNode_addInternal_old hroom (by omega)),
        isInternalOver_congr (hread _)]
      exact hint n (by rw [← hnnode]; omega) hge
  · have := honce n
    rw [childRefs_addInternal hroom, queued_addInternal, hrefs, hnew]
    rw [hperm.count_eq] at this
    have hself : (s.nnode == n) = true ↔ n.toNat = s.nnode.toNat := by
      rw [beq_iff_eq]
      exact ⟨fun heq => by rw [heq], fun heq => (BitVec.eq_of_toNat_eq heq).symm⟩
    simp only [List.count_append, List.count_cons, List.count_nil, hnnode, hself] at this ⊢
    split_ifs at this ⊢ <;> omega
  · exact ⟨by rw [hnew]; rfl, by simp⟩

/-- The merge loop ends with one node queued (rule R167). -/
theorem mergeLoop_queued {n : Nat} {s t : State} {out : List Byte} (h : mergeLoop n s = .ok t out)
    (hn : (queued s).length ≤ n + 1) : (queued t).length ≤ 1 := by
  induction n generalizing s out with
  | zero => cases h; exact hn
  | succ n ih =>
    obtain ⟨hone, rfl⟩ | ⟨u, o1, o2, h1, h2⟩ := mergeLoop_succ_ok h
    · rw [queued, List.length_append]; exact hone
    · have := mergeStep_length h1
      refine ih h2 ?_
      simp only [queued, List.length_append] at hn ⊢
      omega

/-! ### The tree -/

/-- With one node queued the invariant says that the nodes form a tree: the queued node is the root. -/
theorem treeInv_of_mergeInv {L : List Entry} {s : State} (h : MergeInv L s) (hone : (queued s).length ≤ 1)
    (hnleaf : s.nleaf.toNat = L.length) (hL : 2 ≤ L.length)
    (hlist : ∀ i < L.length, s.readSlist i = L[i]?) : TreeInv s := by
  obtain ⟨-, hbal, hpos, hleaf, hint, honce, hnewest⟩ := h
  have hnnode : s.nnode.toNat + 1 = 2 * L.length := by omega
  obtain ⟨hroot, hlast⟩ := hnewest (by omega)
  obtain ⟨rest, htgtq⟩ := List.getLast?_eq_some_iff.mp hlast
  have hqueued : queued s = s.srcq ++ rest ++ [s.root] := by rw [queued, htgtq, List.append_assoc]
  have hempty : s.srcq ++ rest = [] := by
    rw [hqueued, List.length_append, List.length_singleton] at hone
    exact List.length_eq_zero_iff.mp (by omega)
  obtain ⟨hsrcq, rfl⟩ := List.append_eq_nil_iff.mp hempty
  refine ⟨by omega, by omega, fun i hi => ?_, fun n hn hge => hint n hn (hnleaf ▸ hge), fun n hn => ?_,
    hsrcq, htgtq⟩
  · rw [hnleaf] at hi
    rw [leafMatches, hleaf i hi, hlist i hi]
  · have hcount := honce (BitVec.ofNat 8 n)
    have hne : s.root ≠ BitVec.ofNat 8 n := fun heq => by
      rw [heq, toNat_ofNat_self (by omega)] at hn
      exact absurd hn (lt_irrefl n)
    rw [hqueued, hempty, List.nil_append, List.count_singleton, if_neg (mt beq_iff_eq.mp hne),
      toNat_ofNat_self (by omega), if_pos (show n < s.nnode.toNat by omega)] at hcount
    exact hcount

/-- What BUILD makes of a list of at least two entries meets clause (c). -/
theorem treeInv_build {s t : State} {out : List Byte} (hlow : 2 ≤ s.nleaf.toNat)
    (hhigh : s.nleaf.toNat ≤ 128) (hr : buildBody s = .ok t out) : TreeInv t := by
  obtain ⟨L, u, o, hcollect, hloop, rfl⟩ := buildBody_ok hr
  obtain ⟨hlen, hread⟩ := collect_eq_ok.mp hcollect
  have hload : WritesOnly .build s (loadLeaves L s) := rfl
  have hframe := hload.trans (mergeLoop_writes hloop)
  have hnleaf : u.nleaf = s.nleaf := hframe.keeps State.nleaf fun _ => rfl
  have hslist : u.slist = s.slist := hframe.keeps State.slist fun _ => rfl
  have hinv : MergeInv L u :=
    mergeLoop_keeps (P := MergeInv L) (fun _ _ _ hs hm => mergeInv_mergeStep (hlen ▸ hhigh) hs hm)
      (mergeInv_loadLeaves hlen.symm (by omega)) hloop
  have hone : (queued u).length ≤ 1 := mergeLoop_queued hloop (by simp [queued])
  refine treeInv_congr (s := u) (treeInv_of_mergeInv hinv hone ?_ (by omega) fun i hi => ?_)
    rfl rfl rfl rfl rfl rfl rfl
  · rw [hnleaf, hlen]
  · rw [readSlist_congr hslist hnleaf, ← hread i (by omega), Nat.zero_add]

end Sys2Proof.Proofs.MergeTree
end

section
/-! PROOFS. Clause (d) of rule R49: the table that GEN makes of a tree (43_code_table.md, rules R191 to
R195). A code is a path to a leaf; every leaf of a tree is reached; and no path goes on from a leaf. -/

namespace Sys2Proof.Proofs.CodeTable

open Sys2Proof.Machine Sys2Proof.Laws Sys2Proof.Proofs.MergeTree

theorem lt_nnode_of_readNode {s : State} {n : NodeIx} {x : Node} (h : s.readNode n = some x) :
    n.toNat < s.nnode.toNat := by
  by_contra hout
  rw [State.readNode, if_neg hout] at h
  cases h

/-! ### Paths to leaves -/

/-- The bits lead from node `n` to a leaf of `sym` (rule R192). -/
def LeafPath (s : State) (n : NodeIx) (bits : List Bit) (sym : Sym) : Prop :=
  ∃ m p, walk s n bits = some m ∧ s.readNode m = some (.leaf sym p)

theorem walk_internal {s : State} {n l r : NodeIx} {p : P64} (h : s.readNode n = some (.internal p l r))
    (b : Bit) (bits : List Bit) : walk s n (b :: bits) = walk s (if b then r else l) bits := by
  rw [walk, h]

/-- From a leaf no path goes on. -/
theorem walk_leaf {s : State} {n : NodeIx} {sym : Sym} {p : P64} (h : s.readNode n = some (.leaf sym p))
    (b : Bit) (bits : List Bit) : walk s n (b :: bits) = none := by
  rw [walk, h]

theorem walk_cons_eq_some {s : State} {n m : NodeIx} {b : Bit} {bits : List Bit}
    (h : walk s n (b :: bits) = some m) :
    ∃ p l r, s.readNode n = some (.internal p l r) ∧ walk s (if b then r else l) bits = some m := by
  rw [walk] at h
  split at h
  · next p l r hread => exact ⟨p, l, r, hread, h⟩
  · cases h

/-- A path to an internal node goes on to its children. -/
theorem walk_snoc {s : State} {n m l r : NodeIx} {p : P64} {bits : List Bit}
    (hwalk : walk s n bits = some m) (hread : s.readNode m = some (.internal p l r)) (b : Bit) :
    walk s n (bits ++ [b]) = some (if b then r else l) := by
  induction bits generalizing n with
  | nil =>
    cases hwalk
    rw [List.nil_append, walk_internal hread]
    rfl
  | cons c bits ih =>
    obtain ⟨q, l', r', hnode, hrest⟩ := walk_cons_eq_some hwalk
    rw [List.cons_append, walk_internal hnode, ih hrest]

theorem leafPath_leaf {s : State} {n : NodeIx} {x : Sym} {p : P64} (h : s.readNode n = some (.leaf x p))
    {bits : List Bit} {sym : Sym} : LeafPath s n bits sym ↔ bits = [] ∧ x = sym := by
  constructor
  · rintro ⟨m, q, hwalk, hread⟩
    cases bits with
    | nil =>
      cases hwalk
      rw [h] at hread
      cases hread
      exact ⟨rfl, rfl⟩
    | cons b bits => rw [walk_leaf h] at hwalk; cases hwalk
  · rintro ⟨rfl, rfl⟩
    exact ⟨n, p, rfl, h⟩

theorem leafPath_internal_cons {s : State} {n l r : NodeIx} {p : P64}
    (h : s.readNode n = some (.internal p l r)) {b : Bit} {bits : List Bit} {sym : Sym} :
    LeafPath s n (b :: bits) sym ↔ LeafPath s (if b then r else l) bits sym := by
  unfold LeafPath
  rw [walk_internal h]

theorem not_leafPath_internal_nil {s : State} {n l r : NodeIx} {p : P64}
    (h : s.readNode n = some (.internal p l r)) {sym : Sym} : ¬LeafPath s n [] sym := by
  rintro ⟨m, q, hwalk, hread⟩
  cases hwalk
  rw [h] at hread
  cases hread

theorem leadsTo_iff {s : State} {bits : List Bit} {sym : Sym} :
    leadsTo s bits sym = true ↔ LeafPath s s.root bits sym := by
  unfold leadsTo isLeafOf LeafPath
  cases walk s s.root bits with
  | none => simp
  | some n =>
    cases hread : s.readNode n with
    | none => simp [hread]
    | some x => cases x <;> simp [hread]

theorem leafPath_congr {s t : State} (h : ∀ n, t.readNode n = s.readNode n) {n : NodeIx} {bits : List Bit}
    {sym : Sym} : LeafPath t n bits sym ↔ LeafPath s n bits sym := by
  simp only [LeafPath, walk_congr h, h]

/-- A path to a leaf does not begin a path to another leaf (rule R195). -/
theorem eq_of_leafPath_isPrefix {s : State} {n : NodeIx} {x y : List Bit} {a b : Sym}
    (ha : LeafPath s n x a) (hb : LeafPath s n y b) (hpre : x <+: y) : a = b := by
  induction x generalizing n y with
  | nil =>
    obtain ⟨m, p, hwalk, hread⟩ := ha
    cases hwalk
    exact ((leafPath_leaf hread).mp hb).2
  | cons c x ih =>
    obtain ⟨y', rfl, hrest⟩ := List.cons_prefix_iff.mp hpre
    have ⟨m, q, hwalk, _⟩ := ha
    obtain ⟨p, l, r, hread, -⟩ := walk_cons_eq_some hwalk
    exact ih ((leafPath_internal_cons hread).mp ha) ((leafPath_internal_cons hread).mp hb) hrest

/-! ### The traversal (rule R192) -/

/-- A traversal that runs through wrote a leaf's code, or traversed the two children in order. -/
theorem visit_ok {s : State} {d : Nat} {n : NodeIx} {path : List Bit} {table table' : Memory CodeWord}
    (h : visit s (d + 1) n path table = .ok table') :
    (∃ sym p, s.readNode n = some (.leaf sym p) ∧ table' = Memory.write table sym.toNat ⟨path⟩) ∨
      ∃ p l r mid, s.readNode n = some (.internal p l r) ∧
        visit s d l (path ++ [false]) table = .ok mid ∧
        visit s d r (path ++ [true]) mid = .ok table' := by
  rw [visit] at h
  split at h
  · cases h
  · next sym p hread => cases h; exact .inl ⟨sym, p, hread, rfl⟩
  · next p l r hread =>
    split at h
    · cases h
    · next mid hmid => exact .inr ⟨p, l, r, mid, hread, hmid, h⟩

/-- `c` is the code of symbol `x`, with a leaf below node `n`: the path to `n`, then fewer than `d` bits. -/
def CodeBelow (s : State) (d : Nat) (n : NodeIx) (path : List Bit) (x : Nat) (c : CodeWord) : Prop :=
  ∃ bits sym, c.bits = path ++ bits ∧ bits.length < d ∧ sym.toNat = x ∧ LeafPath s n bits sym

theorem codeBelow_of_child {s : State} {d : Nat} {n l r : NodeIx} {p : P64} {path : List Bit} {x : Nat}
    {c : CodeWord} (hread : s.readNode n = some (.internal p l r)) (b : Bit)
    (h : CodeBelow s d (if b then r else l) (path ++ [b]) x c) : CodeBelow s (d + 1) n path x c := by
  obtain ⟨bits, sym, hbits, hlen, hsym, hpath⟩ := h
  refine ⟨b :: bits, sym, ?_, Nat.succ_lt_succ hlen, hsym, (leafPath_internal_cons hread).mpr hpath⟩
  rw [hbits, List.append_assoc, List.singleton_append]

/-- A code in the table was there before, or is the path to a leaf below the node, within the depth. -/
theorem visit_sound {s : State} {d : Nat} {n : NodeIx} {path : List Bit} {table table' : Memory CodeWord}
    (h : visit s d n path table = .ok table') {x : Nat} {c : CodeWord}
    (hc : Memory.read table' x = some c) :
    Memory.read table x = some c ∨ CodeBelow s d n path x c := by
  induction d generalizing n path table table' with
  | zero => cases h
  | succ d ih =>
    obtain ⟨sym, p, hread, rfl⟩ | ⟨p, l, r, mid, hread, hl, hr⟩ := visit_ok h
    · rw [read_write] at hc
      split at hc
      · next hx =>
        cases hc
        exact .inr ⟨[], sym, (List.append_nil path).symm, Nat.succ_pos d, hx.symm,
          (leafPath_leaf hread).mpr ⟨rfl, rfl⟩⟩
      · exact .inl hc
    · obtain hmid | hbelow := ih hr hc
      · exact (ih hl hmid).imp_right (codeBelow_of_child hread false)
      · exact .inr (codeBelow_of_child hread true hbelow)

/-- A traversal invalidates no code. -/
theorem visit_keeps {s : State} {d : Nat} {n : NodeIx} {path : List Bit} {table table' : Memory CodeWord}
    (h : visit s d n path table = .ok table') {x : Nat} (hx : (Memory.read table x).isSome = true) :
    (Memory.read table' x).isSome = true := by
  induction d generalizing n path table table' with
  | zero => cases h
  | succ d ih =>
    obtain ⟨sym, p, -, rfl⟩ | ⟨p, l, r, mid, -, hl, hr⟩ := visit_ok h
    · rw [read_write]
      split
      · rfl
      · exact hx
    · exact ih hr (ih hl hx)

/-- Every leaf below the node gets a code. -/
theorem visit_complete {s : State} {d : Nat} {n : NodeIx} {path : List Bit}
    {table table' : Memory CodeWord} (h : visit s d n path table = .ok table') {bits : List Bit}
    {sym : Sym} (hpath : LeafPath s n bits sym) : (Memory.read table' sym.toNat).isSome = true := by
  induction d generalizing n path table table' bits with
  | zero => cases h
  | succ d ih =>
    obtain ⟨x, p, hread, rfl⟩ | ⟨p, l, r, mid, hread, hl, hr⟩ := visit_ok h
    · obtain ⟨-, rfl⟩ := (leafPath_leaf hread).mp hpath
      rw [read_write_same]
      rfl
    · cases bits with
      | nil => exact absurd hpath (not_leafPath_internal_nil hread)
      | cons b bits =>
        rw [leafPath_internal_cons hread] at hpath
        cases b with
        | false => exact visit_keeps hr (ih hl hpath)
        | true => exact ih hr hpath

/-! ### The leaves of a tree -/

section Tree

variable {s : State} (htree : TreeInv s)
include htree

/-- The leaves' symbols are those of the list. -/
theorem mem_leafSymbols_iff {sym : Sym} :
    sym ∈ leafSymbols s ↔ ∃ n p, s.readNode n = some (.leaf sym p) := by
  obtain ⟨hnnode, -, hleaf, hint, -⟩ := htree
  simp only [leafSymbols, List.mem_filterMap, List.mem_range, Option.map_eq_some_iff]
  constructor
  · rintro ⟨i, hi, e, he, rfl⟩
    exact ⟨_, e.prob, by rw [hleaf i hi, he]; rfl⟩
  · rintro ⟨n, p, hread⟩
    have huse := lt_nnode_of_readNode hread
    by_cases hlt : n.toNat < s.nleaf.toNat
    · have hmatch := hleaf n.toNat hlt
      rw [leafMatches, ofNat_toNat_self, hread] at hmatch
      obtain ⟨e, he, hleafOf⟩ := Option.map_eq_some_iff.mp hmatch.symm
      cases hleafOf
      exact ⟨n.toNat, hlt, e, he, rfl⟩
    · obtain ⟨q, l, r, hread', -⟩ := isInternalOver_iff.mp (hint n.toNat huse (by omega))
      rw [ofNat_toNat_self, hread] at hread'
      cases hread'

/-- The parent of a node: internal, above it, and in use. -/
theorem exists_parent {n : NodeIx} (hn : n.toNat < s.root.toNat) :
    ∃ m : NodeIx, n.toNat < m.toNat ∧ m.toNat ≤ s.root.toNat ∧
      ∃ p l r, s.readNode m = some (.internal p l r) ∧ (n = l ∨ n = r) := by
  obtain ⟨hnnode, hroot, hleaf, hint, honce, -⟩ := htree
  have hchild : n ∈ childRefs s := by
    refine List.count_pos_iff.mp ?_
    have := honce n.toNat hn
    rw [ofNat_toNat_self] at this
    omega
  obtain ⟨k, hk, hmem⟩ := List.mem_flatMap.mp hchild
  rw [List.mem_range] at hk
  obtain ⟨p, l, r, hread, hside⟩ := mem_childrenOf hmem
  have hge : s.nleaf.toNat ≤ k := by
    by_contra hlt
    have hmatch := hleaf k (by omega)
    rw [leafMatches, hread] at hmatch
    obtain ⟨e, -, hleafOf⟩ := Option.map_eq_some_iff.mp hmatch.symm
    cases hleafOf
  obtain ⟨p', l', r', hread', hl, hr⟩ := isInternalOver_iff.mp (hint k hk hge)
  rw [hread] at hread'
  cases hread'
  have htoNat : (BitVec.ofNat 8 k).toNat = k := toNat_ofNat_self (hk.trans s.nnode.isLt)
  refine ⟨BitVec.ofNat 8 k, ?_, by omega, p, l, r, hread, hside⟩
  rw [htoNat]
  obtain rfl | rfl := hside
  · exact hl
  · exact hr

/-- Every node is reached from the root. -/
theorem exists_walk {n : NodeIx} (hn : n.toNat ≤ s.root.toNat) : ∃ bits, walk s s.root bits = some n := by
  induction hk : s.root.toNat - n.toNat using Nat.strong_induction_on generalizing n with
  | _ k ih =>
    by_cases heq : n = s.root
    · exact ⟨[], congrArg some heq.symm⟩
    · have hne : n.toNat ≠ s.root.toNat := fun h => heq (BitVec.eq_of_toNat_eq h)
      obtain ⟨m, hlt, hle, p, l, r, hread, hside⟩ := exists_parent htree (n := n) (by omega)
      obtain ⟨bits, hwalk⟩ := ih (s.root.toNat - m.toNat) (by omega) hle rfl
      obtain rfl | rfl := hside
      · exact ⟨bits ++ [false], walk_snoc hwalk hread false⟩
      · exact ⟨bits ++ [true], walk_snoc hwalk hread true⟩

/-- The symbols with a path from the root are those of the list. -/
theorem exists_leafPath_iff {sym : Sym} :
    (∃ bits, LeafPath s s.root bits sym) ↔ sym ∈ leafSymbols s := by
  rw [mem_leafSymbols_iff htree]
  constructor
  · rintro ⟨bits, n, p, -, hread⟩
    exact ⟨n, p, hread⟩
  · rintro ⟨n, p, hread⟩
    have ⟨hnnode, hroot, _⟩ := htree
    have huse := lt_nnode_of_readNode hread
    obtain ⟨bits, hwalk⟩ := exists_walk htree (n := n) (by omega)
    exact ⟨bits, n, p, hwalk, hread⟩

/-- The root of a tree over two leaves or more is internal, so no path to a leaf is empty. -/
theorem leafPath_root_ne_nil (hlow : 2 ≤ s.nleaf.toNat) {bits : List Bit} {sym : Sym}
    (h : LeafPath s s.root bits sym) : bits ≠ [] := by
  rintro rfl
  obtain ⟨hnnode, hroot, -, hint, -⟩ := htree
  obtain ⟨p, l, r, hread, -⟩ := isInternalOver_iff.mp (hint s.root.toNat (by omega) (by omega))
  rw [ofNat_toNat_self] at hread
  exact not_leafPath_internal_nil hread h

end Tree

/-! ### The table -/

/-- Where each symbol of the list has the path to its leaf as code, and no other symbol has one, clause
(d) holds: codes of different symbols are apart, as paths to different leaves are. -/
theorem codedInv_of_paths {s : State}
    (hpath : ∀ sym ∈ leafSymbols s, ∃ c, s.readCode sym.toNat = some c ∧ 1 ≤ c.bits.length ∧
      c.bits.length ≤ Config.codeMax ∧ LeafPath s s.root c.bits sym)
    (hnone : ∀ x < Config.alpha, BitVec.ofNat 7 x ∉ leafSymbols s → s.readCode x = none) :
    CodedInv s := by
  refine ⟨fun sym hsym => ?_, hnone, fun a ha b hb hab => ?_⟩
  · obtain ⟨c, hc, hpos, hmax, hleads⟩ := hpath sym hsym
    simp [codeIsPath, hc, CodeWord.len, hpos, hmax, leadsTo_iff.mpr hleads]
  · obtain ⟨c, hc, -, -, hca⟩ := hpath a ha
    obtain ⟨d, hd, -, -, hdb⟩ := hpath b hb
    simp only [codesApart, hc, hd, Bool.not_eq_true', ← Bool.not_eq_true, List.isPrefixOf_iff_prefix]
    exact fun hpre => hab (eq_of_leafPath_isPrefix hca hdb hpre)

/-- What GEN makes of a tree over two leaves or more meets clause (d). -/
theorem codedInv_gen {s t : State} {out : List Byte} (htree : TreeInv s) (hlow : 2 ≤ s.nleaf.toNat)
    (hr : genBody s = .ok t out) : CodedInv t := by
  obtain ⟨table, hvisit, rfl⟩ := Frames.genBody_ok hr
  have hread : ∀ n, State.readNode { s with code := table, phase := .coded } n = s.readNode n :=
    fun _ => rfl
  have hsound : ∀ {x : Nat} {c : CodeWord}, Memory.read table x = some c →
      ∃ sym : Sym, sym.toNat = x ∧ c.bits.length < 128 ∧ LeafPath s s.root c.bits sym := by
    intro x c hc
    obtain hc | ⟨bits, sym, hbits, hlen, hsym, hpath⟩ := visit_sound hvisit hc
    · cases hc
    · rw [List.nil_append] at hbits
      exact ⟨sym, hsym, hbits ▸ hlen, hbits ▸ hpath⟩
  refine codedInv_of_paths (fun sym hsym => ?_) fun x hx hsym => ?_
  · obtain ⟨bits, hpath⟩ := (exists_leafPath_iff htree).mpr hsym
    obtain ⟨c, hc⟩ := Option.isSome_iff_exists.mp (visit_complete hvisit hpath)
    obtain ⟨sym', heq, hlen, hcode⟩ := hsound hc
    obtain rfl : sym' = sym := BitVec.eq_of_toNat_eq heq
    exact ⟨c, hc, List.length_pos_iff.mpr (leafPath_root_ne_nil htree hlow hcode), Nat.le_of_lt_succ hlen,
      (leafPath_congr hread).mpr hcode⟩
  · refine Option.eq_none_iff_forall_ne_some.mpr fun c hc => hsym ?_
    obtain ⟨sym, rfl, -, hcode⟩ := hsound hc
    rw [BitVec.ofNat_toNat, BitVec.setWidth_eq]
    exact (exists_leafPath_iff htree).mp ⟨c.bits, hcode⟩

end Sys2Proof.Proofs.CodeTable
end

section
/-! PROOFS. Every step keeps the invariants of rule R49: each clause from the command that establishes it,
and from there on by the frame of every other command. -/

namespace Sys2Proof.Proofs.Lifecycle

open Sys2Proof.Machine Sys2Proof.Laws Sys2Proof.Proofs.Frames Sys2Proof.Proofs.Histogram
  Sys2Proof.Proofs.SortedList Sys2Proof.Proofs.MergeTree Sys2Proof.Proofs.CodeTable

/-- A list that meets clauses (a) and (b) has 2 to 128 entries. -/
theorem nleaf_range {s : State} (hcount : CountInv s) (hsorted : SortedInv s) :
    2 ≤ s.nleaf.toNat ∧ s.nleaf.toNat ≤ 128 := by
  have hmax := hsorted.2.1
  have hndist := ndist_le hcount
  simp only [Config.alpha] at hndist
  omega

/-- The end of a command changes no lifecycle register. -/
theorem sameLifecycle_done (reads : Bool) (o : Completion) (out : List Byte) (s : State) :
    SameLifecycle s (consumeIn reads (reply o out s)) := by
  constructor <;> simp

/-- The codec's and the decoder's commands write no lifecycle register or memory. -/
theorem sameLifecycle_of_codec {i : Instr} {s t : State} (hw : WritesOnly i s t)
    (hi : i = .enc ∨ i = .dec ∨ i = .pack ∨ i = .unpack) : SameLifecycle s t := by
  rw [hw]
  obtain rfl | rfl | rfl | rfl := hi <;> constructor <;> rfl

/-! ### The command that enters each phase -/

section Bodies

variable {s t : State} {out : List Byte} (h : LifecycleInv s) (he : s.err = 0)
include h he

theorem lifecycleInv_histBody (hp : s.phase = .count) (hr : bodyOf .hist s = .ok t out) :
    LifecycleInv t := by
  have hphase : t.phase = .count := ((bodyOf_writes hr).keeps State.phase fun _ => rfl).trans hp
  exact fun _ => ⟨countInv_hist (h he).1 hr, by simp [hphase, Phase.rank], by simp [hphase, Phase.rank],
    by simp [hphase, Phase.rank]⟩

theorem lifecycleInv_sortBody (hr : sortBody s = .ok t out) : LifecycleInv t := by
  have hphase := (sortBody_writes hr).2
  obtain ⟨hcount, hsorted⟩ := sortedInv_sort (h he).1 hr
  exact fun _ => ⟨hcount, fun _ => hsorted, by simp [hphase, Phase.rank], by simp [hphase, Phase.rank]⟩

theorem lifecycleInv_buildBody (hp : s.phase = .sorted) (hr : buildBody s = .ok t out) :
    LifecycleInv t := by
  obtain ⟨hframe, hphase⟩ := buildBody_writes hr
  obtain ⟨hcount, hsorted, -⟩ := h he
  have hsorted := hsorted (by rw [hp]; decide)
  obtain ⟨hlow, hhigh⟩ := nleaf_range hcount hsorted
  have htotal : t.total = s.total := hframe.keeps State.total fun _ => rfl
  have hndist : t.ndist = s.ndist := hframe.keeps State.ndist fun _ => rfl
  exact fun _ => ⟨countInv_congr hcount (hframe.keeps State.count fun _ => rfl) htotal hndist,
    fun _ => sortedInv_congr hsorted htotal hndist (hframe.keeps State.nleaf fun _ => rfl)
      (hframe.keeps State.slist fun _ => rfl),
    fun _ => treeInv_build hlow hhigh hr, by simp [hphase, Phase.rank]⟩

theorem lifecycleInv_genBody (hp : s.phase = .built) (hr : genBody s = .ok t out) : LifecycleInv t := by
  obtain ⟨hcount, hsorted, htree, -⟩ := h he
  have hsorted := hsorted (by rw [hp]; decide)
  have htree := htree (by rw [hp]; decide)
  have hcodes := codedInv_gen htree (nleaf_range hcount hsorted).1 hr
  obtain ⟨table, -, rfl⟩ := genBody_ok hr
  exact fun _ => ⟨countInv_congr hcount rfl rfl rfl, fun _ => sortedInv_congr hsorted rfl rfl rfl rfl,
    fun _ => treeInv_congr htree rfl rfl rfl rfl rfl rfl rfl, fun _ => hcodes⟩

end Bodies

/-! ### Every command, and every step -/

/-- A command whose pseudocode runs through, where it is legal, keeps the invariants. -/
theorem lifecycleInv_bodyOf {i : Instr} {s t : State} {out : List Byte} (h : LifecycleInv s)
    (hlegal : i ≠ .clr → s.err = 0 ∧ legalIn i s.phase = true) (hbody : bodyOf i s = .ok t out) :
    LifecycleInv t := by
  cases i with
  | clr => cases hbody; exact Status.lifecycleInv_clearSession s
  | hist =>
    obtain ⟨he, hphase⟩ := hlegal (by decide)
    exact lifecycleInv_histBody h he (by simpa [legalIn] using hphase) hbody
  | sort => exact lifecycleInv_sortBody h (hlegal (by decide)).1 hbody
  | build =>
    obtain ⟨he, hphase⟩ := hlegal (by decide)
    exact lifecycleInv_buildBody h he (by simpa [legalIn] using hphase) hbody
  | gen =>
    obtain ⟨he, hphase⟩ := hlegal (by decide)
    exact lifecycleInv_genBody h he (by simpa [legalIn] using hphase) hbody
  | enc | dec | pack | unpack =>
    exact lifecycleInv_congr (sameLifecycle_of_codec (bodyOf_writes hbody) (by simp)) h

/-- Every command keeps the invariants. -/
theorem lifecycleInv_exec {i : Instr} {s t : State} (h : LifecycleInv s) (hr : exec i s = .next t) :
    LifecycleInv t := by
  by_cases ht : t.err = 0
  · obtain ⟨hlegal, u, out, hbody, rfl⟩ := exec_done hr ht
    exact lifecycleInv_congr (sameLifecycle_done _ _ _ _) (lifecycleInv_bodyOf h hlegal hbody)
  · exact fun h0 => absurd h0 ht

/-- An illegal word raises a fault, or is refused after one: nothing is promised. -/
theorem err_rejectWord (w : Byte) (s : State) : (rejectWord w s).err ≠ 0 := by
  unfold rejectWord
  split
  · exact code_ne_zero .illegalCommand
  · assumption

/-- Settles O49, by the kinds of step: only a command writes lifecycle registers, and the reset input
starts a new session. -/
theorem stepKeepsLifecycleInvariant : Obligations.StepKeepsLifecycleInvariant := by
  intro s t h hstep
  obtain ⟨-, heq⟩ | ⟨rest, -, heq⟩ | ⟨rest, -, heq⟩ | ⟨w, x, rest, i, -, -, heq⟩ |
    ⟨w, x, rest, -, -, heq⟩ := step_cases s <;> rw [heq] at hstep
  · cases hstep; exact h
  · cases hstep; exact Status.lifecycleInv_clearSession _
  · cases hstep; exact lifecycleInv_congr (s := s) (by constructor <;> simp) h
  · exact lifecycleInv_exec (lifecycleInv_ports h rest x s.results) hstep
  · cases hstep; exact fun h0 => absurd h0 (err_rejectWord _ _)

end Sys2Proof.Proofs.Lifecycle
end

section
/-! PROOFS. Where a command ends (60_exceptions.md, rules R303 to R312): the state in which its pseudocode
runs through or raises, one inversion per piece, and what the end of the command adds to it. -/

namespace Sys2Proof.Proofs.Endings

open Sys2Proof.Machine Sys2Proof.Laws Sys2Proof.Proofs.Frames

/-! ### The final state of a piece of pseudocode -/

/-- The state in which a piece of pseudocode ends, whether it runs through or raises a fault. -/
def finalState : Effect → Option State
  | .ok s _ => some s
  | .raise _ _ _ s => some s
  | .stop _ => none

/-- A sequence ends where its first piece raises, or, after that ran, where its second ends. -/
theorem finalState_andThen {x : Effect} {f : State → Effect} {t : State}
    (h : finalState (x.andThen f) = some t) :
    (∃ c v p, x = .raise c v p t) ∨ ∃ u out, x = .ok u out ∧ finalState (f u) = some t := by
  cases x with
  | ok u out =>
    refine .inr ⟨u, out, rfl, ?_⟩
    rw [andThen_ok] at h
    cases hf : f u <;> rw [hf] at h <;> exact h
  | raise c v p u => cases h; exact .inl ⟨c, v, p, rfl⟩
  | stop r => cases h

/-- What every step keeps, however it ends, a loop keeps. -/
theorem finalState_forEach_keeps {α : Type} {step : α → Nat → State → Effect} {P : State → Prop}
    (h : ∀ e k s t, P s → finalState (step e k s) = some t → P t) {es : List α} {k : Nat} {s t : State}
    (hs : P s) (hr : finalState (forEach step es k s) = some t) : P t := by
  induction es generalizing k s with
  | nil => cases hr; exact hs
  | cons e es ih =>
    rw [forEach_cons] at hr
    obtain ⟨c, v, p, hraise⟩ | ⟨u, out, hok, hrest⟩ := finalState_andThen hr
    · exact h e k s t hs (by rw [hraise]; rfl)
    · exact ih (h e k s u hs (by rw [hok]; rfl)) hrest

/-! ### Where each piece ends -/

theorem histStep_final {e : Byte} {k : Nat} {s t : State} (h : finalState (histStep e k s) = some t) :
    t = s ∨ (e.toNat < 128 ∧ t = countSymbol e.toNat s) := by
  obtain ⟨hsym, -, heq⟩ | ⟨-, heq⟩ | ⟨-, -, heq⟩ := histStep_cases e k s <;> rw [heq] at h <;> cases h
  · exact .inr ⟨hsym, rfl⟩
  · exact .inl rfl
  · exact .inl rfl

theorem sortBody_final {s t : State} (h : finalState (sortBody s) = some t) :
    t = s ∨ ∃ out, sortBody s = .ok t out := by
  unfold sortBody at h ⊢
  split at h <;> cases h
  · exact .inl rfl
  · next htotal => exact .inr ⟨[], if_neg htotal⟩

/-- A merge raises no fault. -/
theorem mergeStep_ne_raise {s t : State} {c : Cause} {v : Byte} {p : Nat} :
    mergeStep s ≠ .raise c v p t := by
  intro h
  unfold mergeStep joinNodes at h
  repeat' split at h
  all_goals cases h

theorem mergeLoop_ne_raise {n : Nat} {s t : State} {c : Cause} {v : Byte} {p : Nat} :
    mergeLoop n s ≠ .raise c v p t := by
  induction n generalizing s with
  | zero => intro h; cases h
  | succ n ih =>
    rw [mergeLoop]
    split
    · rw [ne_eq, andThen_eq_raise]
      rintro (h | ⟨u, out, -, h⟩)
      · exact mergeStep_ne_raise h
      · exact ih h
    · intro h; cases h

/-- `BUILD` raises on too few leaves only, before it writes anything. -/
theorem buildBody_final {s t : State} (h : finalState (buildBody s) = some t) :
    t = s ∨ ∃ out, buildBody s = .ok t out := by
  cases hb : buildBody s with
  | ok u out => rw [hb] at h; cases h; exact .inr ⟨out, rfl⟩
  | stop r => rw [hb] at h; cases h
  | raise c v p u =>
    rw [hb] at h
    cases h
    unfold buildBody at hb
    split at hb
    · cases hb; exact .inl rfl
    split at hb
    · cases hb
    obtain hloop | ⟨u, out, -, henter⟩ := andThen_eq_raise.mp hb
    · exact absurd hloop mergeLoop_ne_raise
    · cases henter

/-- `GEN` raises no fault. -/
theorem genBody_final {s t : State} (h : finalState (genBody s) = some t) :
    ∃ out, genBody s = .ok t out := by
  cases hb : genBody s with
  | ok u out => rw [hb] at h; cases h; exact ⟨out, rfl⟩
  | stop r => rw [hb] at h; cases h
  | raise c v p u =>
    unfold genBody at hb
    split at hb <;> cases hb

theorem encStep_final {e : Byte} {k : Nat} {s t : State} (h : finalState (encStep e k s) = some t) :
    t = s ∨ ∃ bits, exceedsCap s.bitcap (s.bitlen + bits.length) = false ∧ t = appendBits bits s := by
  obtain ⟨c, -, hfits, heq⟩ | ⟨-, heq⟩ | ⟨c, -, -, heq⟩ := encStep_cases e k s <;>
    rw [heq] at h <;> cases h
  · exact .inr ⟨c.bits, hfits, rfl⟩
  · exact .inl rfl
  · exact .inl rfl

theorem loadToken_final {e : Byte} {k : Nat} {s t : State} (h : finalState (loadToken e k s) = some t) :
    t = s ∨ ∃ b, s.bitcap ≠ some s.bitlen ∧ t = appendBits [b] s := by
  obtain ⟨b, -, hroom, heq⟩ | ⟨-, heq⟩ | ⟨b, -, -, heq⟩ := loadToken_cases e k s <;>
    rw [heq] at h <;> cases h
  · exact .inr ⟨b, hroom, rfl⟩
  · exact .inl rfl
  · exact .inl rfl

theorem packCore_final {s t : State} (h : finalState (packCore s) = some t) :
    t = { s with pad := t.pad } := by
  unfold packCore at h
  split at h <;> cases h
  rfl

theorem unpackCore_final {s t : State} (h : finalState (unpackCore s) = some t) :
    t = s ∨ t = notePadding (bitsOfBytes s.inp) s ∨
      (exceedsCap s.bitcap (8 * s.inp.length - strippedBits (sentinelIndex (bitsOfBytes s.inp))) = false ∧
        t = unpacked s) := by
  obtain ⟨-, heq⟩ | ⟨-, -, heq⟩ | ⟨-, hfits, heq⟩ := unpackCore_cases s <;> rw [heq] at h <;> cases h
  · exact .inl rfl
  · exact .inr (.inl rfl)
  · exact .inr (.inr ⟨hfits, rfl⟩)

theorem emitTokens_final {s t : State} (h : finalState (emitTokens s) = some t) : t = s := by
  unfold emitTokens at h
  split at h <;> cases h
  rfl

/-- A decoder step raises no fault. -/
theorem decStep_final {bit : Bit} {k : Nat} {s t : State} (h : finalState (decStep bit k s) = some t) :
    t = { s with cur := t.cur, skip := t.skip } := by
  unfold decStep moveTo at h
  repeat' split at h
  all_goals cases h
  all_goals rfl

theorem walkPayload_final {s t : State} (h : finalState (walkPayload s) = some t) :
    t = { s with cur := t.cur, skip := t.skip } := by
  unfold walkPayload at h
  split at h
  · cases h
  · refine finalState_forEach_keeps (P := fun u => u = { s with cur := u.cur, skip := u.skip })
      (fun e k u v hu hv => ?_) rfl h
    rw [decStep_final hv, hu]

/-- `ENC` and `PACK` keep what the empty payload has and their step and the write of `PAD` keep. -/
theorem loadAndPack_final_keeps {step : Byte → Nat → State → Effect} {P : State → Prop} {s t : State}
    (hempty : P (emptyPayload s))
    (hstep : ∀ e k u v, P u → finalState (step e k u) = some v → P v)
    (hpad : ∀ u p, P u → P { u with pad := p })
    (h : finalState ((forEach step s.inp 0 (emptyPayload s)).andThen packCore) = some t) : P t := by
  obtain ⟨c, v, p, hraise⟩ | ⟨u, out, hok, hpack⟩ := finalState_andThen h
  · exact finalState_forEach_keeps hstep hempty (by rw [hraise]; rfl)
  · rw [packCore_final hpack]
    exact hpad u t.pad (finalState_forEach_keeps hstep hempty (by rw [hok]; rfl))

/-- `UNPACK` ends where its unpacking core does. -/
theorem unpackBody_final {s t : State} (h : finalState (unpackBody s) = some t) :
    finalState (unpackCore s) = some t := by
  obtain ⟨c, v, p, hraise⟩ | ⟨u, out, hok, hemit⟩ := finalState_andThen h
  · rw [hraise]; rfl
  · rw [hok, emitTokens_final hemit]; rfl

/-- `DEC` ends where its unpacking core does, but for the cursor and `SKIP`. -/
theorem decBody_final {s t : State} (h : finalState (decBody s) = some t) :
    ∃ u, finalState (unpackCore s) = some u ∧ t = { u with cur := t.cur, skip := t.skip } := by
  obtain ⟨c, v, p, hraise⟩ | ⟨u, out, hok, hwalk⟩ := finalState_andThen h
  · exact ⟨t, by rw [hraise]; rfl, rfl⟩
  · exact ⟨u, by rw [hok]; rfl, walkPayload_final hwalk⟩

/-! ### The frame, also up to a fault -/

/-- The unpacking core writes the payload, `PAD` and `PADFB` alone. -/
theorem unpackCore_final_frame {s t : State} (h : finalState (unpackCore s) = some t) :
    t = { s with bitlen := t.bitlen, bitbuf := t.bitbuf, pad := t.pad, padfb := t.padfb } := by
  obtain rfl | rfl | ⟨-, rfl⟩ := unpackCore_final h <;> rfl

/-- Whether a command's pseudocode runs through or raises, it wrote only what rule R20 lets it write. -/
theorem bodyOf_final_writes {i : Instr} {s t : State} (h : finalState (bodyOf i s) = some t) :
    WritesOnly i s t := by
  cases i with
  | clr => cases h; rfl
  | hist =>
    refine finalState_forEach_keeps (P := WritesOnly .hist s) (fun e k u v hu hv => hu.trans ?_) (.refl _ s) h
    obtain rfl | ⟨-, rfl⟩ := histStep_final hv <;> rfl
  | sort =>
    obtain rfl | ⟨out, hok⟩ := sortBody_final h
    · exact .refl _ t
    · exact (sortBody_writes hok).1
  | build =>
    obtain rfl | ⟨out, hok⟩ := buildBody_final h
    · exact .refl _ t
    · exact (buildBody_writes hok).1
  | gen =>
    obtain ⟨out, hok⟩ := genBody_final h
    exact (genBody_writes hok).1
  | enc =>
    refine loadAndPack_final_keeps (P := WritesOnly .enc s) rfl (fun e k u v hu hv => hu.trans ?_)
      (fun u p hu => hu.trans rfl) h
    obtain rfl | ⟨bits, -, rfl⟩ := encStep_final hv <;> rfl
  | pack =>
    refine loadAndPack_final_keeps (P := WritesOnly .pack s) rfl (fun e k u v hu hv => hu.trans ?_)
      (fun u p hu => hu.trans rfl) h
    obtain rfl | ⟨b, -, rfl⟩ := loadToken_final hv <;> rfl
  | unpack => rw [unpackCore_final_frame (unpackBody_final h)]; rfl
  | dec =>
    obtain ⟨u, hcore, ht⟩ := decBody_final h
    rw [ht, unpackCore_final_frame hcore]
    rfl

/-! ### The end of a command -/

/-- A command that ends leaves the state in which it was issued or its pseudocode ended, with its response
and, where it raised a fault, the error registers. -/
theorem exec_next {i : Instr} {s t : State} (h : exec i s = .next t) :
    ∃ u, (u = s ∨ finalState (bodyOf i s) = some u) ∧
      ((∃ out, t = consumeIn i.readsIn (reply .done out u)) ∨
        (∃ c v p, t = consumeIn i.readsIn (takeFault (encode i) c v p u)) ∨
        t = consumeIn i.readsIn (refuse u)) := by
  obtain ⟨u, out, hbody, heq⟩ | ⟨c, v, p, u, heq, -, -, hend⟩ | ⟨heq, -, -⟩ | ⟨r, -, heq⟩ := exec_cases i s <;>
    rw [heq] at h <;> cases h
  · exact ⟨u, .inr (by rw [hbody]; rfl), .inl ⟨out, rfl⟩⟩
  · refine ⟨u, ?_, .inr (.inl ⟨c, v, p, rfl⟩)⟩
    obtain hraise | ⟨-, -, -, -, rfl⟩ := hend
    · exact .inr (by rw [hraise]; rfl)
    · exact .inl rfl
  · exact ⟨s, .inl rfl, .inr (.inr rfl)⟩

/-- The pseudocode of a command answers nothing itself. -/
theorem bodyOf_final_results {i : Instr} {s t : State} (h : finalState (bodyOf i s) = some t) :
    t.results = s.results :=
  (bodyOf_final_writes h).keeps State.results fun _ => by cases i <;> rfl

/-- A command that ends gives the host one response, with output only where it is `done` (rule R304). -/
theorem exec_results {i : Instr} {s t : State} (h : exec i s = .next t) :
    ∃ r, t.results = s.results ++ [r] ∧ outputOnlyWhenDone r = true := by
  obtain ⟨u, hu, hend⟩ := exec_next h
  have hresults : u.results = s.results := by
    obtain rfl | hfinal := hu
    · rfl
    · exact bodyOf_final_results hfinal
  obtain ⟨out, rfl⟩ | ⟨c, v, p, rfl⟩ | rfl := hend
  · exact ⟨.completed .done out, by simp [hresults], rfl⟩
  · exact ⟨.completed .fault [], by simp [hresults], rfl⟩
  · exact ⟨.completed .refused [], by simp [hresults], rfl⟩

theorem rejectWord_results (w : Byte) (s : State) :
    ∃ r, (rejectWord w s).results = s.results ++ [r] ∧ outputOnlyWhenDone r = true := by
  unfold rejectWord
  split
  · exact ⟨.completed .fault [], by simp, rfl⟩
  · exact ⟨.completed .refused [], by simp, rfl⟩

/-- A step gives the host no response or one, with output only where it is a `done` command's. -/
theorem step_results {s t : State} (h : step s = .next t) :
    t.results = s.results ∨ ∃ r, t.results = s.results ++ [r] ∧ outputOnlyWhenDone r = true := by
  obtain ⟨-, heq⟩ | ⟨rest, -, heq⟩ | ⟨rest, -, heq⟩ | ⟨w, x, rest, i, -, -, heq⟩ |
    ⟨w, x, rest, -, -, heq⟩ := step_cases s <;> rw [heq] at h
  · cases h; exact .inl rfl
  · cases h; exact .inl rfl
  · cases h; exact .inr ⟨_, rfl, rfl⟩
  · exact .inr (exec_results (s := present x rest s) h)
  · cases h; exact .inr (rejectWord_results w (present x rest s))

/-! ### The statements -/

/-- Settles O53: a step appends one response at most, and that one carries output only when `done`. -/
theorem stepKeepsOutputAllOrNothing : Obligations.StepKeepsOutputAllOrNothing := by
  intro s t hs hstep
  obtain heq | ⟨r, heq, hr⟩ := step_results hstep <;> rw [heq]
  · exact hs
  · exact List.forall_mem_append.mpr ⟨hs, List.forall_mem_singleton.mpr hr⟩

/-- Settles O56: every memory outside the command's frame is read off the frame. -/
theorem commandsWriteOnlyTheirMemories : Obligations.CommandsWriteOnlyTheirMemories := by
  intro i s t h ht
  obtain ⟨-, u, out, hbody, rfl⟩ := exec_done h ht
  have hframe : u = overlay i s u := bodyOf_writes hbody
  rw [hframe]
  cases i <;> simp [overlay]

end Sys2Proof.Proofs.Endings
end

section
/-! PROOFS. The canonical form of the memories (20_memory.md, rule R60), kept by every write of every
command: each write's index is within the memory's size. -/

namespace Sys2Proof.Proofs.Canonical

open Sys2Proof.Machine Sys2Proof.Laws Sys2Proof.Proofs.Frames Sys2Proof.Proofs.SortedList
  Sys2Proof.Proofs.MergeTree Sys2Proof.Proofs.Endings

/-! ### The parts of the invariant -/

/-- The canonical form speaks of the memories and `BITCAP` alone. -/
theorem memoryInv_congr {s t : State} (h : MemoryInv s) (hcount : t.count = s.count)
    (hslist : t.slist = s.slist) (hnode : t.node = s.node) (hcode : t.code = s.code)
    (hbitbuf : t.bitbuf = s.bitbuf) (hbitcap : t.bitcap = s.bitcap) : MemoryInv t := by
  simp only [MemoryInv, hcount, hslist, hnode, hcode, hbitbuf, hbitcap]
  exact h

theorem memoryInv_clearSession {s : State} (h : MemoryInv s) : MemoryInv (clearSession s) := by
  obtain ⟨-, -, hslist, hnode, -, hbitbuf⟩ := h
  exact ⟨wf_nil _, by simp, hslist, hnode, wf_nil _, hbitbuf⟩

/-! ### HIST and SORT -/

theorem memoryInv_countSymbol {s : State} (h : MemoryInv s) {sym : Nat} (hsym : sym < 128) :
    MemoryInv (countSymbol sym s) := by
  obtain ⟨hcount, hzero, hrest⟩ := h
  refine ⟨wf_writeOver 0 _ hcount fun n hn => ?_, writeOver_lists_no_default 0 _ _ hzero, hrest⟩
  cases hn
  exact hsym

/-- The list has an entry for each symbol of the alphabet at most; the synthetic one makes it two. -/
theorem length_listOf_le (s : State) : (listOf s).length ≤ 128 := by
  have hcounted : (countedEntries s).length ≤ 128 :=
    (List.length_filterMap_le _ _).trans_eq List.length_range
  rw [listOf, (sortEntries_perm _).length_eq]
  obtain ⟨e, -, heq⟩ | ⟨-, heq⟩ := injected_cases s (countedEntries s) <;> rw [heq]
  · rw [List.length_cons, List.length_singleton]; omega
  · exact hcounted

theorem memoryInv_sortBody {s t : State} (h : MemoryInv s) (hr : finalState (sortBody s) = some t) :
    MemoryInv t := by
  obtain rfl | ⟨out, hok⟩ := sortBody_final hr
  · exact h
  obtain ⟨hcount, hzero, hslist, hrest⟩ := h
  rw [(sortBody_ok hok).2]
  refine ⟨hcount, hzero, wf_writeList _ hslist fun n hn => ?_, hrest⟩
  cases hn
  rw [Nat.zero_add]
  exact length_listOf_le s

/-! ### BUILD -/

/-- Only 128 list entries can be read (rule R41). -/
theorem length_le_of_collect_slist {s : State} {n : Nat} {L : List Entry}
    (h : collect .slist s.readSlist 0 n = .ok L) : L.length ≤ 128 := by
  obtain ⟨hlen, hread⟩ := collect_eq_ok.mp h
  by_contra hlong
  have hlast := hread 128 (by omega)
  rw [State.readSlist, if_neg (by simp)] at hlast
  exact hlong (List.getElem?_eq_none_iff.mp hlast.symm)

theorem two_le_nleaf_of_buildBody {s t : State} {out : List Byte} (h : buildBody s = .ok t out) :
    2 ≤ s.nleaf.toNat := by
  by_contra hfew
  rw [buildBody, if_pos (by omega)] at h
  cases h

theorem memoryInv_loadLeaves {s : State} (h : MemoryInv s) {L : List Entry} (hL : L.length ≤ 128) :
    MemoryInv (loadLeaves L s) := by
  obtain ⟨hcount, hzero, hslist, hnode, hrest⟩ := h
  refine ⟨hcount, hzero, hslist, wf_writeList _ hnode fun n hn => ?_, hrest⟩
  cases hn
  rw [List.length_map, Config.nodeMax]
  omega

theorem memoryInv_addInternal {s : State} (h : MemoryInv s) (p : P64) (a b : NodeIx)
    (hroom : s.nnode.toNat < Config.nodeMax) : MemoryInv (addInternal p a b s) := by
  obtain ⟨hcount, hzero, hslist, hnode, hrest⟩ := h
  refine ⟨hcount, hzero, hslist, wf_write _ hnode fun n hn => ?_, hrest⟩
  cases hn
  exact hroom

/-- A merge over a list of at most 128 entries finds `NNODE` below 255. -/
theorem memoryInv_mergeStep {L : List Entry} {s t : State} {out : List Byte} (hL : L.length ≤ 128)
    (hmerge : MergeInv L s) (h : MemoryInv s) (hm : mergeStep s = .ok t out) : MemoryInv t := by
  obtain ⟨a, b, p, u, rfl, hperm, hframe⟩ := mergeStep_adds hm
  have hlen : (queued s).length = (queued u).length + 2 := hperm.length_eq
  have hbal := hmerge.balance
  have hnnode : u.nnode = s.nnode := by rw [hframe]
  have hu : MemoryInv u := by rw [hframe]; exact h
  exact memoryInv_addInternal hu p a b (by rw [hnnode, Config.nodeMax]; omega)

theorem memoryInv_buildBody {s t : State} (h : MemoryInv s) (hr : finalState (buildBody s) = some t) :
    MemoryInv t := by
  obtain rfl | ⟨out, hok⟩ := buildBody_final hr
  · exact h
  obtain ⟨L, u, o, hcollect, hloop, rfl⟩ := buildBody_ok hok
  have hL := length_le_of_collect_slist hcollect
  have hlen := (collect_eq_ok.mp hcollect).1
  have hlow := two_le_nleaf_of_buildBody hok
  have hu : MergeInv L u ∧ MemoryInv u :=
    mergeLoop_keeps (P := fun v => MergeInv L v ∧ MemoryInv v)
      (fun v w o hv hm => ⟨mergeInv_mergeStep hL hv.1 hm, memoryInv_mergeStep hL hv.1 hv.2 hm⟩)
      ⟨mergeInv_loadLeaves hlen.symm (by omega), memoryInv_loadLeaves h hL⟩ hloop
  exact hu.2

/-! ### GEN -/

theorem wf_visit {s : State} {d : Nat} {n : NodeIx} {path : List Bit} {table table' : Memory CodeWord}
    (h : visit s d n path table = .ok table') (hwf : Memory.wf (some Config.alpha) table = true) :
    Memory.wf (some Config.alpha) table' = true := by
  induction d generalizing n path table table' with
  | zero => cases h
  | succ d ih =>
    obtain ⟨sym, p, -, rfl⟩ | ⟨p, l, r, mid, -, hl, hr⟩ := CodeTable.visit_ok h
    · refine wf_write _ hwf fun n hn => ?_
      cases hn
      exact sym.isLt
    · exact ih hr (ih hl hwf)

theorem memoryInv_genBody {s t : State} (h : MemoryInv s) (hr : finalState (genBody s) = some t) :
    MemoryInv t := by
  obtain ⟨out, hok⟩ := genBody_final hr
  obtain ⟨table, hvisit, rfl⟩ := genBody_ok hok
  obtain ⟨hcount, hzero, hslist, hnode, -, hbitbuf⟩ := h
  exact ⟨hcount, hzero, hslist, hnode, wf_visit hvisit (wf_nil _), hbitbuf⟩

/-! ### The codec -/

theorem exceedsCap_eq_false_iff {cap : Option Nat} {n : Nat} :
    exceedsCap cap n = false ↔ ∀ c, cap = some c → n ≤ c := by
  cases cap <;> simp [exceedsCap]

/-- The memories are canonical and the payload is within `BITCAP`: what holds between two elements of the
stream that ENC and PACK load. -/
structure LoadInv (s : State) : Prop where
  memories : MemoryInv s
  fits : ∀ c, s.bitcap = some c → s.bitlen ≤ c

theorem loadInv_emptyPayload {s : State} (h : MemoryInv s) : LoadInv (emptyPayload s) :=
  ⟨h, fun c _ => Nat.zero_le c⟩

theorem loadInv_appendBits {s : State} (h : MemoryInv s) {bits : List Bit}
    (hfits : ∀ c, s.bitcap = some c → s.bitlen + bits.length ≤ c) : LoadInv (appendBits bits s) := by
  obtain ⟨hcount, hzero, hslist, hnode, hcode, hbitbuf⟩ := h
  exact ⟨⟨hcount, hzero, hslist, hnode, hcode, wf_writeList _ hbitbuf hfits⟩, hfits⟩

theorem loadInv_encStep {e : Byte} {k : Nat} {s t : State} (h : LoadInv s)
    (hr : finalState (encStep e k s) = some t) : LoadInv t := by
  obtain rfl | ⟨bits, hfits, rfl⟩ := encStep_final hr
  · exact h
  · exact loadInv_appendBits h.memories (exceedsCap_eq_false_iff.mp hfits)

theorem loadInv_loadToken {e : Byte} {k : Nat} {s t : State} (h : LoadInv s)
    (hr : finalState (loadToken e k s) = some t) : LoadInv t := by
  obtain rfl | ⟨b, hroom, rfl⟩ := loadToken_final hr
  · exact h
  · refine loadInv_appendBits h.memories fun c hc => ?_
    exact lt_of_le_of_ne (h.fits c hc) fun hfull => hroom (hc.trans (congrArg some hfull.symm))

theorem memoryInv_loadAndPack {step : Byte → Nat → State → Effect} {s t : State} (h : MemoryInv s)
    (hstep : ∀ e k u v, LoadInv u → finalState (step e k u) = some v → LoadInv v)
    (hr : finalState ((forEach step s.inp 0 (emptyPayload s)).andThen packCore) = some t) : MemoryInv t :=
  (loadAndPack_final_keeps (loadInv_emptyPayload h) hstep (fun _ _ hu => ⟨hu.memories, hu.fits⟩) hr).memories

/-- The unpacking core writes as many bits as it checked against `BITCAP` (rules R217 and R298). -/
theorem memoryInv_unpackCore {s t : State} (h : MemoryInv s) (hr : finalState (unpackCore s) = some t) :
    MemoryInv t := by
  obtain rfl | rfl | ⟨hfits, rfl⟩ := unpackCore_final hr
  · exact h
  · exact h
  · refine (loadInv_appendBits (s := emptyPayload (notePadding (bitsOfBytes s.inp) s)) h ?_).memories
    simpa [payloadOf] using exceedsCap_eq_false_iff.mp hfits

/-! ### Every command, and every step -/

/-- However a command's pseudocode ends, it keeps the canonical form. -/
theorem memoryInv_bodyOf {i : Instr} {s t : State} (h : MemoryInv s)
    (hr : finalState (bodyOf i s) = some t) : MemoryInv t := by
  cases i with
  | clr => cases hr; exact memoryInv_clearSession h
  | hist =>
    refine finalState_forEach_keeps (P := MemoryInv) (fun e k u v hu hv => ?_) h hr
    obtain rfl | ⟨hsym, rfl⟩ := histStep_final hv
    · exact hu
    · exact memoryInv_countSymbol hu hsym
  | sort => exact memoryInv_sortBody h hr
  | build => exact memoryInv_buildBody h hr
  | gen => exact memoryInv_genBody h hr
  | enc => exact memoryInv_loadAndPack h (fun _ _ _ _ => loadInv_encStep) hr
  | pack => exact memoryInv_loadAndPack h (fun _ _ _ _ => loadInv_loadToken) hr
  | unpack => exact memoryInv_unpackCore h (unpackBody_final hr)
  | dec =>
    obtain ⟨u, hcore, ht⟩ := decBody_final hr
    have hu : MemoryInv u := memoryInv_unpackCore h hcore
    rw [ht]
    exact hu

/-- Every command keeps the canonical form: its end, with a response or a fault, writes no memory. -/
theorem memoryInv_exec {i : Instr} {s t : State} (h : MemoryInv s) (hr : exec i s = .next t) :
    MemoryInv t := by
  obtain ⟨u, hu, hend⟩ := exec_next hr
  have hbody : MemoryInv u := by
    obtain rfl | hfinal := hu
    · exact h
    · exact memoryInv_bodyOf h hfinal
  obtain ⟨out, rfl⟩ | ⟨c, v, p, rfl⟩ | rfl := hend <;> exact memoryInv_congr hbody (by simp) (by simp)
    (by simp) (by simp) (by simp) (by simp)

theorem memoryInv_rejectWord {w : Byte} {s : State} (h : MemoryInv s) : MemoryInv (rejectWord w s) := by
  unfold rejectWord
  split
  · exact h
  · exact h

/-- Settles O51, by the kinds of step: only a command and the reset input write memories. -/
theorem stepKeepsMemoriesCanonical : Obligations.StepKeepsMemoriesCanonical := by
  intro s t h hstep
  obtain ⟨-, heq⟩ | ⟨rest, -, heq⟩ | ⟨rest, -, heq⟩ | ⟨w, x, rest, i, -, -, heq⟩ |
    ⟨w, x, rest, -, -, heq⟩ := step_cases s <;> rw [heq] at hstep
  · cases hstep; exact h
  · cases hstep; exact memoryInv_clearSession (s := { s with host := rest }) h
  · cases hstep; exact h
  · exact memoryInv_exec (s := present x rest s) h hstep
  · cases hstep; exact memoryInv_rejectWord (s := present x rest s) h

end Sys2Proof.Proofs.Canonical
end

section
/-! PROOFS. No command stops the model where the invariants of rule R49 hold (20_memory.md, rule R61): what
a command reads holds a value, BUILD never picks from empty queues, and GEN's traversal is at most 127
deep. -/

namespace Sys2Proof.Proofs.Progress

open Sys2Proof.Machine Sys2Proof.Laws Sys2Proof.Proofs.Frames Sys2Proof.Proofs.MergeTree
  Sys2Proof.Proofs.Endings

/-! ### Pieces of pseudocode that never stop -/

/-- The piece runs through or raises a fault of the engine. -/
def NeverStops (x : Effect) : Prop := ∀ r, x ≠ .stop r

@[simp] theorem neverStops_ok (t : State) (out : List Byte) : NeverStops (.ok t out) := fun _ => nofun

@[simp] theorem neverStops_raise (c : Cause) (v : Byte) (p : Nat) (t : State) :
    NeverStops (.raise c v p t) := fun _ => nofun

theorem neverStops_of_ok {x : Effect} (h : ∃ t out, x = .ok t out) : NeverStops x := by
  obtain ⟨t, out, rfl⟩ := h
  exact neverStops_ok t out

theorem neverStops_andThen {x : Effect} {f : State → Effect} (hx : NeverStops x)
    (hf : ∀ u out, x = .ok u out → NeverStops (f u)) : NeverStops (x.andThen f) := by
  intro r h
  obtain hstop | ⟨u, out, hok, hstop⟩ := andThen_eq_stop.mp h
  · exact hx r hstop
  · exact hf u out hok r hstop

theorem neverStops_forEach {α : Type} {step : α → Nat → State → Effect}
    (h : ∀ e k s, NeverStops (step e k s)) (es : List α) (k : Nat) (s : State) :
    NeverStops (forEach step es k s) := by
  induction es generalizing k s with
  | nil => exact neverStops_ok s []
  | cons e es ih => exact neverStops_andThen (h e k s) fun u _ _ => ih (k + 1) u

/-- A loop runs through where each step does and keeps what the next one needs. -/
theorem forEach_runs {α : Type} {step : α → Nat → State → Effect} {P : State → Prop}
    (h : ∀ e k s, P s → ∃ t out, step e k s = .ok t out ∧ P t) (es : List α) (k : Nat) {s : State}
    (hs : P s) : ∃ t out, forEach step es k s = .ok t out ∧ P t := by
  induction es generalizing k s with
  | nil => exact ⟨s, [], rfl, hs⟩
  | cons e es ih =>
    obtain ⟨u, o1, hu, hP⟩ := h e k s hs
    obtain ⟨t, o2, ht, hP⟩ := ih (k + 1) hP
    exact ⟨t, o1 ++ o2, andThen_eq_ok.mpr ⟨u, o1, o2, hu, ht, rfl⟩, hP⟩

/-- A run of elements that all hold a value can be read. -/
theorem collect_runs {α : Type} (store : Store) {read : Nat → Option α} {n : Nat}
    (h : ∀ k < n, (read k).isSome = true) : ∃ xs, collect store read 0 n = .ok xs := by
  refine ⟨List.ofFn fun k : Fin n => (read k).get (h k k.isLt), collect_eq_ok.mpr ⟨by simp, fun k hk => ?_⟩⟩
  simp [hk]

/-! ### The list and the tree hold values -/

theorem readSlist_isSome {s : State} (h : (leafSymbols s).length = s.nleaf.toNat) {i : Nat}
    (hi : i < s.nleaf.toNat) : (s.readSlist i).isSome = true := by
  rw [leafSymbols, List.length_filterMap_eq_countP] at h
  have hall := List.countP_eq_length.mp (h.trans List.length_range.symm) i (List.mem_range.mpr hi)
  simpa using hall

/-- Every node in use is a leaf, or is internal over two lower nodes. -/
theorem readNode_cases {s : State} (htree : TreeInv s) (hlist : (leafSymbols s).length = s.nleaf.toNat)
    {n : NodeIx} (hn : n.toNat < s.nnode.toNat) :
    (∃ sym p, s.readNode n = some (.leaf sym p)) ∨
      ∃ p l r, s.readNode n = some (.internal p l r) ∧ s.nleaf.toNat ≤ n.toNat ∧
        l.toNat < n.toNat ∧ r.toNat < n.toNat := by
  obtain ⟨-, -, hleaf, hint, -⟩ := htree
  by_cases hlt : n.toNat < s.nleaf.toNat
  · obtain ⟨e, he⟩ := Option.isSome_iff_exists.mp (readSlist_isSome hlist hlt)
    have hmatch := hleaf n.toNat hlt
    rw [leafMatches, ofNat_toNat_self, he] at hmatch
    exact .inl ⟨e.sym, e.prob, hmatch⟩
  · obtain ⟨p, l, r, hread, hl, hr⟩ := isInternalOver_iff.mp (hint n.toNat hn (by omega))
    rw [ofNat_toNat_self] at hread
    exact .inr ⟨p, l, r, hread, by omega, hl, hr⟩

/-! ### BUILD -/

/-- Between two merges every queued node holds a value. -/
theorem readNode_isSome_of_queued {L : List Entry} {s : State} (h : MergeInv L s) {n : NodeIx}
    (hn : n ∈ queued s) : (s.readNode n).isSome = true := by
  have huse := h.lt_nnode_of_queued hn
  by_cases hlt : n.toNat < L.length
  · have hleaf := h.leaf n.toNat hlt
    rw [ofNat_toNat_self, List.getElem?_eq_getElem hlt] at hleaf
    rw [hleaf]
    rfl
  · obtain ⟨p, l, r, hread, -⟩ := isInternalOver_iff.mp (h.internal n.toNat huse (by omega))
    rw [ofNat_toNat_self] at hread
    rw [hread]
    rfl

/-- A pick finds a node where one is queued and every queued node holds a value (rule R164). -/
theorem pick_runs {s : State} (hpos : 1 ≤ (queued s).length)
    (hread : ∀ n ∈ queued s, (s.readNode n).isSome = true) : ∃ n u, pick s = .ok (n, u) := by
  rw [pick]
  split
  · next hs ht => simp [queued, hs, ht] at hpos
  · exact ⟨_, _, rfl⟩
  · exact ⟨_, _, rfl⟩
  next h hs t ts hsrcq htgtq =>
  obtain ⟨x, hx⟩ := Option.isSome_iff_exists.mp (hread h (by simp [queued, hsrcq]))
  obtain ⟨y, hy⟩ := Option.isSome_iff_exists.mp (hread t (by simp [queued, htgtq]))
  rw [hx, hy]
  dsimp only
  split
  · exact ⟨_, _, rfl⟩
  · exact ⟨_, _, rfl⟩

/-- A pick takes one node, which holds a value, and leaves the queued nodes' values. -/
theorem pick_held {s u : State} {n : NodeIx} (h : pick s = .ok (n, u))
    (hread : ∀ m ∈ queued s, (s.readNode m).isSome = true) :
    (queued s).length = (queued u).length + 1 ∧ (∀ m, u.readNode m = s.readNode m) ∧
      (s.readNode n).isSome = true ∧ ∀ m ∈ queued u, (u.readNode m).isSome = true := by
  obtain ⟨hperm, hframe⟩ := pick_queued h
  have hsame : ∀ m, u.readNode m = s.readNode m := readNode_congr (by rw [hframe]) (by rw [hframe])
  refine ⟨hperm.length_eq, hsame, hread n (hperm.mem_iff.mpr List.mem_cons_self), fun m hm => ?_⟩
  rw [hsame]
  exact hread m (hperm.mem_iff.mpr (List.mem_cons_of_mem n hm))

/-- With two nodes queued or more a merge runs through. -/
theorem mergeStep_runs {L : List Entry} {s : State} (h : MergeInv L s) (hmore : 1 < (queued s).length) :
    ∃ t, mergeStep s = .ok t [] := by
  have hheld : ∀ n ∈ queued s, (s.readNode n).isSome = true := fun n => readNode_isSome_of_queued h
  obtain ⟨a, s1, h1⟩ := pick_runs hmore.le hheld
  obtain ⟨hlen, hsame1, ha, hheld1⟩ := pick_held h1 hheld
  obtain ⟨b, s2, h2⟩ := pick_runs (by omega) hheld1
  obtain ⟨-, hsame2, hb, -⟩ := pick_held h2 hheld1
  rw [← hsame1, ← hsame2] at ha
  rw [← hsame2] at hb
  obtain ⟨x, hx⟩ := Option.isSome_iff_exists.mp ha
  obtain ⟨y, hy⟩ := Option.isSome_iff_exists.mp hb
  refine ⟨addInternal (binary64.add x.prob y.prob) a b s2, ?_⟩
  simp only [mergeStep, h1, h2, joinNodes, hx, hy]

theorem mergeLoop_runs {L : List Entry} (hL : L.length ≤ 128) (n : Nat) {s : State} (h : MergeInv L s) :
    ∃ t out, mergeLoop n s = .ok t out := by
  induction n generalizing s with
  | zero => exact ⟨s, [], rfl⟩
  | succ n ih =>
    rw [mergeLoop]
    split
    · next hmore =>
      rw [← List.length_append] at hmore
      obtain ⟨u, hu⟩ := mergeStep_runs h hmore
      obtain ⟨t, out, ht⟩ := ih (mergeInv_mergeStep hL h hu)
      exact ⟨t, [] ++ out, andThen_eq_ok.mpr ⟨u, [], out, hu, ht, rfl⟩⟩
    · exact ⟨s, [], rfl⟩

/-- BUILD runs through on a list of 2 to 128 entries that all hold a value. -/
theorem buildBody_runs {s : State} (hlow : 2 ≤ s.nleaf.toNat) (hhigh : s.nleaf.toNat ≤ 128)
    (hlist : ∀ i < s.nleaf.toNat, (s.readSlist i).isSome = true) :
    ∃ t out, buildBody s = .ok t out := by
  obtain ⟨L, hL⟩ := collect_runs .slist hlist
  have hlen := (collect_eq_ok.mp hL).1
  obtain ⟨u, out, hloop⟩ := mergeLoop_runs (hlen ▸ hhigh) s.nleaf.toNat
    (mergeInv_loadLeaves (s := s) hlen.symm (by omega))
  refine ⟨{ u with phase := .built }, out ++ [], ?_⟩
  rw [buildBody, if_neg (by omega), hL]
  exact andThen_eq_ok.mpr ⟨u, out, [], hloop, rfl, rfl⟩

/-! ### GEN -/

/-- A node's children are lower, and the leaves are the lowest `NLEAF` nodes: the traversal from node `n`
goes at most `n + 1 - NLEAF` edges deep (rule R193). -/
theorem visit_runs {s : State} (htree : TreeInv s) (hlist : (leafSymbols s).length = s.nleaf.toNat)
    {d : Nat} {n : NodeIx} (hn : n.toNat < s.nnode.toNat) (hd : n.toNat + 1 - s.nleaf.toNat < d)
    (path : List Bit) (table : Memory CodeWord) : ∃ table', visit s d n path table = .ok table' := by
  induction d generalizing n path table with
  | zero => exact absurd hd (Nat.not_lt_zero _)
  | succ d ih =>
    obtain ⟨sym, p, hread⟩ | ⟨p, l, r, hread, hge, hl, hr⟩ := readNode_cases htree hlist hn
    · exact ⟨_, by rw [visit, hread]⟩
    · obtain ⟨mid, hmid⟩ := ih (n := l) (by omega) (by omega) (path ++ [false]) table
      obtain ⟨table', htable⟩ := ih (n := r) (by omega) (by omega) (path ++ [true]) mid
      refine ⟨table', ?_⟩
      rw [visit, hread]
      simp only [hmid, htable]

theorem genBody_runs {s : State} (htree : TreeInv s) (hlist : (leafSymbols s).length = s.nleaf.toNat)
    (hlow : 2 ≤ s.nleaf.toNat) (hhigh : s.nleaf.toNat ≤ 128) : ∃ t out, genBody s = .ok t out := by
  have ⟨hnnode, hroot, _⟩ := htree
  obtain ⟨table, htable⟩ :=
    visit_runs htree hlist (d := Config.codeMax + 1) (n := s.root) (by omega)
      (by rw [Config.codeMax]; omega) [] []
  refine ⟨{ s with code := table, phase := .coded }, [], ?_⟩
  rw [genBody, htable]

/-! ### HIST, SORT and the codec -/

theorem histStep_neverStops (e : Byte) (k : Nat) (s : State) : NeverStops (histStep e k s) := by
  obtain ⟨-, -, heq⟩ | ⟨-, heq⟩ | ⟨-, -, heq⟩ := histStep_cases e k s <;> simp [heq]

theorem sortBody_neverStops (s : State) : NeverStops (sortBody s) := by
  unfold sortBody
  split <;> simp

theorem encStep_neverStops (e : Byte) (k : Nat) (s : State) : NeverStops (encStep e k s) := by
  obtain ⟨c, -, -, heq⟩ | ⟨-, heq⟩ | ⟨c, -, -, heq⟩ := encStep_cases e k s <;> simp [heq]

theorem loadToken_neverStops (e : Byte) (k : Nat) (s : State) : NeverStops (loadToken e k s) := by
  obtain ⟨b, -, -, heq⟩ | ⟨-, heq⟩ | ⟨b, -, -, heq⟩ := loadToken_cases e k s <;> simp [heq]

theorem unpackCore_neverStops (s : State) : NeverStops (unpackCore s) := by
  obtain ⟨-, heq⟩ | ⟨-, -, heq⟩ | ⟨-, -, heq⟩ := unpackCore_cases s <;> simp [heq]

/-- ENC and PACK read back the payload that their steps appended. -/
theorem loadAndPack_neverStops {step : Byte → Nat → State → Effect}
    (hstop : ∀ e k u, NeverStops (step e k u))
    (hstep : ∀ e k u v, finalState (step e k u) = some v → v = u ∨ ∃ bits, v = appendBits bits u)
    (s : State) : NeverStops ((forEach step s.inp 0 (emptyPayload s)).andThen packCore) := by
  refine neverStops_andThen (neverStops_forEach hstop _ _ _) fun u out hok => ?_
  have hheld : ∃ xs, HoldsPayload u xs := by
    refine finalState_forEach_keeps (P := fun v => ∃ xs, HoldsPayload v xs) ?_
      ⟨[], holdsPayload_empty s⟩ (by rw [hok]; rfl)
    rintro e k v w ⟨xs, hv⟩ hw
    obtain rfl | ⟨bits, rfl⟩ := hstep e k v w hw
    · exact ⟨xs, hv⟩
    · exact ⟨xs ++ bits, holdsPayload_append hv bits⟩
  obtain ⟨xs, hxs⟩ := hheld
  exact neverStops_of_ok ⟨_, _, packCore_eq hxs⟩

theorem unpackBody_neverStops (s : State) : NeverStops (unpackBody s) := by
  refine neverStops_andThen (unpackCore_neverStops s) fun u out hok => ?_
  rw [unpackCore_ok hok]
  exact neverStops_of_ok ⟨_, _, emitTokens_eq (holdsPayload_unpacked s)⟩

/-! ### DEC -/

/-- The cursor stands on a node in use, and so do all that the decoder moves it to. -/
structure WalkInv (s : State) : Prop where
  root : s.root.toNat < s.nnode.toNat
  cur : s.cur.toNat < s.nnode.toNat
  nodes : ∀ n : NodeIx, n.toNat < s.nnode.toNat →
    (∃ sym p, s.readNode n = some (.leaf sym p)) ∨
      ∃ p l r, s.readNode n = some (.internal p l r) ∧ l.toNat < s.nnode.toNat ∧ r.toNat < s.nnode.toNat

theorem walkInv_startWalk {s : State} (htree : TreeInv s)
    (hlist : (leafSymbols s).length = s.nleaf.toNat) (hlow : 2 ≤ s.nleaf.toNat) :
    WalkInv (startWalk s) := by
  have ⟨hnnode, hroot, _⟩ := htree
  have hrootUse : s.root.toNat < s.nnode.toNat := by omega
  refine ⟨hrootUse, hrootUse, fun n hn => ?_⟩
  obtain hleaf | ⟨p, l, r, hread, -, hl, hr⟩ := readNode_cases htree hlist hn
  · exact .inl hleaf
  · exact .inr ⟨p, l, r, hread, hl.trans hn, hr.trans hn⟩

theorem decStep_runs (bit : Bit) (k : Nat) {s : State} (h : WalkInv s) :
    ∃ t out, decStep bit k s = .ok t out ∧ WalkInv t := by
  obtain ⟨hroot, hcur, hnodes⟩ := h
  obtain ⟨sym, p, hread⟩ | ⟨p, l, r, hread, hl, hr⟩ := hnodes s.cur hcur
  · exact ⟨_, _, decStep_onLeaf hread, hroot, hroot, hnodes⟩
  have hchild : (if bit then r else l).toNat < s.nnode.toNat := by
    split
    · exact hr
    · exact hl
  obtain ⟨sym, q, hnext⟩ | ⟨q, l', r', hnext, -, -⟩ := hnodes _ hchild
  · exact ⟨_, _, decStep_leaf hread hnext, hroot, hroot, hnodes⟩
  · exact ⟨_, _, decStep_internal hread hnext, hroot, hchild, hnodes⟩

theorem decBody_neverStops {s : State} (h : WalkInv (startWalk s)) : NeverStops (decBody s) := by
  refine neverStops_andThen (unpackCore_neverStops s) fun u out hok => ?_
  have hu : WalkInv (startWalk u) := by
    rw [unpackCore_ok hok]
    exact ⟨h.root, h.cur, h.nodes⟩
  obtain ⟨t, out, hwalk, -⟩ := forEach_runs (P := WalkInv) (fun bit k _ => decStep_runs bit k)
    (payloadOf (bitsOfBytes s.inp)) 0 hu
  refine neverStops_of_ok ⟨t, out, ?_⟩
  rw [walkPayload, readPayload_eq (unpackCore_ok hok ▸ holdsPayload_unpacked s)]
  exact hwalk

/-! ### Every command, and every step -/

/-- From SORTED on the list has 2 to 128 entries, each with a value. -/
theorem list_of_lifecycleInv {s : State} (h : LifecycleInv s) (he : s.err = 0) (hp : 1 ≤ s.phase.rank) :
    2 ≤ s.nleaf.toNat ∧ s.nleaf.toNat ≤ 128 ∧ (leafSymbols s).length = s.nleaf.toNat := by
  obtain ⟨hcount, hsorted, -⟩ := h he
  obtain ⟨hlow, hhigh⟩ := Lifecycle.nleaf_range hcount (hsorted hp)
  obtain ⟨-, -, hlist, -⟩ := hsorted hp
  exact ⟨hlow, hhigh, hlist⟩

theorem tree_of_lifecycleInv {s : State} (h : LifecycleInv s) (he : s.err = 0) (hp : 2 ≤ s.phase.rank) :
    TreeInv s := by
  obtain ⟨-, -, htree, -⟩ := h he
  exact htree hp

/-- Where it is legal and the invariants hold, no command's pseudocode stops. -/
theorem bodyOf_neverStops {i : Instr} {s : State} (h : LifecycleInv s) (he : s.err = 0)
    (hlegal : legalIn i s.phase = true) : NeverStops (bodyOf i s) := by
  cases i with
  | clr => exact neverStops_ok _ []
  | hist => exact neverStops_forEach histStep_neverStops _ _ _
  | sort => exact sortBody_neverStops s
  | build =>
    have hphase : s.phase = .sorted := by simpa [legalIn] using hlegal
    obtain ⟨hlow, hhigh, hlist⟩ := list_of_lifecycleInv h he (by rw [hphase]; decide)
    exact neverStops_of_ok (buildBody_runs hlow hhigh fun i => readSlist_isSome hlist)
  | gen =>
    have hphase : s.phase = .built := by simpa [legalIn] using hlegal
    obtain ⟨hlow, hhigh, hlist⟩ := list_of_lifecycleInv h he (by rw [hphase]; decide)
    have htree := tree_of_lifecycleInv h he (by rw [hphase]; decide)
    exact neverStops_of_ok (genBody_runs htree hlist hlow hhigh)
  | enc =>
    refine loadAndPack_neverStops encStep_neverStops (fun e k u v hv => ?_) s
    exact (encStep_final hv).imp_right fun ⟨bits, _, hbits⟩ => ⟨bits, hbits⟩
  | dec =>
    have hphase : s.phase = .built ∨ s.phase = .coded := by simpa [legalIn] using hlegal
    have hrank : 2 ≤ s.phase.rank := by obtain hp | hp := hphase <;> rw [hp] <;> decide
    obtain ⟨hlow, -, hlist⟩ := list_of_lifecycleInv h he (by omega)
    exact decBody_neverStops (walkInv_startWalk (tree_of_lifecycleInv h he hrank) hlist hlow)
  | pack =>
    refine loadAndPack_neverStops loadToken_neverStops (fun e k u v hv => ?_) s
    exact (loadToken_final hv).imp_right fun ⟨b, _, hb⟩ => ⟨[b], hb⟩
  | unpack => exact unpackBody_neverStops s

/-- From a state that meets the invariants every command ends. -/
theorem exec_runs {s : State} (h : LifecycleInv s) (i : Instr) : ∃ t, exec i s = .next t := by
  by_cases hclr : i = .clr
  · subst hclr; exact ⟨_, rfl⟩
  rw [exec_eq_runCommand hclr]
  by_cases he : s.err = 0
  case neg => exact ⟨_, runCommand_refused he⟩
  cases hlegal : legalIn i s.phase with
  | false => exact ⟨_, runCommand_sequence he hlegal⟩
  | true =>
    rw [runCommand_ready he hlegal]
    cases hbody : bodyOf i s with
    | ok t out => exact ⟨_, rfl⟩
    | raise c v p t => exact ⟨_, rfl⟩
    | stop r => exact absurd hbody (bodyOf_neverStops h he hlegal r)

/-- Settles O50, by the kinds of step: only a command can stop, and none does under the invariants. -/
theorem stepNeverStopsUnderInvariant : Obligations.StepNeverStopsUnderInvariant := by
  intro s h
  obtain ⟨-, heq⟩ | ⟨rest, -, heq⟩ | ⟨rest, -, heq⟩ | ⟨w, x, rest, i, -, -, heq⟩ |
    ⟨w, x, rest, -, -, heq⟩ := step_cases s <;> rw [heq]
  · exact ⟨_, rfl⟩
  · exact ⟨_, rfl⟩
  · exact ⟨_, rfl⟩
  · exact exec_runs (lifecycleInv_ports h rest x s.results) i
  · exact ⟨_, rfl⟩

end Sys2Proof.Proofs.Progress
end

section
/-! PROOFS. The encoding (30_encoding.md): the opcode map (rules R91, R92 and R99), the
pseudo-commands (rule R105), and bits to bytes and back (rules R97 and R98). -/

namespace Sys2Proof.Proofs.Encoding

open Sys2Proof.Machine Sys2Proof.Laws

/-! ### Command words -/

@[simp] theorem decode_encode (i : Instr) : decode (encode i) = .command i := by
  cases i with
  | clr => exact RoundTrip.clr rfl
  | hist => exact RoundTrip.hist rfl
  | sort => exact RoundTrip.sort rfl
  | build => exact RoundTrip.build rfl
  | gen => exact RoundTrip.gen rfl
  | enc => exact RoundTrip.enc rfl
  | dec => exact RoundTrip.dec rfl
  | pack => exact RoundTrip.pack rfl
  | unpack => exact RoundTrip.unpack rfl

/-- The opcode map gives a command to no opcode but its own. -/
theorem opOfInstr_of_instrOfOp {op : BitVec 4} {i : Instr} (h : instrOfOp op = some i) :
    opOfInstr i = op := by
  unfold instrOfOp at h
  split at h
  case h_10 => contradiction
  all_goals
    rename_i hop
    cases h
    exact BitVec.eq_of_toNat_eq hop.symm

/-- A word is its reserved field above its opcode (rule R91). -/
theorem append_c0Fields (w : Byte) : (c0Fields w).rsv ++ (c0Fields w).op = w :=
  BitVec.extractLsb'_append_extractLsb'_eq_extractLsb' (by rfl) |>.trans BitVec.extractLsb'_eq_self

theorem encode_of_decode {w : Byte} {i : Instr} (h : decode w = .command i) : w = encode i := by
  unfold decode at h
  split at h
  case isFalse => contradiction
  case isTrue hrsv =>
    split at h
    · next hop =>
      cases h
      rw [← append_c0Fields w, encode, opOfInstr_of_instrOfOp hop, eq_of_beq hrsv]
    · contradiction

/-- A command's word is one of 0x01 to 0x09 (rule R92). -/
theorem encode_range (i : Instr) : 1 ≤ (encode i).toNat ∧ (encode i).toNat ≤ 9 := by
  cases i <;> decide

/-- Settles O6: the two directions of the round trip, with the range of the nine words. -/
theorem decodeInvertsEncode : Obligations.DecodeInvertsEncode := by
  refine ⟨fun i _ => decode_encode i, fun w i => ⟨fun h => ?_, ?_⟩⟩
  · rw [encode_of_decode h]
    exact ⟨rfl, encode_range i⟩
  · rintro ⟨rfl, -⟩
    exact decode_encode i

/-- Settles O5: each of the nine words is its command's encoding. -/
theorem wordsDecodeAsTabled : Obligations.WordsDecodeAsTabled :=
  ⟨decode_encode .clr, decode_encode .hist, decode_encode .sort, decode_encode .build,
    decode_encode .gen, decode_encode .enc, decode_encode .dec, decode_encode .pack,
    decode_encode .unpack⟩

/-- Settles O15: each expansion lists encodings, which compute to the words. -/
theorem pseudoCommandsExpand : Obligations.PseudoCommandsExpand := fun _ => ⟨rfl, rfl⟩

/-! ### Bits to bytes and back -/

theorem getElem?_bitsOfByte (v : Byte) {j : Nat} (hj : j < 8) :
    (bitsOfByte v)[j]? = some (v.getLsbD (7 - j)) := by
  interval_cases j <;> rfl

theorem bitsOfByte_injective : Function.Injective bitsOfByte := by
  intro v w h
  refine BitVec.eq_of_getLsbD_eq fun i hi => ?_
  have hbit : (bitsOfByte v)[7 - i]? = (bitsOfByte w)[7 - i]? := by rw [h]
  rw [getElem?_bitsOfByte v (by omega), getElem?_bitsOfByte w (by omega), Option.some_inj] at hbit
  rwa [Nat.sub_sub_self (by omega)] at hbit

/-- The byte of a byte's own bits is that byte (rule R67). -/
theorem byteOfBits_getLsbD (v : Byte) :
    byteOfBits (v.getLsbD 7) (v.getLsbD 6) (v.getLsbD 5) (v.getLsbD 4) (v.getLsbD 3) (v.getLsbD 2)
      (v.getLsbD 1) (v.getLsbD 0) = v :=
  bitsOfByte_injective (bitsOfByte_byteOfBits ..)

/-- A byte is the sum of its bits' weights, first bit most significant (rule R67). -/
theorem toNat_eq_sum_bits (v : Byte) :
    v.toNat = ((List.range 8).map (fun j => (v.getLsbD (7 - j)).toNat * 2 ^ (7 - j))).sum := by
  have hbit (i : Nat) : (v.getLsbD i).toNat ≤ 1 := Bool.toNat_le _
  conv_lhs =>
    rw [← byteOfBits_getLsbD v, byteOfBits, BitVec.toNat_ofNat, Nat.mod_eq_of_lt (by
      linarith [hbit 7, hbit 6, hbit 5, hbit 4, hbit 3, hbit 2, hbit 1, hbit 0])]
  simp [List.range_succ, Nat.add_assoc]

theorem bytesOfBits_bitsOfBytes (b : List Byte) : bytesOfBits (bitsOfBytes b) = b := by
  induction b with
  | nil => rfl
  | cons v b ih =>
    calc bytesOfBits (bitsOfBytes (v :: b)) = _ :: bytesOfBits (bitsOfBytes b) := rfl
      _ = v :: b := by rw [byteOfBits_getLsbD, ih]

theorem bitsOfBytes_bytesOfBits {x : List Bit} (h : x.length % 8 = 0) :
    bitsOfBytes (bytesOfBits x) = x := by
  induction x using bytesOfBits.induct with
  | case1 b7 b6 b5 b4 b3 b2 b1 b0 rest ih =>
    simp only [List.length_cons] at h
    rw [bytesOfBits, bitsOfBytes, List.flatMap_cons, bitsOfByte_byteOfBits, ← bitsOfBytes,
      ih (by omega)]
    rfl
  | case2 x hshort =>
    -- of the lengths below 8 only 0 meets `h`, so the match leaves no other
    match x with
    | [] => rfl
    | b7 :: b6 :: b5 :: b4 :: b3 :: b2 :: b1 :: b0 :: rest => exact (hshort _ _ _ _ _ _ _ _ _ rfl).elim

theorem length_bytesOfBits {x : List Bit} (h : x.length % 8 = 0) :
    (bytesOfBits x).length = x.length / 8 := by
  have hlen := length_bitsOfBytes (bytesOfBits x)
  rw [bitsOfBytes_bytesOfBits h] at hlen
  omega

/-- Bit `8k + j` of a byte stream is bit `7 - j` of byte `k` (rule R98). -/
theorem getElem?_bitsOfBytes (b : List Byte) (k : Nat) {j : Nat} (hj : j < 8) :
    (bitsOfBytes b)[8 * k + j]? = b[k]?.map (fun v => v.getLsbD (7 - j)) := by
  induction b generalizing k with
  | nil => rfl
  | cons v b ih =>
    rw [bitsOfBytes, List.flatMap_cons, ← bitsOfBytes]
    have hlen : (bitsOfByte v).length = 8 := rfl
    cases k with
    | zero => simp [List.getElem?_append_left (hlen ▸ hj), getElem?_bitsOfByte v hj]
    | succ k =>
      rw [List.getElem?_append_right (by omega), List.getElem?_cons_succ, ← ih k, hlen]
      congr 1
      omega

/-- Byte `k` of a bit sequence sums the weights of the bits from `8k` on (rule R97). -/
theorem toNat_of_getElem?_bytesOfBits {x : List Bit} (h : x.length % 8 = 0) {k : Nat} {v : Byte}
    (hv : (bytesOfBits x)[k]? = some v) :
    v.toNat = ((List.range 8).map (fun j => (x.getD (8 * k + j) false).toNat * 2 ^ (7 - j))).sum := by
  rw [toNat_eq_sum_bits]
  refine congrArg List.sum (List.map_congr_left fun j hj => ?_)
  have hbit := getElem?_bitsOfBytes (bytesOfBits x) k (List.mem_range.mp hj)
  rw [bitsOfBytes_bytesOfBits h, hv] at hbit
  rw [List.getD_eq_getElem?_getD, hbit]
  rfl

/-- Settles O36: one inverse by the byte recursion, the other by induction on the bytes; the values
follow from where `bitsOfBytes` puts each bit. -/
theorem bitsAndBytesAreInverse : Obligations.BitsAndBytesAreInverse := by
  refine ⟨fun x h => ⟨length_bytesOfBits h, bitsOfBytes_bytesOfBits h, fun k hk => ?_⟩,
    fun b => ⟨length_bitsOfBytes b, bytesOfBits_bitsOfBytes b,
      fun k _ j hj => getElem?_bitsOfBytes b k hj⟩⟩
  have hv := List.getElem?_eq_getElem (hk.trans_eq (length_bytesOfBits h).symm)
  exact ⟨_, hv, toNat_of_getElem?_bytesOfBits h hv⟩

end Sys2Proof.Proofs.Encoding
end

section
/-! PROOFS. Session control (40_session_control.md): what CLR leaves (rules R120 and R121), and the refusal
of every other command while `ERR != 0`. -/

namespace Sys2Proof.Proofs.Session

open Sys2Proof.Machine Sys2Proof.Laws

/-- CLR reads no IN and outputs nothing: it ends `done` in the cleared session, in every state. -/
theorem exec_clr_next (s : State) : exec .clr s = .next (reply .done [] (clearSession s)) := by
  rw [exec_clr]
  rfl

/-- A cleared session is the reset state, but for the memories that rule R121 leaves and the model's own
fields. -/
theorem clearSession_eq_reset (s : State) :
    clearSession s = { State.reset with
      slist := s.slist, node := s.node, bitbuf := s.bitbuf, bitcap := s.bitcap, samples := s.samples,
      host := s.host, inp := s.inp, results := s.results } := rfl

/-- Every command but CLR is refused while `ERR != 0` (rule R307). -/
theorem exec_refused {i : Instr} {s : State} (hi : i ≠ .clr) (he : s.err ≠ 0) :
    exec i s = .next (consumeIn i.readsIn (refuse s)) := by
  rw [exec_eq_runCommand hi, runCommand_refused he]

/-- Settles O2: CLR's one `done` response is appended to a cleared session, and a refusal only replies. -/
theorem clrStartsNewSession : Obligations.ClrStartsNewSession := by
  refine ⟨fun s => ⟨_, exec_clr_next s, ?_⟩, fun s i he hi => ⟨_, exec_refused hi he, ?_, ?_⟩⟩
  · rw [clearSession_eq_reset]
    rfl
  · rw [consumeIn_err, refuse_err]
  · rw [consumeIn_results, refuse_results]

/-! ### Memories without elements (rule R48) -/

theorem readSlist_of_nleaf_zero {s : State} (h : s.nleaf = 0) (i : Nat) : s.readSlist i = none := by
  simp [State.readSlist, h]

theorem readNode_of_nnode_zero {s : State} (h : s.nnode = 0) (n : NodeIx) : s.readNode n = none := by
  simp [State.readNode, h]

theorem readBit_of_bitlen_zero {s : State} (h : s.bitlen = 0) (i : Nat) : s.readBit i = none := by
  simp [State.readBit, h]

/-- Settles O3: CLR keeps the three memories, and sets to 0 the registers that count their elements. -/
theorem clrHidesBulkMemories : Obligations.ClrHidesBulkMemories := fun s =>
  ⟨_, exec_clr_next s, rfl, rfl, rfl, readSlist_of_nleaf_zero rfl, readNode_of_nnode_zero rfl,
    readBit_of_bitlen_zero rfl⟩

end Sys2Proof.Proofs.Session
end

section
/-! PROOFS. HIST as a whole (41_frequency_table.md, rules R132 to R134): the state that counting a stream
leaves, what it reads as, and the two statements that follow. -/

namespace Sys2Proof.Proofs.HistStream

open Sys2Proof.Machine Sys2Proof.Laws Sys2Proof.Proofs.Frames Sys2Proof.Proofs.Histogram

/-! ### Counting one symbol -/

/-- One increment and `n` more. -/
theorem add_one_add_ofNat {w : Nat} (a : BitVec w) (n : Nat) :
    a + 1 + BitVec.ofNat w n = a + BitVec.ofNat w (n + 1) := by
  rw [BitVec.add_assoc, Nat.add_comm n, BitVec.ofNat_add]
  rfl

theorem countSymbol_total_toNat (sym : Nat) {s : State} (h : s.total.toNat < 2 ^ 32 - 1) :
    (countSymbol sym s).total.toNat = s.total.toNat + 1 := by
  rw [countSymbol_total]
  bv_omega

/-! ### Counting a stream -/

/-- The state after the histogram steps of a stream, none of which raises. -/
def countStream (es : List Byte) (s : State) : State := es.foldl (fun s e => countSymbol e.toNat s) s

/-- Every element is a symbol and `TOTAL` has room for all of them: neither check of rule R133 fails. -/
def Countable (es : List Byte) (s : State) : Prop :=
  (∀ e ∈ es, e.toNat < 128) ∧ s.total.toNat + es.length ≤ 2 ^ 32 - 1

theorem countable_nil (s : State) : Countable [] s :=
  ⟨List.forall_mem_nil _, Nat.le_sub_one_of_lt s.total.isLt⟩

@[simp] theorem countStream_nil (s : State) : countStream [] s = s := rfl

@[simp] theorem countStream_cons (e : Byte) (es : List Byte) (s : State) :
    countStream (e :: es) s = countStream es (countSymbol e.toNat s) := rfl

theorem countStream_append (x y : List Byte) (s : State) :
    countStream (x ++ y) s = countStream y (countStream x s) := List.foldl_append

theorem countStream_writes (es : List Byte) (s : State) : WritesOnly .hist s (countStream es s) := by
  induction es generalizing s with
  | nil => exact .refl _ s
  | cons e es ih =>
    have hstep : WritesOnly .hist s (countSymbol e.toNat s) := rfl
    exact hstep.trans (ih _)

@[simp] theorem countStream_err (es : List Byte) (s : State) : (countStream es s).err = s.err :=
  (countStream_writes es s).keeps State.err fun _ => rfl

theorem countStream_total (es : List Byte) (s : State) :
    (countStream es s).total = s.total + BitVec.ofNat 32 es.length := by
  induction es generalizing s with
  | nil => simp
  | cons e es ih =>
    rw [countStream_cons, ih, countSymbol_total, List.length_cons, add_one_add_ofNat]

theorem readCount_countStream (es : List Byte) (s : State) (x : Nat) :
    (countStream es s).readCount x =
      s.readCount x + BitVec.ofNat 32 (es.countP fun e => e.toNat == x) := by
  induction es generalizing s with
  | nil => simp
  | cons e es ih =>
    rw [countStream_cons, ih, readCount_countSymbol, List.countP_cons]
    by_cases hx : x = e.toNat
    · subst hx
      rw [if_pos rfl, if_pos (beq_self_eq_true _), add_one_add_ofNat]
    · rw [if_neg hx, if_neg (by simpa using Ne.symm hx), Nat.add_zero]

/-! ### The histogram registers -/

/-- The registers and the memory that a histogram step reads and writes are the same. -/
structure SameHistogram (s t : State) : Prop where
  count : s.count = t.count
  total : s.total = t.total
  ndist : s.ndist = t.ndist

theorem SameHistogram.trans {s t u : State} (hst : SameHistogram s t) (htu : SameHistogram t u) :
    SameHistogram s u :=
  ⟨hst.count.trans htu.count, hst.total.trans htu.total, hst.ndist.trans htu.ndist⟩

theorem countable_congr {es : List Byte} {s t : State} (h : SameHistogram s t) (hs : Countable es s) :
    Countable es t := by
  rw [Countable, ← h.total]
  exact hs

theorem countSymbol_congr (sym : Nat) {s t : State} (h : SameHistogram s t) :
    SameHistogram (countSymbol sym s) (countSymbol sym t) := by
  have hread : s.readCount sym = t.readCount sym := readCount_congr h.count sym
  constructor
  · simp only [countSymbol_count, h.count, hread]
  · simp only [countSymbol_total, h.total]
  · simp only [countSymbol_ndist, h.ndist, hread]

/-- Counting depends on no other part of the state, the ports in particular. -/
theorem countStream_congr (es : List Byte) {s t : State} (h : SameHistogram s t) :
    SameHistogram (countStream es s) (countStream es t) := by
  induction es generalizing s t with
  | nil => exact h
  | cons e es ih => exact ih (countSymbol_congr e.toNat h)

/-! ### Newly seen symbols -/

/-- The symbol was not counted before and is in the stream. -/
def newlySeen (s : State) (es : List Byte) (x : Nat) : Bool :=
  s.readCount x == 0 && es.any fun e => e.toNat == x

/-- The symbol of a histogram step that does not wrap its COUNT is no longer new after it. -/
theorem countP_newlySeen_cons {s : State} {e : Byte} (es : List Byte) (he : e.toNat < 128)
    (hwrap : s.readCount e.toNat + 1 ≠ 0) :
    (List.range 128).countP (newlySeen s (e :: es)) =
      (List.range 128).countP (newlySeen (countSymbol e.toNat s) es) +
        if s.readCount e.toNat = 0 then 1 else 0 := by
  simp only [countP_eq_sum]
  refine sum_range_of_one_differs he ?_ fun x hx => ?_
  · simp only [newlySeen, readCount_countSymbol, if_true, beq_false_of_ne hwrap]
    by_cases h0 : s.readCount e.toNat = 0
    · simp [h0]
    · rw [if_neg h0, beq_false_of_ne h0]; rfl
  · simp only [newlySeen, readCount_countSymbol, if_neg hx, List.any_cons, beq_false_of_ne hx.symm,
      Bool.false_or]

/-- Where no COUNT exceeds `TOTAL`, none wraps to 0 and each symbol is newly seen once. -/
theorem countStream_ndist {es : List Byte} {s : State} (h : Countable es s)
    (hle : ∀ x < 128, (s.readCount x).toNat ≤ s.total.toNat) :
    (countStream es s).ndist = s.ndist + BitVec.ofNat 8 ((List.range 128).countP (newlySeen s es)) := by
  induction es generalizing s with
  | nil =>
    have hnone : newlySeen s [] = fun _ => false := funext fun _ => Bool.and_false _
    simp [hnone]
  | cons e es ih =>
    obtain ⟨hsym, hroom⟩ := h
    obtain ⟨he, hes⟩ := List.forall_mem_cons.mp hsym
    rw [List.length_cons] at hroom
    have htotal := countSymbol_total_toNat e.toNat (s := s) (by omega)
    have hcount : (s.readCount e.toNat + 1).toNat = (s.readCount e.toNat).toNat + 1 := by
      have := hle _ he
      bv_omega
    have hwrap : s.readCount e.toNat + 1 ≠ 0 := fun h0 => by rw [h0] at hcount; cases hcount
    have hle' : ∀ x < 128, ((countSymbol e.toNat s).readCount x).toNat ≤
        (countSymbol e.toNat s).total.toNat := fun x hx => by
      have := hle x hx
      have := hle _ he
      rw [readCount_countSymbol, htotal]
      split <;> omega
    rw [countStream_cons, ih ⟨hes, by omega⟩ hle', countP_newlySeen_cons es he hwrap, countSymbol_ndist]
    split
    · exact add_one_add_ofNat _ _
    · rw [Nat.add_zero]

/-! ### The loop and the command -/

/-- The histogram loop runs through exactly on a countable stream, and then it counts it. -/
theorem forEach_histStep_ok {es : List Byte} {i : Nat} {s t : State} {out : List Byte} :
    forEach histStep es i s = .ok t out ↔ Countable es s ∧ t = countStream es s ∧ out = [] := by
  induction es generalizing i s out with
  | nil => simp [countable_nil, eq_comm]
  | cons e es ih =>
    rw [forEach_cons]
    obtain ⟨he, hfull, heq⟩ | ⟨hrange, heq⟩ | ⟨-, hfull, heq⟩ := histStep_cases e i s <;> rw [heq]
    · rw [andThen_ok_nil, ih, countStream_cons]
      simp only [Countable, List.forall_mem_cons, List.length_cons, countSymbol_total_toNat _ hfull, he, true_and, Nat.add_assoc,
        Nat.add_comm 1]
    · simp only [andThen_raise, reduceCtorEq, false_iff]
      rintro ⟨⟨hsym, -⟩, -⟩
      have := hsym e (.head es)
      omega
    · simp only [andThen_raise, reduceCtorEq, false_iff]
      rintro ⟨⟨-, hroom⟩, -⟩
      rw [List.length_cons] at hroom
      omega

/-- HIST on a countable stream, in the phase that allows it, ends `done`. -/
theorem exec_hist_countable {s : State} (he : s.err = 0) (hp : s.phase = .count)
    (h : Countable s.inp s) :
    exec .hist s = .next (consumeIn true (reply .done [] (countStream s.inp s))) := by
  have hbody : bodyOf .hist s = .ok (countStream s.inp s) [] := forEach_histStep_ok.mpr ⟨h, rfl, rfl⟩
  rw [exec_eq_runCommand (by decide), runCommand_ready he (by rw [hp]; rfl), hbody]
  rfl

/-- A HIST that ends with `ERR = 0` was accepted and counted its stream. -/
theorem exec_hist_done {s t : State} (h : exec .hist s = .next t) (ht : t.err = 0) :
    s.err = 0 ∧ s.phase = .count ∧ Countable s.inp s ∧
      SameHistogram t (countStream s.inp s) := by
  obtain ⟨haccepted, u, out, hbody, rfl⟩ := exec_done h ht
  obtain ⟨he, hlegal⟩ := haccepted (by decide)
  obtain ⟨hcountable, rfl, rfl⟩ := forEach_histStep_ok.mp hbody
  exact ⟨he, by simpa [legalIn] using hlegal, hcountable, ⟨rfl, rfl, rfl⟩⟩

/-- Two streams that can be counted one after the other can be counted in one. -/
theorem countable_append {x y : List Byte} {s : State} (hx : Countable x s)
    (hy : Countable y (countStream x s)) : Countable (x ++ y) s := by
  obtain ⟨hxsym, hxroom⟩ := hx
  obtain ⟨hysym, hyroom⟩ := hy
  have htotal : (countStream x s).total.toNat = s.total.toNat + x.length := by
    rw [countStream_total]; bv_omega
  refine ⟨List.forall_mem_append.mpr ⟨hxsym, hysym⟩, ?_⟩
  rw [List.length_append]
  omega

/-! ### The statements -/

/-- Settles O16: HIST ends in the counted state, whose frame, `TOTAL`, COUNT and `NDIST` are read off by
induction on the stream. -/
theorem histCountsItsStream : Obligations.HistCountsItsStream := by
  intro s he hp hsym hroom
  refine ⟨_, exec_hist_countable he hp ⟨hsym, hroom⟩, ?_, fun x => ?_, fun hle => ?_⟩
  · have hframe : countStream s.inp s = overlay .hist s (countStream s.inp s) := countStream_writes _ s
    rw [← countStream_total, hframe]
    rfl
  · exact readCount_countStream s.inp s x
  · exact countStream_ndist ⟨hsym, hroom⟩ hle

/-- Settles O17: counting a concatenation is counting its parts in turn, whatever stands on the ports. -/
theorem histAccumulates : Obligations.HistAccumulates := by
  refine ⟨fun s t1 t2 x y h1 h2 ht2 => ?_, fun s he hp hinp => ?_⟩
  · obtain ⟨he1, -, hy, hsecond⟩ := exec_hist_done h2 ht2
    obtain ⟨he, hp, hx, hfirst⟩ := exec_hist_done h1 he1
    have hports : SameHistogram { s with inp := x } { s with inp := x ++ y } := ⟨rfl, rfl, rfl⟩
    have hports1 : SameHistogram { t1 with inp := y } t1 := ⟨rfl, rfl, rfl⟩
    have hmiddle := hports1.trans (hfirst.trans (countStream_congr x hports))
    have hend := hsecond.trans (countStream_congr y hmiddle)
    rw [← countStream_append] at hend
    exact ⟨_, exec_hist_countable he hp
        (countable_append (countable_congr hports hx) (countable_congr hmiddle hy)),
      by simpa using he, hend.count.symm, hend.total.symm, hend.ndist.symm⟩
  · rw [exec_hist_countable he hp (hinp ▸ countable_nil s), hinp, countStream_nil, reply, consumeIn,
      if_pos rfl, ← hinp]

end Sys2Proof.Proofs.HistStream
end

section
/-! PROOFS. SORT as a whole (41_frequency_table.md, rules R135 to R138): the state it ends in, which
entries it delivers and in which order, and the three statements that follow. -/

namespace Sys2Proof.Proofs.SortCommand

open Sys2Proof.Machine Sys2Proof.Laws Sys2Proof.Proofs.SortedList

/-! ### The state after SORT -/

/-- The four writes of rule R135 on a non-empty histogram. -/
def sortedState (s : State) : State :=
  { s with
    synth := synthFlag (countedEntries s)
    slist := Memory.writeList s.slist 0 (listOf s)
    nleaf := BitVec.ofNat 8 (listOf s).length
    phase := .sorted }

theorem sortBody_eq {s : State} (ht : s.total ≠ 0) : sortBody s = .ok (sortedState s) [] := by
  rw [sortBody, if_neg ht, sortedState, listOf, (sortEntries_perm _).length_eq]

/-- SORT on a non-empty histogram, in the phase that allows it, ends `done`. -/
theorem exec_sort_done {s : State} (he : s.err = 0) (hp : s.phase = .count) (ht : s.total ≠ 0) :
    exec .sort s = .next (reply .done [] (sortedState s)) := by
  rw [exec_eq_runCommand (by decide), runCommand_ready he (by rw [hp]; rfl), bodyOf, sortBody_eq ht]
  rfl

theorem length_countedEntries_le (s : State) : (countedEntries s).length ≤ 128 := by
  rw [length_countedEntries]
  exact List.countP_le_length.trans_eq List.length_range

theorem length_listOf_le (s : State) : (listOf s).length ≤ 128 := by
  have hle := length_countedEntries_le s
  rw [listOf, (sortEntries_perm _).length_eq]
  obtain ⟨e, -, heq⟩ | ⟨-, heq⟩ := injected_cases s (countedEntries s) <;> rw [heq]
  · exact Nat.le_of_ble_eq_true rfl
  · exact hle

/-- SLIST holds the list and no more (rule R48). -/
theorem readSlist_sortedState (s : State) (i : Nat) : (sortedState s).readSlist i = (listOf s)[i]? := by
  have hle := length_listOf_le s
  have hnleaf : (sortedState s).nleaf.toNat = (listOf s).length := by
    simp only [sortedState, BitVec.toNat_ofNat]
    omega
  rw [State.readSlist, hnleaf]
  by_cases hi : i < (listOf s).length
  · rw [if_pos ⟨hi, hi.trans_le hle⟩, sortedState, read_writeList, if_pos (by omega), Nat.sub_zero]
  · rw [if_neg fun h => hi h.1, List.getElem?_eq_none (by omega)]

theorem readSlist_sort (s : State) (i : Nat) :
    (reply .done [] (sortedState s)).readSlist i = (listOf s)[i]? := by
  exact readSlist_sortedState s i

/-! ### Which entries the list holds -/

theorem mem_countedEntries {s : State} {e : Entry} :
    e ∈ countedEntries s ↔ s.readCount e.sym.toNat ≠ 0 ∧
      e.prob = pRatio (s.readCount e.sym.toNat).toNat s.total.toNat := by
  simp only [countedEntries, List.mem_filterMap, List.mem_range, Config.alpha]
  constructor
  · rintro ⟨x, hx, h⟩
    unfold entryOf at h
    split at h
    · cases h
    next hcounted =>
    cases h
    have hsym : (BitVec.ofNat 7 x).toNat = x := by rw [BitVec.toNat_ofNat, Nat.mod_eq_of_lt hx]
    exact ⟨by rwa [hsym], by rw [hsym]; rfl⟩
  · rintro ⟨hcounted, hprob⟩
    refine ⟨e.sym.toNat, e.sym.isLt, ?_⟩
    rw [entryOf, if_neg hcounted, BitVec.ofNat_toNat, BitVec.setWidth_eq]
    exact congrArg some (congrArg (Entry.mk e.sym) hprob.symm)

/-- Where the list before injection is `[o]`, the symbol of `o` was counted and no other. -/
theorem readCount_ne_zero_iff {s : State} {o : Entry} (h : countedEntries s = [o]) (x : Sym) :
    s.readCount x.toNat ≠ 0 ↔ x = o.sym := by
  constructor
  · intro hx
    have hmem : Entry.mk x (pRatio (s.readCount x.toNat).toNat s.total.toNat) ∈ countedEntries s :=
      mem_countedEntries.mpr ⟨hx, rfl⟩
    rw [h, List.mem_singleton] at hmem
    rw [← hmem]
  · rintro rfl
    exact (mem_countedEntries.mp (h ▸ List.mem_singleton_self o)).1

theorem mem_listOf {s : State} {e : Entry} :
    e ∈ listOf s ↔ e ∈ countedEntries s ∨
      ∃ o, countedEntries s = [o] ∧ e = syntheticEntry s o := by
  rw [listOf, (sortEntries_perm _).mem_iff]
  obtain ⟨o, hone, heq⟩ | ⟨hne, heq⟩ := injected_cases s (countedEntries s) <;> rw [heq]
  · rw [hone]
    simp
  · refine ⟨.inl, ?_⟩
    rintro (h | ⟨o, hone, -⟩)
    · exact h
    · exact absurd (congrArg List.length hone) hne

theorem synthFlag_iff (L : List Entry) : synthFlag L = true ↔ ∃ o, L = [o] := by
  rw [synthFlag, beq_iff_eq, List.length_eq_one_iff]

/-- The list holds the synthetic entry exactly where SYNTH says so (rule R137). -/
theorem synthetic_iff {s : State} {e : Entry} :
    (∃ o, countedEntries s = [o] ∧ e = syntheticEntry s o) ↔
      synthFlag (countedEntries s) = true ∧ e.prob = pRatio 0 s.total.toNat ∧
        ∃ o : Sym, s.readCount o.toNat ≠ 0 ∧ e.sym = o + 1 := by
  rw [synthFlag_iff]
  constructor
  · rintro ⟨o, hone, rfl⟩
    exact ⟨⟨o, hone⟩, rfl, o.sym, (readCount_ne_zero_iff hone _).mpr rfl, rfl⟩
  · rintro ⟨⟨o, hone⟩, hprob, x, hx, hsym⟩
    obtain rfl := (readCount_ne_zero_iff hone x).mp hx
    refine ⟨o, hone, ?_⟩
    rw [syntheticEntry, ← hsym]
    exact congrArg (Entry.mk e.sym) hprob

/-- Settles O20: SORT ends in the sorted state, whose list is a permutation of the entries made. -/
theorem sortDeliversAscendingList : Obligations.SortDeliversAscendingList := by
  intro s he hp ht
  refine ⟨_, listOf s, exec_sort_done he hp ht, ?_, length_listOf_le s, readSlist_sort s,
    listOf_ascending s, fun e => ?_, fun i hi => ?_⟩
  · rw [← length_countedEntries]
    rfl
  · rw [mem_listOf, mem_countedEntries, synthetic_iff]
    rfl
  · rw [reply_slist, sortedState, read_writeList, if_neg (by omega)]

/-! ### The order by counts (rule R138, second half) -/

/-- An entry's probability is its symbol's COUNT over `TOTAL`, also the synthetic one's. -/
theorem prob_of_mem_listOf {s : State} {e : Entry} (h : e ∈ listOf s) :
    e.prob = pRatio (s.readCount e.sym.toNat).toNat s.total.toNat := by
  obtain hcounted | ⟨o, hone, rfl⟩ := mem_listOf.mp h
  · exact (mem_countedEntries.mp hcounted).2
  · have hother : (syntheticEntry s o).sym ≠ o.sym := by simp [syntheticEntry]
    have hzero := Classical.not_not.mp (mt (readCount_ne_zero_iff hone _).mp hother)
    rw [hzero, BitVec.ofNat_eq_ofNat, BitVec.toNat_ofNat, Nat.zero_mod]
    rfl

/-- For one total, ratios are ordered as their counts (rule R9, P2). -/
theorem units_pRatio_lt_iff {a b t : Nat} (ha : a ≤ t) (hb : b ≤ t) (ht : t < 2 ^ 32) :
    units (pRatio a t) < units (pRatio b t) ↔ a < b := by
  have hmono : ∀ {c d : Nat}, c < d → d ≤ t → units (pRatio c t) < units (pRatio d t) := fun hcd hd => by
    rw [Numerics.pRatio_eq, Numerics.pRatio_eq]
    exact Numerics.units_ratio_lt (by decide) hcd hd ht
  refine ⟨fun hlt => ?_, fun hab => hmono hab hb⟩
  obtain hab | rfl | hba := Nat.lt_trichotomy a b
  · exact hab
  · exact absurd hlt (Nat.lt_irrefl _)
  · exact absurd hlt (Nat.lt_asymm (hmono hba ha))

/-- Settles O21: the list ascends by `cf_lt`, and its probabilities are ordered as the counts. -/
theorem sortOrderIsByCount : Obligations.SortOrderIsByCount := by
  intro s t he hp ht hle hsort i j a b hij ha hb
  rw [exec_sort_done he hp ht] at hsort
  cases hsort
  rw [readSlist_sort, List.getElem?_eq_some_iff] at ha hb
  obtain ⟨hi, rfl⟩ := ha
  obtain ⟨hj, rfl⟩ := hb
  have hascends := List.pairwise_iff_getElem.mp (listOf_ascending s) i j hi hj hij
  have hlea := hle _ (listOf s)[i].sym.isLt
  have hleb := hle _ (listOf s)[j].sym.isLt
  rw [cfLt_iff, prob_of_mem_listOf (List.getElem_mem hi), prob_of_mem_listOf (List.getElem_mem hj)]
    at hascends
  have hab := units_pRatio_lt_iff hlea hleb s.total.isLt
  have hba := units_pRatio_lt_iff hleb hlea s.total.isLt
  rw [← BitVec.toNat_inj]
  omega

/-! ### One distinct symbol (rule R137) -/

/-- All of `TOTAL` counted on one symbol makes the one entry of that symbol, its probability 1.0. -/
theorem countedEntries_of_one_symbol {s : State} {o : Sym} (ht : s.total ≠ 0)
    (ho : s.readCount o.toNat = s.total) (hother : ∀ x < 128, x ≠ o.toNat → s.readCount x = 0) :
    countedEntries s = [⟨o, pRatio s.total.toNat s.total.toNat⟩] := by
  have hmem : ∀ e, e ∈ countedEntries s ↔ e ∈ [Entry.mk o (pRatio s.total.toNat s.total.toNat)] := by
    intro e
    rw [mem_countedEntries, List.mem_singleton]
    constructor
    · rintro ⟨hcounted, hprob⟩
      have hsym : e.sym = o := BitVec.eq_of_toNat_eq <|
        Classical.not_not.mp fun hne => hcounted (hother _ e.sym.isLt hne)
      rw [hsym, ho] at hprob
      rw [← hprob, ← hsym]
    · rintro rfl
      exact ⟨by rwa [ho], by rw [ho]⟩
  have hnodup : (countedEntries s).Nodup := (nodup_countedEntries s).of_map
  exact List.perm_singleton.mp ((List.perm_ext_iff_of_nodup hnodup (List.nodup_singleton _)).mpr hmem)

/-- The entry of probability 0 goes before the one of probability 1.0. -/
theorem listOf_of_one_symbol {s : State} {o : Sym} (ht : s.total ≠ 0)
    (ho : s.readCount o.toNat = s.total) (hother : ∀ x < 128, x ≠ o.toNat → s.readCount x = 0) :
    listOf s = [⟨o + 1, pRatio 0 s.total.toNat⟩, ⟨o, pRatio s.total.toNat s.total.toNat⟩] := by
  have hpos : 0 < s.total.toNat := by bv_omega
  have hlt : units (pRatio 0 s.total.toNat) < units (pRatio s.total.toNat s.total.toNat) :=
    (units_pRatio_lt_iff (Nat.zero_le _) le_rfl s.total.isLt).mpr hpos
  have horder : ¬cfLt ⟨o, pRatio s.total.toNat s.total.toNat⟩ ⟨o + 1, pRatio 0 s.total.toNat⟩ = true := by
    rw [cfLt_iff]
    dsimp only
    omega
  rw [listOf, countedEntries_of_one_symbol ht ho hother]
  exact if_neg horder

/-- Settles O22: the two entries are sorted by probability, which are exactly 0 and 1.0. -/
theorem sortInjectsSyntheticEntry : Obligations.SortInjectsSyntheticEntry := by
  intro s o he hp ht ho hother
  have hlist := listOf_of_one_symbol ht ho hother
  obtain ⟨hzero, hone⟩ := Numerics.ratioEndsAreExact s.total.toNat (by bv_omega) s.total.isLt
  rw [hzero, hone] at hlist
  refine ⟨_, exec_sort_done he hp ht, ?_, ?_, ?_, ?_⟩
  · rw [reply_nleaf, sortedState, hlist]
    rfl
  · exact (synthFlag_iff _).mpr ⟨_, countedEntries_of_one_symbol ht ho hother⟩
  · have hsym : o + 1 = BitVec.ofNat 7 ((o.toNat + 1) % 128) := by bv_omega
    rw [readSlist_sort, hlist, hsym]
    rfl
  · rw [readSlist_sort, hlist]
    rfl

end Sys2Proof.Proofs.SortCommand
end

section
/-! PROOFS. One pick and one merge (42_tree_builder.md, rules R164 and R165): which head a pick takes, and the
parent that a merge adds. -/

namespace Sys2Proof.Proofs.MergeStep

open Sys2Proof.Machine Sys2Proof.Laws Sys2Proof.Proofs.Frames Sys2Proof.Proofs.MergeTree

/-! ### The pick -/

theorem pick_of_source_empty {s : State} {t : NodeIx} {ts : List NodeIx} (hs : s.srcq = [])
    (ht : s.tgtq = t :: ts) : pick s = .ok (t, { s with tgtq := ts }) := by
  unfold pick
  rw [hs, ht]

theorem pick_of_target_empty {s : State} {h : NodeIx} {hs : List NodeIx} (hsrcq : s.srcq = h :: hs)
    (htgtq : s.tgtq = []) : pick s = .ok (h, { s with srcq := hs }) := by
  unfold pick
  rw [hsrcq, htgtq]

theorem pick_of_heads {s : State} {h t : NodeIx} {hs ts : List NodeIx} {x y : Node}
    (hsrcq : s.srcq = h :: hs) (htgtq : s.tgtq = t :: ts) (hx : s.readNode h = some x)
    (hy : s.readNode t = some y) :
    pick s = if pLe x.prob y.prob then .ok (h, { s with srcq := hs })
      else .ok (t, { s with tgtq := ts }) := by
  unfold pick
  rw [hsrcq, htgtq]
  dsimp only
  rw [hx, hy]
  rfl

/-- Settles O28: each case is that of the queues' shapes and of the comparison. -/
theorem pickPrefersSourceOnTies : Obligations.PickPrefersSourceOnTies := by
  intro s h t hs ts
  refine ⟨pick_of_source_empty, pick_of_target_empty, fun x y hsrcq htgtq hx hy => ?_⟩
  rw [pick_of_heads hsrcq htgtq hx hy]
  exact ⟨fun hle => if_pos (decide_eq_true hle), fun hlt => if_neg (by simpa [pLe] using hlt)⟩

/-! ### The merge -/

/-- Two picks in a row change the queues alone. -/
theorem picks_frame {s s1 s2 : State} {a b : NodeIx} (h1 : pick s = .ok (a, s1))
    (h2 : pick s1 = .ok (b, s2)) : s2 = { s with srcq := s2.srcq, tgtq := s2.tgtq } := by
  have hframe2 := (pick_queued h2).2
  rw [(pick_queued h1).2] at hframe2
  exact hframe2

theorem readNode_of_queue_frame {s u : State} (h : u = { s with srcq := u.srcq, tgtq := u.tgtq })
    (n : NodeIx) : u.readNode n = s.readNode n :=
  readNode_congr (by rw [h]) (by rw [h]) n

/-- Two picks of nodes that hold values make a merge that runs through. -/
theorem mergeStep_of_picks {s s1 s2 : State} {a b : NodeIx} {x y : Node} (h1 : pick s = .ok (a, s1))
    (h2 : pick s1 = .ok (b, s2)) (hx : s.readNode a = some x) (hy : s.readNode b = some y) :
    mergeStep s = .ok (addInternal (pAdd x.prob y.prob) a b s2) [] := by
  have hread := readNode_of_queue_frame (picks_frame h1 h2)
  rw [← hread] at hx hy
  simp only [mergeStep, h1, h2, joinNodes, hx, hy]
  rfl

/-- The parent that a merge adds to `s` after its two picks stands at `NNODE`; every other node reads as
before. -/
theorem readNode_merged {s u : State} (h : u = { s with srcq := u.srcq, tgtq := u.tgtq })
    (hroom : s.nnode.toNat < Config.nodeMax) (p : P64) (a b n : NodeIx) :
    (addInternal p a b u).readNode n =
      if n = s.nnode then some (.internal p a b) else s.readNode n := by
  have hnnode : u.nnode = s.nnode := by rw [h]
  rw [readNode_addInternal (hnnode ▸ hroom), hnnode, readNode_of_queue_frame h]

/-- Settles O29: the merge is its two picks and then the write of the parent. -/
theorem mergeCreatesParentOfPicks : Obligations.MergeCreatesParentOfPicks := by
  intro s s1 s2 a b x y h1 h2 hroom hx hy
  have hframe := picks_frame h1 h2
  have hnnode : s2.nnode = s.nnode := by rw [hframe]
  have hread := readNode_merged hframe hroom (pAdd x.prob y.prob) a b
  refine ⟨_, mergeStep_of_picks h1 h2 hx hy, ?_, ?_, fun n hn => ?_, ?_⟩
  · rw [← hnnode]; rfl
  · rw [hread, if_pos rfl]
  · rw [hread, if_neg hn]
  · have hlen1 := pick_length h1
    have hlen2 := pick_length h2
    rw [addInternal_tgtq, List.length_append, List.length_singleton]
    omega

/-- A merge that runs picks two nodes of `s` that hold values and adds their parent. -/
theorem mergeStep_parent {s t : State} {out : List Byte} (h : mergeStep s = .ok t out) :
    ∃ a b s1 s2 x y, pick s = .ok (a, s1) ∧ pick s1 = .ok (b, s2) ∧ s.readNode a = some x ∧
      s.readNode b = some y ∧ t = addInternal (pAdd x.prob y.prob) a b s2 := by
  obtain ⟨a, b, s1, s2, x, y, h1, h2, hx, hy, rfl, -⟩ := mergeStep_ok h
  have hread := readNode_of_queue_frame (picks_frame h1 h2)
  rw [hread] at hx hy
  exact ⟨a, b, s1, s2, x, y, h1, h2, hx, hy, rfl⟩

end Sys2Proof.Proofs.MergeStep
end

section
/-! PROOFS. BUILD as a whole (42_tree_builder.md, rules R166 to R172): its nodes are those of the reference
merge over the list, and the state it leaves is a full tree. -/

namespace Sys2Proof.Proofs.BuildCommand

open Sys2Proof.Machine Sys2Proof.Laws Sys2Proof.Claims Sys2Proof.Proofs.Frames
  Sys2Proof.Proofs.SortedList Sys2Proof.Proofs.MergeTree Sys2Proof.Proofs.CodeTable
  Sys2Proof.Proofs.Canonical Sys2Proof.Proofs.Progress Sys2Proof.Proofs.MergeStep

/-! ### The nodes in use, as a list -/

/-- The nodes in use are exactly those of the list, index by index. -/
structure HoldsNodes (s : State) (nodes : List Node) : Prop where
  nnode : s.nnode.toNat = nodes.length
  read : ∀ n : NodeIx, s.readNode n = nodes[n.toNat]?

theorem holdsNodes_loadLeaves {s : State} {L : List Entry} (hlen : s.nleaf.toNat = L.length) :
    HoldsNodes (loadLeaves L s) (L.map leafOf) := by
  refine ⟨by simpa using hlen, fun n => ?_⟩
  rw [State.readNode, loadLeaves_nnode, loadLeaves_node, read_writeList, List.length_map, Nat.zero_add,
    Nat.sub_zero, hlen]
  by_cases hn : n.toNat < L.length
  · rw [if_pos hn, if_pos ⟨Nat.zero_le _, hn⟩]
  · rw [if_neg hn, List.getElem?_eq_none (by simpa using hn)]

theorem holdsNodes_merged {s u : State} {nodes : List Node} (h : HoldsNodes s nodes)
    (hframe : u = { s with srcq := u.srcq, tgtq := u.tgtq }) (hroom : s.nnode.toNat < Config.nodeMax)
    (p : P64) (a b : NodeIx) : HoldsNodes (addInternal p a b u) (nodes ++ [.internal p a b]) := by
  have hnnode : u.nnode = s.nnode := by rw [hframe]
  refine ⟨?_, fun n => ?_⟩
  · rw [nnode_addInternal (hnnode ▸ hroom), hnnode, h.nnode, List.length_append, List.length_singleton]
  · rw [readNode_merged hframe hroom, h.read, List.getElem?_append]
    have hself : n = s.nnode ↔ n.toNat = nodes.length := by rw [← h.nnode, BitVec.toNat_inj]
    by_cases heq : n = s.nnode
    · rw [if_pos heq, hself.mp heq, if_neg (lt_irrefl _), Nat.sub_self, List.getElem?_cons_zero]
    · rw [if_neg heq]
      have hne := mt hself.mpr heq
      split
      · rfl
      · rw [List.getElem?_eq_none (by omega), List.getElem?_eq_none (by simp; omega)]

/-! ### The queues as the reference merge sees them -/

/-- A queued node's index with its probability. -/
def withProb (s : State) (n : NodeIx) : Queued := (n, (s.readNode n).elim 0 Node.prob)

theorem withProb_of_read {s : State} {n : NodeIx} {x : Node} (h : s.readNode n = some x) :
    withProb s n = (n, x.prob) := by
  rw [withProb, h]
  rfl

theorem withProb_congr {s t : State} (h : ∀ n, t.readNode n = s.readNode n) : withProb t = withProb s :=
  funext fun n => by rw [withProb, h, withProb]

/-- A pick is the reference's pick (rule R164). -/
theorem pick_reference {s u : State} {n : NodeIx} (h : pick s = .ok (n, u)) :
    referencePick (s.srcq.map (withProb s)) (s.tgtq.map (withProb s)) =
      some (withProb s n, u.srcq.map (withProb s), u.tgtq.map (withProb s)) := by
  unfold pick at h
  split at h
  · cases h
  · next hsrcq htgtq => cases h; rw [hsrcq, htgtq]; rfl
  · next hsrcq htgtq => cases h; rw [hsrcq, htgtq]; rfl
  · next hsrcq htgtq =>
    rw [hsrcq, htgtq, List.map_cons, List.map_cons, referencePick]
    split at h
    · cases h
    · cases h
    next x y hx hy =>
    rw [withProb_of_read hx, withProb_of_read hy]
    split at h
    · next hle =>
      cases h
      rw [htgtq, List.map_cons, withProb_of_read hx, withProb_of_read hy]
      exact if_pos hle
    · next hgt =>
      cases h
      rw [hsrcq, List.map_cons, withProb_of_read hx, withProb_of_read hy]
      exact if_neg hgt

/-- So many reference merges from the queues of a state (rules R165 and R167). -/
def mergesFrom (rounds : Nat) (s : State) : List Node :=
  referenceMerges rounds s.nnode.toNat (s.srcq.map (withProb s)) (s.tgtq.map (withProb s))

/-- A merge finds `NNODE` below 255 where the list has at most 128 entries. -/
theorem nnode_lt_of_mergeStep {L : List Entry} {s t : State} {out : List Byte} (hL : L.length ≤ 128)
    (h : MergeInv L s) (hm : mergeStep s = .ok t out) : s.nnode.toNat < Config.nodeMax := by
  obtain ⟨a, b, p, u, -, hperm, -⟩ := mergeStep_adds hm
  have hlen : (queued s).length = (queued u).length + 2 := hperm.length_eq
  have hbal := h.balance
  simp only [Config.nodeMax]
  omega

/-- The first of the reference merges is over the two picks (rule R165). -/
theorem mergesFrom_succ {s s1 s2 : State} {a b : NodeIx} {x y : Node} (h1 : pick s = .ok (a, s1))
    (h2 : pick s1 = .ok (b, s2)) (hx : s.readNode a = some x) (hy : s.readNode b = some y) (rounds : Nat) :
    mergesFrom (rounds + 1) s = .internal (pAdd x.prob y.prob) a b ::
      referenceMerges rounds (s.nnode.toNat + 1) (s2.srcq.map (withProb s))
        (s2.tgtq.map (withProb s) ++ [(s.nnode, pAdd x.prob y.prob)]) := by
  have hfirst := pick_reference h1
  have hsecond := pick_reference h2
  rw [withProb_congr (readNode_of_queue_frame (pick_queued h1).2), withProb_of_read hy] at hsecond
  rw [withProb_of_read hx] at hfirst
  rw [mergesFrom, referenceMerges, hfirst]
  dsimp only
  rw [hsecond]
  dsimp only
  rw [ofNat_toNat_self]

/-- The parent that a merge adds goes to Target's tail with its probability, and the nodes still queued
keep theirs. -/
theorem mergesFrom_merged {s u : State} (h : u = { s with srcq := u.srcq, tgtq := u.tgtq })
    (hroom : s.nnode.toNat < Config.nodeMax) (huse : ∀ n ∈ queued u, n.toNat < s.nnode.toNat) (p : P64)
    (a b : NodeIx) (rounds : Nat) :
    mergesFrom rounds (addInternal p a b u) =
      referenceMerges rounds (s.nnode.toNat + 1) (u.srcq.map (withProb s))
        (u.tgtq.map (withProb s) ++ [(s.nnode, p)]) := by
  have hnnode : u.nnode = s.nnode := by rw [h]
  have hread := readNode_merged h hroom p a b
  have hold : ∀ n ∈ queued u, withProb (addInternal p a b u) n = withProb s n := fun n hn => by
    rw [withProb, hread, if_neg fun heq => (huse n hn).ne (congrArg _ heq), withProb]
  have hnew : withProb (addInternal p a b u) s.nnode = (s.nnode, p) :=
    withProb_of_read (x := .internal p a b) (by rw [hread, if_pos rfl])
  rw [mergesFrom, nnode_addInternal (hnnode ▸ hroom), hnnode, addInternal_srcq, addInternal_tgtq,
    List.map_append, List.map_singleton, hnnode, hnew,
    List.map_congr_left fun n hn => hold n (List.mem_append_left _ hn),
    List.map_congr_left fun n hn => hold n (List.mem_append_right _ hn)]

/-- A merge makes the first node of the reference merges and leaves the queues of the rest. -/
theorem mergeStep_reference {L : List Entry} {s t : State} {out : List Byte} {nodes : List Node}
    (hL : L.length ≤ 128) (h : MergeInv L s) (hheld : HoldsNodes s nodes) (hm : mergeStep s = .ok t out)
    (rounds : Nat) :
    ∃ x, HoldsNodes t (nodes ++ [x]) ∧ mergesFrom (rounds + 1) s = x :: mergesFrom rounds t := by
  have hroom := nnode_lt_of_mergeStep hL h hm
  obtain ⟨a, b, s1, s2, x, y, h1, h2, hx, hy, rfl⟩ := mergeStep_parent hm
  have hframe := picks_frame h1 h2
  have huse : ∀ n ∈ queued s2, n.toNat < s.nnode.toNat := fun n hn =>
    h.lt_nnode_of_queued <| (pick_queued h1).1.mem_iff.mpr <| .tail _ <|
      (pick_queued h2).1.mem_iff.mpr <| .tail _ hn
  refine ⟨_, holdsNodes_merged hheld hframe hroom _ a b, ?_⟩
  rw [mergesFrom_succ h1 h2 hx hy, mergesFrom_merged hframe hroom huse]

/-- The merge loop makes the nodes of the reference merges, one fewer than there are queued nodes. -/
theorem mergeLoop_reference {L : List Entry} (hL : L.length ≤ 128) {n : Nat} {s t : State}
    {out : List Byte} {nodes : List Node} (h : MergeInv L s) (hheld : HoldsNodes s nodes)
    (hn : (queued s).length ≤ n + 1) (hr : mergeLoop n s = .ok t out) :
    HoldsNodes t (nodes ++ mergesFrom ((queued s).length - 1) s) := by
  induction n generalizing s out nodes with
  | zero =>
    cases hr
    rw [Nat.sub_eq_zero_of_le hn]
    simpa [mergesFrom, referenceMerges] using hheld
  | succ n ih =>
    obtain ⟨hone, rfl⟩ | ⟨u, o1, o2, h1, h2⟩ := mergeLoop_succ_ok hr
    · rw [← List.length_append] at hone
      rw [queued, Nat.sub_eq_zero_of_le hone]
      simpa [mergesFrom, referenceMerges] using hheld
    · have hu := mergeInv_mergeStep hL h h1
      have hlen := mergeStep_length h1
      have hpos := hu.queued_pos
      simp only [queued, List.length_append] at hlen hpos hn
      obtain ⟨x, hheld', hmerges⟩ := mergeStep_reference hL h hheld h1 ((queued u).length - 1)
      have hrest := ih hu hheld' (by simp only [queued, List.length_append]; omega) h2
      have hcount : (queued s).length - 1 = (queued u).length - 1 + 1 := by
        simp only [queued, List.length_append]; omega
      rw [hcount, hmerges]
      rwa [List.append_assoc, List.singleton_append] at hrest

/-! ### The whole command -/

/-- BUILD starts with the reference's Source: each leaf with its entry's probability, in list order. -/
theorem source_loadLeaves {s : State} {L : List Entry} (hlen : s.nleaf.toNat = L.length) :
    (loadLeaves L s).srcq.map (withProb (loadLeaves L s)) =
      L.mapIdx fun i e => (BitVec.ofNat 8 i, e.prob) := by
  have hlt : L.length < 2 ^ 8 := hlen ▸ s.nleaf.isLt
  refine List.ext_getElem (by simp [hlen]) fun i hi _ => ?_
  have hi : i < L.length := by simpa [hlen] using hi
  simp only [loadLeaves_srcq, List.getElem_map, List.getElem_range, List.getElem_mapIdx]
  refine withProb_of_read (x := leafOf L[i]) ?_
  rw [(holdsNodes_loadLeaves hlen).read, toNat_ofNat_self (by omega), List.getElem?_map,
    List.getElem?_eq_getElem hi, Option.map_some]

/-- A BUILD that runs through leaves the nodes of the reference tree over the list. -/
theorem buildBody_reference {s t : State} {out : List Byte} (hr : buildBody s = .ok t out) :
    HoldsNodes t (referenceTree (sortedList s)) := by
  have hlow := two_le_nleaf_of_buildBody hr
  obtain ⟨L, u, o, hcollect, hloop, rfl⟩ := buildBody_ok hr
  have hL := length_le_of_collect_slist hcollect
  obtain ⟨hlen, hread⟩ := collect_eq_ok.mp hcollect
  have hlist : sortedList s = L := sortedList_of_reads hlen.symm fun i hi => by
    rw [← hread i (hlen ▸ hi), Nat.zero_add]
  have hqueued : (queued (loadLeaves L s)).length = L.length := by simp [queued, hlen]
  have hheld : HoldsNodes u (referenceTree L) := by
    have hloop := mergeLoop_reference hL (mergeInv_loadLeaves hlen.symm (by omega))
      (holdsNodes_loadLeaves hlen.symm) (by omega) hloop
    rw [hqueued, mergesFrom, source_loadLeaves hlen.symm, loadLeaves_tgtq, loadLeaves_nnode, ← hlen]
      at hloop
    exact hloop
  rw [hlist]
  exact ⟨hheld.nnode, hheld.read⟩

/-- A BUILD that runs through leaves a tree over the list. -/
theorem buildBody_tree {s t : State} {out : List Byte} (hr : buildBody s = .ok t out) : TreeInv t := by
  obtain ⟨L, -, -, hcollect, -, -⟩ := buildBody_ok hr
  have hL := length_le_of_collect_slist hcollect
  rw [(collect_eq_ok.mp hcollect).1] at hL
  exact treeInv_build (two_le_nleaf_of_buildBody hr) hL hr

theorem buildBody_nleaf {s t : State} {out : List Byte} (hr : buildBody s = .ok t out) :
    t.nleaf = s.nleaf := (buildBody_writes hr).1.keeps State.nleaf fun _ => rfl

/-- A BUILD that ends with `ERR = 0` ended `done` after its body ran through. -/
theorem exec_build_ok {s t : State} (h : exec .build s = .next t) (ht : t.err = 0) :
    ∃ u out, buildBody s = .ok u out ∧ t = reply .done out u := by
  obtain ⟨-, u, out, hbody, rfl⟩ := exec_done h ht
  exact ⟨u, out, hbody, rfl⟩

/-- Settles O31: both trees are the reference tree over the one list. -/
theorem treeDependsOnListOnly : Obligations.TreeDependsOnListOnly := by
  intro s1 s2 t1 t2 hnleaf hread h1 h2 ht1 ht2
  obtain ⟨u1, out1, hr1, rfl⟩ := exec_build_ok h1 ht1
  obtain ⟨u2, out2, hr2, rfl⟩ := exec_build_ok h2 ht2
  have hlist : sortedList s1 = sortedList s2 := by
    rw [sortedList, hnleaf, funext hread, sortedList]
  obtain ⟨hnnode1, hnodes1⟩ := buildBody_reference hr1
  obtain ⟨hnnode2, hnodes2⟩ := buildBody_reference hr2
  obtain ⟨-, hroot1, -⟩ := buildBody_tree hr1
  obtain ⟨-, hroot2, -⟩ := buildBody_tree hr2
  refine ⟨BitVec.eq_of_toNat_eq ?_, BitVec.eq_of_toNat_eq ?_, fun n => ?_⟩
  · rw [reply_root, reply_root, hroot1, hroot2, buildBody_nleaf hr1, buildBody_nleaf hr2, hnleaf]
  · rw [reply_nnode, reply_nnode, hnnode1, hnnode2, hlist]
  · exact (hnodes1 n).trans (hlist ▸ (hnodes2 n).symm)

/-! ### The end of the command -/

/-- The merge loop outputs nothing. -/
theorem mergeLoop_out {n : Nat} {s t : State} {out : List Byte} (h : mergeLoop n s = .ok t out) :
    out = [] := by
  induction n generalizing s out with
  | zero => cases h; rfl
  | succ n ih =>
    rw [mergeLoop] at h
    split at h
    · obtain ⟨u, o1, o2, h1, h2, rfl⟩ := andThen_eq_ok.mp h
      obtain ⟨_, _, _, _, _, _, -, -, -, -, -, rfl⟩ := mergeStep_ok h1
      exact ih h2
    · cases h; rfl

theorem buildBody_out {s t : State} {out : List Byte} (h : buildBody s = .ok t out) : out = [] := by
  unfold buildBody at h
  split at h
  · cases h
  split at h
  · cases h
  obtain ⟨u, o1, o2, hloop, henter, rfl⟩ := andThen_eq_ok.mp h
  cases henter
  rw [mergeLoop_out hloop, List.append_nil]

/-- BUILD on a list of 2 to 128 entries, in the phase that allows it, ends `done` (rule R166). -/
theorem exec_build_done {s : State} (he : s.err = 0) (hp : s.phase = .sorted) (hlow : 2 ≤ s.nleaf.toNat)
    (hhigh : s.nleaf.toNat ≤ 128) (hlist : ∀ i < s.nleaf.toNat, (s.readSlist i).isSome = true) :
    ∃ u, buildBody s = .ok u [] ∧ exec .build s = .next (reply .done [] u) := by
  obtain ⟨u, out, hr⟩ := buildBody_runs hlow hhigh hlist
  obtain rfl := buildBody_out hr
  refine ⟨u, hr, ?_⟩
  rw [exec_eq_runCommand (by decide), runCommand_ready he (by rw [hp]; rfl), bodyOf, hr]
  rfl

/-- The registers and queues that BUILD leaves (rule R172). -/
theorem buildBody_frame {s t : State} {out : List Byte} (hr : buildBody s = .ok t out) :
    t = { s with
      node := t.node, nnode := BitVec.ofNat 8 (2 * s.nleaf.toNat - 1),
      root := BitVec.ofNat 8 (2 * s.nleaf.toNat - 2), srcq := [], tgtq := [t.root],
      phase := .built } := by
  obtain ⟨hframe, hphase⟩ := buildBody_writes hr
  obtain ⟨hnnode, hroot, -, -, -, hsrcq, htgtq⟩ := buildBody_tree hr
  rw [buildBody_nleaf hr] at hnnode hroot
  rw [← hnnode, ← hroot, ofNat_toNat_self, ofNat_toNat_self, ← htgtq, ← hsrcq, ← hphase]
  exact hframe

/-- Settles O58: BUILD ends `done` with the reference's nodes, and the tree over the list has
`2*NLEAF - 1` of them. -/
theorem buildMatchesReferenceMerge : Obligations.BuildMatchesReferenceMerge := by
  intro s he hp hlow hhigh hlist
  obtain ⟨u, hr, hexec⟩ := exec_build_done he hp hlow hhigh hlist
  obtain ⟨hlen, hread⟩ := buildBody_reference hr
  obtain ⟨hnnode, -⟩ := buildBody_tree hr
  refine ⟨_, hexec, ?_, ?_, hread⟩
  · rw [reply_err, buildBody_frame hr]
    exact he
  · rw [← hlen, hnnode, buildBody_nleaf hr]

/-! ### The full tree -/

/-- What the leaves have and every merge keeps, BUILD's final state has. -/
theorem buildBody_keeps {P : State → Prop} {s t : State} {out : List Byte} (hr : buildBody s = .ok t out)
    (hload : ∀ L, s.nleaf.toNat = L.length → P (loadLeaves L s))
    (hmerge : ∀ u v o, u.nnode.toNat < Config.nodeMax → P u → mergeStep u = .ok v o → P v)
    (hphase : ∀ u, P u → P { u with phase := .built }) : P t := by
  have hlow := two_le_nleaf_of_buildBody hr
  obtain ⟨L, u, o, hcollect, hloop, rfl⟩ := buildBody_ok hr
  have hL := length_le_of_collect_slist hcollect
  have hlen := (collect_eq_ok.mp hcollect).1
  have hu : MergeInv L u ∧ P u := mergeLoop_keeps (P := fun v => MergeInv L v ∧ P v)
    (fun v w o hv hm => ⟨mergeInv_mergeStep hL hv.1 hm,
      hmerge v w o (nnode_lt_of_mergeStep hL hv.1 hm) hv.2 hm⟩)
    ⟨mergeInv_loadLeaves hlen.symm (by omega), hload L hlen.symm⟩ hloop
  exact hphase u hu.2

/-- Every internal node has the sum of its children's probabilities (rule R165). -/
def Summed (s : State) : Prop :=
  ∀ n p l r, s.readNode n = some (.internal p l r) →
    ∃ x y, s.readNode l = some x ∧ s.readNode r = some y ∧ p = pAdd x.prob y.prob

theorem summed_loadLeaves {s : State} {L : List Entry} (hlen : s.nleaf.toNat = L.length) :
    Summed (loadLeaves L s) := by
  intro n p l r hn
  rw [(holdsNodes_loadLeaves hlen).read, List.getElem?_map, Option.map_eq_some_iff] at hn
  obtain ⟨e, -, he⟩ := hn
  cases he

theorem summed_mergeStep {s t : State} {out : List Byte} (hroom : s.nnode.toNat < Config.nodeMax)
    (h : Summed s) (hm : mergeStep s = .ok t out) : Summed t := by
  obtain ⟨a, b, s1, s2, x, y, h1, h2, hx, hy, rfl⟩ := mergeStep_parent hm
  have hread := readNode_merged (picks_frame h1 h2) hroom (pAdd x.prob y.prob) a b
  have hkeep : ∀ m z, s.readNode m = some z →
      (addInternal (pAdd x.prob y.prob) a b s2).readNode m = some z := fun m z hz => by
    have hlt := lt_nnode_of_readNode hz
    rw [hread, if_neg fun heq => hlt.ne (congrArg _ heq), hz]
  intro n p l r hn
  rw [hread] at hn
  split at hn
  · cases hn
    exact ⟨x, y, hkeep _ x hx, hkeep _ y hy, rfl⟩
  · obtain ⟨x', y', hl, hr, hp⟩ := h n p l r hn
    exact ⟨x', y', hkeep l x' hl, hkeep r y' hr, hp⟩

theorem summed_buildBody {s t : State} {out : List Byte} (hr : buildBody s = .ok t out) : Summed t :=
  buildBody_keeps hr (fun _ => summed_loadLeaves) (fun _ _ _ => summed_mergeStep) fun _ h => h

/-- The node memory past the nodes in use is as it was in `s`. -/
def KeepsPast (s t : State) : Prop :=
  ∀ i, t.nnode.toNat ≤ i → Memory.read t.node i = Memory.read s.node i

theorem keepsPast_loadLeaves {s : State} {L : List Entry} (hlen : s.nleaf.toNat = L.length) :
    KeepsPast s (loadLeaves L s) := by
  intro i hi
  rw [loadLeaves_nnode, hlen] at hi
  rw [loadLeaves_node, read_writeList, List.length_map, if_neg (by omega)]

theorem keepsPast_mergeStep {s u v : State} {out : List Byte} (hroom : u.nnode.toNat < Config.nodeMax)
    (h : KeepsPast s u) (hm : mergeStep u = .ok v out) : KeepsPast s v := by
  obtain ⟨a, b, p, w, rfl, -, hframe⟩ := mergeStep_adds hm
  have hnnode : w.nnode = u.nnode := by rw [hframe]
  have hnode : w.node = u.node := by rw [hframe]
  intro i hi
  rw [nnode_addInternal (hnnode ▸ hroom), hnnode] at hi
  rw [addInternal_node, read_write, hnnode, hnode, if_neg (by omega)]
  exact h i (by omega)

theorem keepsPast_buildBody {s t : State} {out : List Byte} (hr : buildBody s = .ok t out) :
    KeepsPast s t :=
  buildBody_keeps hr (fun _ => keepsPast_loadLeaves) (fun _ _ _ => keepsPast_mergeStep) fun _ h => h

/-- Each edge of a path goes to a lower node, and only from an internal node, which stands past the leaves:
no path is longer than there are internal nodes up to its start (rule R172). -/
theorem walk_length_le {s : State} (htree : TreeInv s)
    (hlist : ∀ i < s.nleaf.toNat, (s.readSlist i).isSome = true) {n m : NodeIx} {bits : List Bit}
    (h : walk s n bits = some m) : bits.length ≤ n.toNat + 1 - s.nleaf.toNat := by
  have hsyms : (leafSymbols s).length = s.nleaf.toNat := by
    rw [leafSymbols, List.length_filterMap_eq_countP, List.countP_eq_length.mpr, List.length_range]
    simpa using hlist
  induction bits generalizing n with
  | nil => exact Nat.zero_le _
  | cons b bits ih =>
    obtain ⟨p, l, r, hread, hrest⟩ := walk_cons_eq_some h
    have hbits := ih hrest
    obtain ⟨sym, q, hleaf⟩ | ⟨q, l', r', hint, hge, hl, hr⟩ :=
      readNode_cases htree hsyms (lt_nnode_of_readNode hread)
    · rw [hread] at hleaf
      cases hleaf
    · rw [hread] at hint
      cases hint
      have hlower : (if b then r else l).toNat < n.toNat := by split <;> assumption
      rw [List.length_cons]
      omega

/-- Settles O30: BUILD ends `done` in a tree, whose internal nodes are summed, over untouched memory. -/
theorem buildLeavesFullTree : Obligations.BuildLeavesFullTree := by
  intro s he hp hlow hhigh hlist
  obtain ⟨u, hr, hexec⟩ := exec_build_done he hp hlow hhigh hlist
  have hframe := buildBody_frame hr
  have hnleaf := buildBody_nleaf hr
  have hslist : ∀ i, u.readSlist i = s.readSlist i := readSlist_congr (by rw [hframe]) hnleaf
  have htree := buildBody_tree hr
  have ⟨hnnode, hroot, hleaf, hint, honce, _⟩ := htree
  rw [hnleaf] at hnnode hroot hleaf hint
  refine ⟨reply .done [] u, hexec, congrArg (reply .done []) hframe, fun i hi => ?_, fun n hge hn => ?_,
    fun n hn => honce n (hroot ▸ hn), fun bits n hwalk => ?_, fun i hi => ?_⟩
  · rw [← hslist]
    exact hleaf i hi
  · obtain ⟨p, l, r, hread, hl, hr'⟩ := isInternalOver_iff.mp (hint n (hnnode ▸ hn) hge)
    obtain ⟨x, y, hx, hy, hsum⟩ := summed_buildBody hr _ p l r hread
    exact ⟨p, l, r, x, y, hread, hl, hr', hx, hy, hsum⟩
  · rw [reply_root, walk_congr (s := u) (t := reply .done [] u) fun _ => rfl] at hwalk
    have hlen := walk_length_le htree (fun i hi => by rw [hslist]; exact hlist i (hnleaf ▸ hi)) hwalk
    omega
  · exact keepsPast_buildBody hr i (hnnode ▸ hi)

end Sys2Proof.Proofs.BuildCommand
end

section
/-! PROOFS. GEN as a whole (43_code_table.md, rules R190 to R195): the table it ends with, that no code begins
another, and that the codes use up the whole code space. Rule R195's sum is kept by the traversal: the codes
written below a node weigh what one code at the node would, because each leaf is visited once. -/

namespace Sys2Proof.Proofs.GenCommand

open Sys2Proof.Machine Sys2Proof.Laws Sys2Proof.Claims Sys2Proof.Proofs.MergeTree
  Sys2Proof.Proofs.CodeTable Sys2Proof.Proofs.Progress Sys2Proof.Proofs.BuildCommand

/-! ### The command and its table -/

/-- GEN on a tree, in the phase that allows it, ends `done` with the traversal's table (rule R191). -/
theorem exec_gen_done {s : State} (he : s.err = 0) (hp : s.phase = .built) (h : IsTree s) :
    ∃ table, visit s 128 s.root [] [] = .ok table ∧
      exec .gen s = .next (reply .done [] { s with code := table, phase := .coded }) := by
  obtain ⟨hlow, hhigh, hlist, -, htree⟩ := h
  obtain ⟨t, out, hr⟩ := genBody_runs htree hlist hlow hhigh
  obtain ⟨table, hvisit, -⟩ := Frames.genBody_ok hr
  refine ⟨table, hvisit, ?_⟩
  rw [exec_eq_runCommand (by decide), runCommand_ready he (by rw [hp]; rfl), bodyOf, genBody, hvisit]
  rfl

/-- A code that GEN gives is a path from the root to its symbol's leaf (rule R192). -/
theorem leafPath_of_read {s : State} {table : Memory CodeWord}
    (hvisit : visit s 128 s.root [] [] = .ok table) {x : Nat} {c : CodeWord}
    (hc : Memory.read table x = some c) : ∃ sym : Sym, sym.toNat = x ∧ LeafPath s s.root c.bits sym := by
  obtain hold | ⟨bits, sym, hbits, -, hsym, hpath⟩ := visit_sound hvisit hc
  · cases hold
  · rw [List.nil_append] at hbits
    exact ⟨sym, hsym, hbits ▸ hpath⟩

/-- A path from the root to a leaf has at most `NLEAF - 1` bits (rule R193). -/
theorem leafPath_length_le {s : State} (h : IsTree s) {bits : List Bit} {sym : Sym}
    (hpath : LeafPath s s.root bits sym) : bits.length ≤ s.nleaf.toNat - 1 := by
  obtain ⟨hlow, -, hlist, -, htree⟩ := h
  obtain ⟨n, p, hwalk, -⟩ := hpath
  have hlen := walk_length_le htree (fun _ => readSlist_isSome hlist) hwalk
  obtain ⟨-, hroot, -⟩ := htree
  omega

/-- Settles O33: every leaf is reached, and what is written is the path to a leaf. -/
theorem genGivesLeavesTheirPaths : Obligations.GenGivesLeavesTheirPaths := by
  intro s he hp h
  obtain ⟨table, hvisit, hexec⟩ := exec_gen_done he hp h
  have ⟨hlow, _, _, _, htree⟩ := h
  refine ⟨_, hexec, rfl, fun sym hsym => ?_, fun x hx => ?_⟩
  · obtain ⟨bits, hreach⟩ := (exists_leafPath_iff htree).mpr hsym
    obtain ⟨c, hc⟩ := Option.isSome_iff_exists.mp (visit_complete hvisit hreach)
    obtain ⟨sym', heq, hpath⟩ := leafPath_of_read hvisit hc
    obtain rfl : sym' = sym := BitVec.eq_of_toNat_eq heq
    exact ⟨c, hc, List.length_pos_iff.mpr (leafPath_root_ne_nil htree hlow hpath),
      leafPath_length_le h hpath, hpath⟩
  · refine Option.eq_none_iff_forall_ne_some.mpr fun c hc => ?_
    obtain ⟨sym, hsym, hpath⟩ := leafPath_of_read hvisit hc
    exact hx sym ((exists_leafPath_iff htree).mp ⟨c.bits, hpath⟩) hsym

/-- Settles O34: codes are paths to leaves, and a path to a leaf does not begin a path to another leaf. -/
theorem generatedCodesArePrefixFree : Obligations.GeneratedCodesArePrefixFree := by
  intro s t he hp h hexec x y c d hne hc hd hpre
  obtain ⟨table, hvisit, hexec'⟩ := exec_gen_done he hp h
  rw [hexec'] at hexec
  cases hexec
  obtain ⟨a, rfl, hcode⟩ := leafPath_of_read hvisit hc
  obtain ⟨b, rfl, hcode'⟩ := leafPath_of_read hvisit hd
  exact hne (congrArg BitVec.toNat (eq_of_leafPath_isPrefix hcode hcode' hpre))

/-! ### Each leaf has one path -/

theorem childrenOf_readNode {s : State} {n l r : NodeIx} {p : P64}
    (hread : s.readNode n = some (.internal p l r)) : childrenOf s n.toNat = [l, r] :=
  childrenOf_internal (by rwa [ofNat_toNat_self])

theorem child_mem_childrenOf {s : State} {n l r : NodeIx} {p : P64}
    (hread : s.readNode n = some (.internal p l r)) (b : Bit) :
    (if b then r else l) ∈ childrenOf s n.toNat := by
  rw [childrenOf_readNode hread]
  cases b <;> simp

/-- The last edge of a path leaves an internal node. -/
theorem walk_snoc_eq_some {s : State} {n m : NodeIx} {b : Bit} {bits : List Bit}
    (h : walk s n (bits ++ [b]) = some m) :
    ∃ k p l r, walk s n bits = some k ∧ s.readNode k = some (.internal p l r) ∧
      m = if b then r else l := by
  induction bits generalizing n with
  | nil =>
    obtain ⟨p, l, r, hread, hend⟩ := walk_cons_eq_some h
    cases hend
    exact ⟨n, p, l, r, rfl, hread, rfl⟩
  | cons c bits ih =>
    obtain ⟨p, l, r, hread, hrest⟩ := walk_cons_eq_some h
    rw [walk_internal hread]
    exact ih hrest

/-- Where a filtered list has no repeats, no two places gave the same element. -/
theorem eq_of_filterMap_nodup {α β : Type} {f : α → Option β} {l : List α} (h : (l.filterMap f).Nodup)
    {x y : α} {b : β} (hx : x ∈ l) (hy : y ∈ l) (hfx : f x = some b) (hfy : f y = some b) : x = y := by
  have hapart := List.pairwise_filterMap.mp h
  have : Std.Symm fun x y => ∀ b, f x = some b → ∀ b', f y = some b' → b ≠ b' :=
    ⟨fun _ _ hne b hb b' hb' => (hne b' hb' b hb).symm⟩
  by_contra hne
  exact hapart.forall hx hy hne b hfx b hfy rfl

/-- A leaf carries an entry of the list (rule R42). -/
theorem readSlist_of_leaf {s : State} (htree : TreeInv s) {n : NodeIx} {sym : Sym} {p : P64}
    (hread : s.readNode n = some (.leaf sym p)) :
    n.toNat < s.nleaf.toNat ∧ s.readSlist n.toNat = some ⟨sym, p⟩ := by
  obtain ⟨-, -, hleaf, hint, -⟩ := htree
  have hlt : n.toNat < s.nleaf.toNat := by
    by_contra hge
    obtain ⟨q, l, r, hread', -⟩ :=
      isInternalOver_iff.mp (hint n.toNat (lt_nnode_of_readNode hread) (by omega))
    rw [ofNat_toNat_self, hread] at hread'
    cases hread'
  have hmatch := hleaf n.toNat hlt
  rw [leafMatches, ofNat_toNat_self, hread] at hmatch
  obtain ⟨e, he, hleafOf⟩ := Option.map_eq_some_iff.mp hmatch.symm
  cases hleafOf
  exact ⟨hlt, he⟩

section Tree

variable {s : State} (h : IsTree s)
include h

/-- The children of an internal node are lower. -/
theorem child_lt {n l r : NodeIx} {p : P64} (hread : s.readNode n = some (.internal p l r)) (b : Bit) :
    (if b then r else l).toNat < n.toNat := by
  obtain ⟨-, -, hlist, -, htree⟩ := h
  obtain ⟨sym, q, hleaf⟩ | ⟨q, l', r', hint, -, hl, hr⟩ :=
    readNode_cases htree hlist (lt_nnode_of_readNode hread)
  · rw [hread] at hleaf
    cases hleaf
  · rw [hread] at hint
    cases hint
    split <;> assumption

/-- No node is the child of two, or twice of one (rule R172). -/
theorem childRefs_nodup : (childRefs s).Nodup := by
  have ⟨_, _, _, _, hnnode, hroot, _, _, honce, _⟩ := h
  refine List.nodup_iff_count_le_one.mpr fun c => ?_
  by_cases hc : c ∈ childRefs s
  · obtain ⟨k, hk, hmem⟩ := List.mem_flatMap.mp hc
    rw [List.mem_range] at hk
    obtain ⟨p, l, r, hread, hside⟩ := mem_childrenOf hmem
    have hlt : c.toNat < (BitVec.ofNat 8 k).toNat := by
      obtain rfl | rfl := hside
      · exact child_lt h hread false
      · exact child_lt h hread true
    rw [toNat_ofNat_self (hk.trans s.nnode.isLt)] at hlt
    have hcount := honce c.toNat (by omega)
    rw [ofNat_toNat_self] at hcount
    exact hcount.le
  · exact (List.count_eq_zero_of_not_mem hc).trans_le zero_le_one

/-- A child has one parent, and is on one side of it. -/
theorem parent_unique {m n l r l' r' : NodeIx} {p q : P64} {b c : Bit}
    (hm : s.readNode m = some (.internal p l r)) (hn : s.readNode n = some (.internal q l' r'))
    (hchild : (if b then r else l) = if c then r' else l') : m = n ∧ b = c := by
  obtain ⟨hkids, hapart⟩ := List.nodup_flatMap.mp (childRefs_nodup h)
  have hmrange := List.mem_range.mpr (lt_nnode_of_readNode hm)
  have hnrange := List.mem_range.mpr (lt_nnode_of_readNode hn)
  obtain rfl : m = n := by
    have : Std.Symm (Function.onFun List.Disjoint (childrenOf s)) := ⟨fun _ _ => List.Disjoint.symm⟩
    by_contra hne
    refine hapart.forall hmrange hnrange (mt BitVec.eq_of_toNat_eq hne) (child_mem_childrenOf hm b) ?_
    rw [hchild]
    exact child_mem_childrenOf hn c
  rw [hm] at hn
  cases hn
  have hsides : l ≠ r := List.pairwise_pair.mp (childrenOf_readNode hm ▸ hkids m.toNat hmrange)
  refine ⟨rfl, ?_⟩
  cases b <;> cases c
  · rfl
  · exact absurd hchild hsides
  · exact absurd hchild.symm hsides
  · rfl

/-- A path with an edge leads to a lower node. -/
theorem walk_cons_lt {n m : NodeIx} {b : Bit} {bits : List Bit} (hwalk : walk s n (b :: bits) = some m) :
    m.toNat < n.toNat := by
  induction bits generalizing n b with
  | nil =>
    obtain ⟨p, l, r, hread, hend⟩ := walk_cons_eq_some hwalk
    cases hend
    exact child_lt h hread b
  | cons c bits ih =>
    obtain ⟨p, l, r, hread, hrest⟩ := walk_cons_eq_some hwalk
    exact (ih hrest).trans (child_lt h hread b)

/-- A node is reached by one path: the last edge is that from its only parent. -/
theorem walk_injective {n m : NodeIx} {x y : List Bit} (hx : walk s n x = some m)
    (hy : walk s n y = some m) : x = y := by
  have not_cycle : ∀ b bits, walk s n (b :: bits) ≠ some n := fun _ _ hwalk =>
    (walk_cons_lt h hwalk).false
  induction x using List.reverseRecOn generalizing m y with
  | nil =>
    cases hx
    cases y with
    | nil => rfl
    | cons b y => exact absurd hy (not_cycle b y)
  | append_singleton x b ih =>
    cases y using List.reverseRecOn with
    | nil =>
      cases hy
      cases x with
      | nil => exact absurd hx (not_cycle b [])
      | cons c x => exact absurd hx (not_cycle c (x ++ [b]))
    | append_singleton y c =>
      obtain ⟨k, p, l, r, hwalk, hread, hm⟩ := walk_snoc_eq_some hx
      obtain ⟨k', p', l', r', hwalk', hread', hm'⟩ := walk_snoc_eq_some hy
      obtain ⟨rfl, rfl⟩ := parent_unique h hread hread' (hm.symm.trans hm')
      rw [ih hwalk hwalk']

/-- Two leaves of one symbol are one leaf. -/
theorem leaf_unique {m n : NodeIx} {sym : Sym} {p q : P64} (hm : s.readNode m = some (.leaf sym p))
    (hn : s.readNode n = some (.leaf sym q)) : m = n := by
  obtain ⟨-, -, -, hnodup, htree⟩ := h
  obtain ⟨hmlt, hmread⟩ := readSlist_of_leaf htree hm
  obtain ⟨hnlt, hnread⟩ := readSlist_of_leaf htree hn
  refine BitVec.eq_of_toNat_eq (eq_of_filterMap_nodup hnodup (List.mem_range.mpr hmlt)
    (List.mem_range.mpr hnlt) (b := sym) ?_ ?_)
  · rw [hmread, Option.map_some]
  · rw [hnread, Option.map_some]

/-- The path to the leaf of a symbol is unique. -/
theorem leafPath_unique {n : NodeIx} {x y : List Bit} {sym : Sym} (hx : LeafPath s n x sym)
    (hy : LeafPath s n y sym) : x = y := by
  obtain ⟨m, p, hwalk, hread⟩ := hx
  obtain ⟨m', q, hwalk', hread'⟩ := hy
  obtain rfl := leaf_unique h hread hread'
  exact walk_injective h hwalk hwalk'

end Tree

/-! ### The sum of rule R195 -/

/-- The sum over the codes of a table of `2^(-len)`, times `2^127` (rule R195). -/
def kraftSum (table : Memory CodeWord) : Nat :=
  ((List.range 128).map fun x =>
    (Memory.read table x).elim 0 fun c => 2 ^ (127 - c.bits.length)).sum

@[simp] theorem kraftSum_nil : kraftSum [] = 0 := by simp [kraftSum]

theorem kraftSum_write {table : Memory CodeWord} {sym : Sym} (c : CodeWord)
    (hnew : Memory.read table sym.toNat = none) :
    kraftSum (Memory.write table sym.toNat c) = kraftSum table + 2 ^ (127 - c.bits.length) := by
  refine Histogram.sum_range_of_one_differs sym.isLt ?_ fun y hy => ?_
  · rw [read_write_same, hnew, Option.elim_some, Option.elim_none, Nat.zero_add]
  · rw [read_write_other table c hy]

/-- No leaf below the node has a code yet. -/
def NoneBelow (s : State) (n : NodeIx) (table : Memory CodeWord) : Prop :=
  ∀ bits sym, LeafPath s n bits sym → Memory.read table sym.toNat = none

/-- The traversal of a left child writes no code for a leaf below the right one: such a leaf would have two
paths. -/
theorem noneBelow_right {s : State} (h : IsTree s) {d : Nat} {n l r : NodeIx} {p : P64} {path : List Bit}
    {table mid : Memory CodeWord} (hread : s.readNode n = some (.internal p l r))
    (hnone : NoneBelow s n table) (hl : visit s d l path table = .ok mid) : NoneBelow s r mid := by
  intro bits sym hright
  have hpath : LeafPath s n (true :: bits) sym := (leafPath_internal_cons hread).mpr hright
  refine Option.eq_none_iff_forall_ne_some.mpr fun c hc => ?_
  obtain hold | ⟨bits', sym', -, -, heq, hleft⟩ := visit_sound hl hc
  · rw [hnone _ _ hpath] at hold
    cases hold
  · obtain rfl : sym' = sym := BitVec.eq_of_toNat_eq heq
    have hpath' : LeafPath s n (false :: bits') sym' := (leafPath_internal_cons hread).mpr hleft
    cases leafPath_unique h hpath hpath'

/-- The codes that the traversal writes below a node weigh what one code at the node would: an internal node
has exactly two children (rule R195). -/
theorem kraftSum_visit {s : State} (h : IsTree s) {d : Nat} {n : NodeIx} {path : List Bit}
    {table table' : Memory CodeWord} (hvisit : visit s d n path table = .ok table')
    (hdepth : path.length + d = 128) (hnone : NoneBelow s n table) :
    kraftSum table' = kraftSum table + 2 ^ (127 - path.length) := by
  induction d generalizing n path table table' with
  | zero => cases hvisit
  | succ d ih =>
    obtain ⟨sym, p, hread, rfl⟩ | ⟨p, l, r, mid, hread, hl, hr⟩ := visit_ok hvisit
    · exact kraftSum_write ⟨path⟩ (hnone [] sym ((leafPath_leaf hread).mpr ⟨rfl, rfl⟩))
    · have hleft : NoneBelow s l table := fun bits sym hpath =>
        hnone (false :: bits) sym ((leafPath_internal_cons hread).mpr hpath)
      have hshort : path.length < 127 := by
        cases d with
        | zero => cases hl
        | succ d => omega
      have hhalves : 2 ^ (127 - path.length) =
          2 ^ (127 - (path.length + 1)) + 2 ^ (127 - (path.length + 1)) := by
        rw [← mul_two, ← pow_succ]
        congr 1
        omega
      have hlen (b : Bit) : (path ++ [b]).length = path.length + 1 := by simp
      have hmid := ih hl (by rw [hlen]; omega) hleft
      have hend := ih hr (by rw [hlen]; omega) (noneBelow_right h hread hnone hl)
      rw [hend, hmid, hlen, hlen, hhalves, Nat.add_assoc]

/-- Settles O35: the traversal from the root starts with an empty table, and writes what an empty code would
weigh. -/
theorem generatedCodesFillKraftSum : Obligations.GeneratedCodesFillKraftSum := by
  intro s t he hp h hexec
  obtain ⟨table, hvisit, hexec'⟩ := exec_gen_done he hp h
  rw [hexec'] at hexec
  cases hexec
  have hsum := kraftSum_visit h hvisit rfl fun _ _ _ => rfl
  rw [kraftSum_nil, Nat.zero_add] at hsum
  exact hsum

end Sys2Proof.Proofs.GenCommand
end

section
/-! PROOFS. PACK and UNPACK as a whole (44_bitstream_codec.md, rules R210 to R218): the states and the OUT
streams they end with, where the sentinel of a stream stands, and that UNPACK undoes PACK. -/

namespace Sys2Proof.Proofs.Codec

open Sys2Proof.Machine Sys2Proof.Laws Sys2Proof.Claims Sys2Proof.Proofs.Encoding

/-! ### The payload as a command leaves it -/

/-- The payload written over `BITBUF` from index 0: what every command of the codec does to it. -/
def withPayload (bits : List Bit) (s : State) : State :=
  { s with bitbuf := Memory.writeList s.bitbuf 0 bits, bitlen := bits.length }

theorem appendBits_emptyPayload (bits : List Bit) (s : State) :
    appendBits bits (emptyPayload s) = withPayload bits s := by
  simp [appendBits, emptyPayload, withPayload]

theorem holdsPayload_withPayload (bits : List Bit) (s : State) :
    HoldsPayload (withPayload bits s) bits := by
  rw [← appendBits_emptyPayload]
  exact holdsPayload_append (holdsPayload_empty s) bits

section Written

variable {s t : State} {bits : List Bit} (hbuf : t.bitbuf = Memory.writeList s.bitbuf 0 bits)
include hbuf

theorem holds_of_written (hlen : t.bitlen = bits.length) : Holds t bits := by
  refine ⟨hlen, fun i => ?_⟩
  rw [State.readBit, hlen, hbuf, read_writeList]
  split
  next hi => simp [hi]
  next hi => rw [List.getElem?_eq_none (by omega)]

theorem sameBitsFrom_of_written : SameBitsFrom bits.length s t := by
  intro i hi
  rw [hbuf, read_writeList, if_neg (by omega)]

end Written

/-! ### Loading tokens (rule R211) -/

theorem appendBits_cons (b : Bit) (bits : List Bit) (s : State) :
    appendBits (b :: bits) s = appendBits bits (appendBits [b] s) := by
  simp [appendBits, Memory.writeList, Nat.add_assoc, Nat.add_comm 1]

theorem bitOfToken_of_isToken {e : Byte} (h : IsToken e) : bitOfToken e = some (decide (e = 0x01#8)) := by
  obtain rfl | rfl := h <;> rfl

theorem loadToken_fits {e : Byte} {i : Nat} {s : State} (he : IsToken e) (hfits : Fits s (s.bitlen + 1)) :
    loadToken e i s = .ok (appendBits [decide (e = 0x01#8)] s) [] := by
  have hroom : s.bitcap ≠ some s.bitlen := fun hfull => Nat.not_succ_le_self _ (hfits _ hfull)
  rw [loadToken, bitOfToken_of_isToken he]
  exact if_neg hroom

/-- Loading tokens that fit appends their bits. -/
theorem forEach_loadToken {es : List Byte} {i : Nat} {s : State} (hes : ∀ e ∈ es, IsToken e)
    (hfits : Fits s (s.bitlen + es.length)) :
    forEach loadToken es i s = .ok (appendBits (tokenBits es) s) [] := by
  induction es generalizing i s with
  | nil => rfl
  | cons e es ih =>
    obtain ⟨he, hes⟩ := List.forall_mem_cons.mp hes
    rw [List.length_cons] at hfits
    have hone : Fits s (s.bitlen + 1) := fun c hc => by have := hfits c hc; omega
    have hrest : Fits (appendBits [decide (e = 0x01#8)] s) (s.bitlen + 1 + es.length) := fun c hc => by
      have := hfits c hc; omega
    rw [forEach_cons, loadToken_fits he hone, andThen_ok_nil, ih hes hrest, ← appendBits_cons]
    rfl

/-! ### The packed bytes (rule R212) -/

/-- The OUT stream of the packing core for a payload. -/
def packedBytes (payload : List Bit) : List Byte := bytesOfBits (withPrefix payload)

/-- The state in which PACK and ENC leave the engine for a payload. -/
def packed (payload : List Bit) (s : State) : State :=
  { withPayload payload s with pad := BitVec.ofNat 4 (paddingFor payload.length) }

theorem packCore_withPayload (payload : List Bit) (s : State) :
    packCore (withPayload payload s) = .ok (packed payload s) (packedBytes payload) :=
  packCore_eq (holdsPayload_withPayload payload s)

theorem paddingFor_range (n : Nat) : 1 ≤ paddingFor n ∧ paddingFor n ≤ 8 := by
  unfold paddingFor
  omega

/-- Padding fills the payload up to whole bytes. -/
theorem length_withPrefix (payload : List Bit) :
    (withPrefix payload).length = 8 * (payload.length / 8 + 1) := by
  simp only [withPrefix, List.length_append, List.length_replicate, List.length_cons, paddingFor]
  omega

theorem bitsOfBytes_packedBytes (payload : List Bit) :
    bitsOfBytes (packedBytes payload) = withPrefix payload :=
  bitsOfBytes_bytesOfBits (by rw [length_withPrefix, Nat.mul_mod_right])

theorem isPacked_packedBytes (payload : List Bit) : IsPacked (packedBytes payload) payload :=
  bitsOfBytes_packedBytes payload

theorem length_packedBytes (payload : List Bit) : (packedBytes payload).length = payload.length / 8 + 1 := by
  have hbits := length_bitsOfBytes (packedBytes payload)
  rw [bitsOfBytes_packedBytes, length_withPrefix] at hbits
  omega

/-- A payload of whole bytes is preceded by a byte of its own (rule R213). -/
theorem head?_packedBytes {payload : List Bit} (h : payload.length % 8 = 0) :
    (packedBytes payload).head? = some 0x01#8 := by
  rw [packedBytes, withPrefix, paddingFor, h]
  rfl

/-- PACK on tokens that fit ends `done`, in every phase. -/
theorem exec_pack_done {s : State} (he : s.err = 0) (htokens : ∀ e ∈ s.inp, IsToken e)
    (hfits : Fits s s.inp.length) :
    exec .pack s = .next (consumeIn true
      (reply .done (packedBytes (tokenBits s.inp)) (packed (tokenBits s.inp) s))) := by
  have hload : forEach loadToken s.inp 0 (emptyPayload s) =
      .ok (withPayload (tokenBits s.inp) s) [] := by
    rw [forEach_loadToken htokens (by rwa [emptyPayload_bitlen, Nat.zero_add]), appendBits_emptyPayload]
  rw [exec_eq_runCommand (by decide), runCommand_ready he rfl, bodyOf, packBody, hload, andThen_ok_nil,
    packCore_withPayload]
  rfl

theorem length_tokenBits (es : List Byte) : (tokenBits es).length = es.length := List.length_map _

/-- Settles O37: the state and OUT of `exec_pack_done`, read off the packed payload. -/
theorem packEmitsPaddedBytes : Obligations.PackEmitsPaddedBytes := by
  intro s he htokens hfits
  have hlen := length_tokenBits s.inp
  refine ⟨_, packedBytes (tokenBits s.inp), exec_pack_done he htokens hfits, ?_,
    holds_of_written rfl rfl, ?_, isPacked_packedBytes _, ?_,
    fun hwhole => head?_packedBytes (hlen.symm ▸ hwhole)⟩
  · rw [← hlen]
    rfl
  · rw [← hlen]
    exact sameBitsFrom_of_written rfl
  · rw [length_packedBytes, hlen]

/-! ### The sentinel (rules R100 and R217) -/

/-- The first eight bits of a byte stream are those of its first byte. -/
theorem sentinelIndex_bitsOfBytes (b : Byte) (rest : List Byte) :
    sentinelIndex (bitsOfBytes (b :: rest)) = (bitsOfByte b).findIdx? id := rfl

theorem length_bitsOfByte (b : Byte) : (bitsOfByte b).length = 8 := rfl

/-- The first 1 of a byte is its highest set bit. -/
theorem findIdx?_bitsOfByte {b : Byte} (h : b.toNat ≠ 0) :
    (bitsOfByte b).findIdx? id = some (7 - Nat.log2 b.toNat) := by
  have htop : Nat.log2 b.toNat < 8 := (Nat.log2_lt h).mpr b.isLt
  have hbit {j : Nat} (hj : j < (bitsOfByte b).length) : (bitsOfByte b)[j] = b.toNat.testBit (7 - j) := by
    rw [BitVec.testBit_toNat, ← Option.some_inj, ← getElem?_bitsOfByte b hj, List.getElem?_eq_getElem hj]
  refine List.findIdx?_eq_some_iff_getElem.mpr ⟨by rw [length_bitsOfByte]; omega, ?_, fun j hj => ?_⟩
  · rw [hbit, Nat.sub_sub_self (by omega)]
    exact Nat.testBit_log2 h
  · have habove : b.toNat < 2 ^ (7 - j) :=
      Nat.lt_log2_self.trans_le (Nat.pow_le_pow_right (by decide) (by omega))
    rw [hbit, id, Nat.testBit_lt_two_pow habove]
    exact Bool.false_ne_true

/-- The unpacker finds no sentinel in a first byte 0x00, and the highest set bit of any other. -/
theorem sentinelIndex_cons (b : Byte) (rest : List Byte) :
    sentinelIndex (bitsOfBytes (b :: rest)) =
      if b.toNat = 0 then none else some (7 - Nat.log2 b.toNat) := by
  rw [sentinelIndex_bitsOfBytes]
  split
  next hzero => rw [BitVec.eq_of_toNat_eq (y := 0#8) hzero]; rfl
  next h => exact findIdx?_bitsOfByte h

/-- What the unpacker strips is what the table of rule R100 says. -/
theorem strippedBits_cons (b : Byte) (rest : List Byte) :
    strippedBits (sentinelIndex (bitsOfBytes (b :: rest))) = strippedBy b := by
  rw [sentinelIndex_cons, strippedBy]
  split
  next => rfl
  next h =>
    have htop : Nat.log2 b.toNat < 8 := (Nat.log2_lt h).mpr b.isLt
    show 7 - Nat.log2 b.toNat + 1 = _
    omega

theorem padfbFlag_cons (b : Byte) (rest : List Byte) :
    padfbFlag (sentinelIndex (bitsOfBytes (b :: rest))) = decide (b.toNat = 0) := by
  rw [sentinelIndex_cons]
  split <;> simp [padfbFlag, *]

theorem unpackedBits_eq (bytes : List Byte) : unpackedBits bytes = payloadOf (bitsOfBytes bytes) := by
  cases bytes with
  | nil => rfl
  | cons b rest => rw [unpackedBits, payloadOf, strippedBits_cons]

theorem strippedBy_le (b : Byte) : strippedBy b ≤ 8 := by
  unfold strippedBy
  split <;> omega

theorem padNoted_of_sentinel {t : State} {bytes : List Byte} (h : bytes ≠ [])
    (hpad : t.pad = BitVec.ofNat 4 (strippedBits (sentinelIndex (bitsOfBytes bytes))))
    (hfb : t.padfb = padfbFlag (sentinelIndex (bitsOfBytes bytes))) : PadNoted t bytes := by
  obtain ⟨b, rest, rfl⟩ := List.exists_cons_of_ne_nil h
  rw [strippedBits_cons] at hpad
  rw [padfbFlag_cons] at hfb
  refine ⟨?_, hfb⟩
  have hle := strippedBy_le b
  rw [hpad, BitVec.toNat_ofNat, Nat.mod_eq_of_lt (by omega)]

/-! ### UNPACK as a whole -/

theorem unpacked_eq (s : State) :
    unpacked s = withPayload (unpackedBits s.inp) (notePadding (bitsOfBytes s.inp) s) := by
  rw [unpacked, appendBits_emptyPayload, unpackedBits_eq]

/-- The unpacking core runs through on a non-empty stream whose payload fits. -/
theorem unpackCore_fits {s : State} (hinp : s.inp ≠ []) (hfits : Fits s (unpackedBits s.inp).length) :
    unpackCore s = .ok (unpacked s) [] := by
  have hroom : exceedsCap s.bitcap
      (8 * s.inp.length - strippedBits (sentinelIndex (bitsOfBytes s.inp))) = false :=
    Canonical.exceedsCap_eq_false_iff.mpr
      (by rwa [unpackedBits_eq, payloadOf, List.length_drop, length_bitsOfBytes] at hfits)
  obtain ⟨hempty, -⟩ | ⟨-, hfull, -⟩ | ⟨-, -, hok⟩ := unpackCore_cases s
  · exact (hinp hempty).elim
  · rw [hroom] at hfull
    contradiction
  · exact hok

/-- UNPACK on a non-empty stream whose payload fits ends `done`, in every phase. -/
theorem exec_unpack_done {s : State} (he : s.err = 0) (hinp : s.inp ≠ [])
    (hfits : Fits s (unpackedBits s.inp).length) :
    exec .unpack s = .next (consumeIn true
      (reply .done ((unpackedBits s.inp).map tokenOf) (unpacked s))) := by
  rw [exec_eq_runCommand (by decide), runCommand_ready he rfl, bodyOf, unpackBody,
    unpackCore_fits hinp hfits, andThen_ok_nil, emitTokens_eq (holdsPayload_unpacked s), unpackedBits_eq]
  rfl

/-- Settles O39: the state and OUT of `exec_unpack_done`, with the sentinel at the first byte's highest set
bit. -/
theorem unpackStripsPadding : Obligations.UnpackStripsPadding := by
  intro s he hinp hfits
  refine ⟨_, exec_unpack_done he hinp hfits, ?_, ?_, ?_, ?_⟩ <;> rw [unpacked_eq]
  · rfl
  · exact holds_of_written rfl rfl
  · exact sameBitsFrom_of_written rfl
  · exact padNoted_of_sentinel hinp rfl rfl

/-! ### UNPACK after PACK (rule R215) -/

/-- Fewer than eight zeros before a 1 make it the sentinel. -/
theorem sentinelIndex_zeros {n : Nat} (h : n < 8) (bits : List Bit) :
    sentinelIndex (List.replicate n false ++ true :: bits) = some n := by
  have htake : (List.replicate n false ++ true :: bits).take 8 =
      List.replicate n false ++ true :: bits.take (7 - n) := by
    rw [List.take_append, List.length_replicate, List.take_of_length_le (by rw [List.length_replicate]; omega),
      show 8 - n = 7 - n + 1 by omega, List.take_succ_cons]
  rw [sentinelIndex, htake, List.findIdx?_append, List.findIdx?_replicate, if_neg (by simp)]
  simp [List.findIdx?_cons]

/-- The sentinel that PACK puts before a payload is the one that UNPACK finds. -/
theorem sentinelIndex_withPrefix (payload : List Bit) :
    sentinelIndex (withPrefix payload) = some (paddingFor payload.length - 1) :=
  sentinelIndex_zeros (by have := paddingFor_range payload.length; omega) payload

theorem strippedBits_withPrefix (payload : List Bit) :
    strippedBits (sentinelIndex (withPrefix payload)) = paddingFor payload.length := by
  rw [sentinelIndex_withPrefix]
  exact Nat.sub_add_cancel (paddingFor_range _).1

theorem unpackedBits_packedBytes (payload : List Bit) : unpackedBits (packedBytes payload) = payload := by
  rw [unpackedBits_eq, bitsOfBytes_packedBytes, payloadOf, strippedBits_withPrefix,
    withPrefix, List.append_cons]
  refine List.drop_left' ?_
  rw [List.length_append, List.length_replicate]
  exact Nat.sub_add_cancel (paddingFor_range _).1

/-- The packed bytes of a payload leave UNPACK in the state that PACK left, with `PADFB` cleared. -/
theorem unpacked_packedBytes {s : State} {payload : List Bit} (h : s.inp = packedBytes payload) :
    unpacked s = { packed payload s with padfb := false } := by
  rw [unpacked_eq, h, unpackedBits_packedBytes, bitsOfBytes_packedBytes, notePadding,
    strippedBits_withPrefix, sentinelIndex_withPrefix]
  rfl

/-- UNPACK of the packed bytes of a payload that fits outputs the payload's tokens. -/
theorem exec_unpack_packedBytes {s : State} {payload : List Bit} (he : s.err = 0)
    (hfits : Fits s payload.length) :
    exec .unpack { s with inp := packedBytes payload } = .next (consumeIn true
      (reply .done (payload.map tokenOf) { packed payload s with padfb := false })) := by
  have hpayload := unpackedBits_packedBytes payload
  have hnonempty : packedBytes payload ≠ [] := by
    rw [← List.length_pos_iff, length_packedBytes]
    exact Nat.succ_pos _
  have hexec := exec_unpack_done (s := { s with inp := packedBytes payload }) he hnonempty
    (by rw [hpayload]; exact hfits)
  rw [hexec, hpayload, unpacked_packedBytes rfl]
  rfl

theorem map_tokenOf_tokenBits {es : List Byte} (h : ∀ e ∈ es, IsToken e) :
    (tokenBits es).map tokenOf = es := by
  have hcancel : ∀ e ∈ es, tokenOf (decide (e = 0x01#8)) = e := fun e he => by
    obtain rfl | rfl := h e he <;> rfl
  rw [tokenBits, List.map_map]
  exact (List.map_congr_left hcancel).trans (List.map_id es)

/-- Settles O42: UNPACK of the packed bytes of a payload strips exactly what PACK put before the payload. -/
theorem packThenUnpackReturnsBits : Obligations.PackThenUnpackReturnsBits := by
  intro s he htokens hfits
  have hlen := length_tokenBits s.inp
  obtain ⟨t, hpack, hresults, herr, hcap, hpad⟩ : ∃ t, exec .pack s = .next t ∧
      t.results = s.results ++ [.completed .done (packedBytes (tokenBits s.inp))] ∧ t.err = 0 ∧
      t.bitcap = s.bitcap ∧ t.pad = BitVec.ofNat 4 (paddingFor (tokenBits s.inp).length) :=
    ⟨_, exec_pack_done he htokens hfits, by simp [packed, withPayload, he]⟩
  have hunpack := exec_unpack_packedBytes (s := t) (payload := tokenBits s.inp) herr
    (by rw [Fits, hcap, hlen]; exact hfits)
  rw [map_tokenOf_tokenBits htokens] at hunpack
  exact ⟨t, _, _, hpack, hresults, hunpack, rfl, rfl, hpad.symm, hlen, holds_of_written (s := t) rfl rfl⟩

end Sys2Proof.Proofs.Codec
end

section
/-! PROOFS. ENC as a whole (45_encoder.md, rules R240 to R246): the state and the OUT stream it ends with,
the walk of DEC over concatenated codes (46_decoder.md, rule R269), and that DEC undoes ENC. -/

namespace Sys2Proof.Proofs.Encoder

open Sys2Proof.Machine Sys2Proof.Laws Sys2Proof.Claims Sys2Proof.Proofs.CodeTable
  Sys2Proof.Proofs.Codec

/-! ### Encoding a stream (rule R241) -/

theorem symbolOf_toNat {e : Byte} (h : e.toNat < 128) : (symbolOf e).toNat = e.toNat := by
  rw [symbolOf, BitVec.toNat_setWidth, Nat.mod_eq_of_lt h]

/-- The encoder looks a symbol's code up where the statements do. -/
theorem codeFor_of_lt {s : State} {e : Byte} (h : e.toNat < 128) : codeFor s e = s.readCode e.toNat := by
  rw [codeFor, isSymbol, if_pos (decide_eq_true h), symbolOf_toNat h]

theorem readCode_of_hasCode {s : State} {e : Byte} (h : HasCode s e) :
    ∃ c, s.readCode e.toNat = some c ∧ codeBits s e = c.bits := by
  obtain ⟨c, hc⟩ := Option.isSome_iff_exists.mp h.2
  exact ⟨c, hc, by rw [codeBits, hc]; rfl⟩

theorem encodedBits_cons (s : State) (e : Byte) (es : List Byte) :
    encodedBits s (e :: es) = codeBits s e ++ encodedBits s es := List.flatMap_cons

theorem encodedBits_congr {s t : State} (h : t.code = s.code) (es : List Byte) :
    encodedBits t es = encodedBits s es := by
  have hbits : codeBits t = codeBits s := funext fun e => by rw [codeBits, codeBits, readCode_congr h]
  rw [encodedBits, encodedBits, hbits]

theorem appendBits_append (xs ys : List Bit) (s : State) :
    appendBits (xs ++ ys) s = appendBits ys (appendBits xs s) := by
  induction xs generalizing s with
  | nil => rfl
  | cons x xs ih => rw [List.cons_append, appendBits_cons, ih, ← appendBits_cons]

/-- An element whose code fits has its code appended. -/
theorem encStep_fits {e : Byte} {i : Nat} {s : State} (he : HasCode s e)
    (hfits : Fits s (s.bitlen + (codeBits s e).length)) :
    encStep e i s = .ok (appendBits (codeBits s e) s) [] := by
  obtain ⟨c, hread, hbits⟩ := readCode_of_hasCode he
  rw [hbits] at hfits ⊢
  have hroom : exceedsCap s.bitcap (s.bitlen + c.len) = false := Canonical.exceedsCap_eq_false_iff.mpr hfits
  rw [encStep, codeFor_of_lt he.1, hread]
  exact if_neg (by rw [hroom]; exact Bool.false_ne_true)

/-- Encoding a stream that fits appends its codes, concatenated in order. -/
theorem forEach_encStep {es : List Byte} {i : Nat} {s : State} (hes : ∀ e ∈ es, HasCode s e)
    (hfits : Fits s (s.bitlen + (encodedBits s es).length)) :
    forEach encStep es i s = .ok (appendBits (encodedBits s es) s) [] := by
  induction es generalizing i s with
  | nil => rfl
  | cons e es ih =>
    obtain ⟨he, hes⟩ := List.forall_mem_cons.mp hes
    rw [encodedBits_cons] at hfits ⊢
    rw [List.length_append] at hfits
    have hone : Fits s (s.bitlen + (codeBits s e).length) := fun c hc => by have := hfits c hc; omega
    have hrest : Fits (appendBits (codeBits s e) s)
        (s.bitlen + (codeBits s e).length + (encodedBits s es).length) := fun c hc => by
      have := hfits c hc; omega
    rw [forEach_cons, encStep_fits he hone, andThen_ok_nil, appendBits_append]
    exact ih (s := appendBits (codeBits s e) s) hes hrest

/-! ### ENC as a whole -/

/-- ENC on a stream of symbols with codes that fit ends `done`, as PACK does on the bits of the codes. -/
theorem exec_enc_done {s : State} (he : s.err = 0) (hp : s.phase = .coded)
    (hcodes : ∀ e ∈ s.inp, HasCode s e) (hfits : Fits s (encodedBits s s.inp).length) :
    exec .enc s = .next (consumeIn true
      (reply .done (packedBytes (encodedBits s s.inp)) (packed (encodedBits s s.inp) s))) := by
  have hload : forEach encStep s.inp 0 (emptyPayload s) =
      .ok (withPayload (encodedBits s s.inp) s) [] := by
    rw [← appendBits_emptyPayload]
    exact forEach_encStep (s := emptyPayload s) hcodes
      (by rw [emptyPayload_bitlen, Nat.zero_add]; exact hfits)
  rw [exec_eq_runCommand (by decide), runCommand_ready he (by rw [hp]; rfl), bodyOf, encBody, hload,
    andThen_ok_nil, packCore_withPayload]
  rfl

/-- Settles O43: the state and OUT of `exec_enc_done`, read off the packed payload. -/
theorem encPacksConcatenatedCodes : Obligations.EncPacksConcatenatedCodes := by
  intro s he hp hcodes hfits
  exact ⟨_, _, exec_enc_done he hp hcodes hfits, rfl, holds_of_written rfl rfl, sameBitsFrom_of_written rfl,
    isPacked_packedBytes _⟩

/-! ### The decoder's walk over codes (rules R264, R265 and R269) -/

/-- Along a path to a leaf the decoder outputs the leaf's symbol, at its end, and returns to the root. -/
theorem forEach_decStep_leafPath {b : Bit} {bits : List Bit} {i : Nat} {s : State} {sym : Sym}
    (hpath : LeafPath s s.cur (b :: bits) sym) :
    forEach decStep (b :: bits) i s = .ok { s with cur := s.root } [elementOf sym] := by
  induction bits generalizing b i s with
  | nil =>
    obtain ⟨m, q, hwalk, hleaf⟩ := hpath
    obtain ⟨p, l, r, hread, hend⟩ := walk_cons_eq_some hwalk
    cases hend
    rw [forEach_cons, decStep_leaf hread hleaf]
    rfl
  | cons c bits ih =>
    have ⟨m, q, hwalk, _⟩ := hpath
    obtain ⟨p, l, r, hread, hrest⟩ := walk_cons_eq_some hwalk
    obtain ⟨p', l', r', hnext, -⟩ := walk_cons_eq_some hrest
    rw [forEach_cons, decStep_internal hread hnext, andThen_ok_nil]
    have hmoved : ∀ n, { s with cur := if b then r else l }.readNode n = s.readNode n := fun _ => rfl
    exact ih ((leafPath_congr hmoved).mpr ((leafPath_internal_cons hread).mp hpath))

/-- From CODED on, an element's code is a path from the root to the leaf of its symbol, not an empty
one (rules R192 and R193). -/
theorem leafPath_of_hasCode {s : State} (h : CodedInv s) {e : Byte} (he : HasCode s e) :
    codeBits s e ≠ [] ∧ LeafPath s s.root (codeBits s e) (symbolOf e) := by
  obtain ⟨hpaths, hothers, -⟩ := h
  obtain ⟨c, hread, hbits⟩ := readCode_of_hasCode he
  have hmem : symbolOf e ∈ leafSymbols s := by
    by_contra hnot
    rw [symbolOf, ← BitVec.ofNat_toNat] at hnot
    rw [hothers e.toNat he.1 hnot] at hread
    cases hread
  have hpath := hpaths _ hmem
  simp only [codeIsPath, symbolOf_toNat he.1, hread, Bool.and_eq_true, decide_eq_true_eq,
    leadsTo_iff] at hpath
  obtain ⟨⟨hpos, -⟩, hleads⟩ := hpath
  rw [hbits]
  exact ⟨List.length_pos_iff.mp hpos, hleads⟩

theorem elementOf_symbolOf {e : Byte} (h : e.toNat < 128) : elementOf (symbolOf e) = e := by
  refine BitVec.eq_of_toNat_eq ?_
  rw [elementOf, BitVec.toNat_setWidth, symbolOf_toNat h, Nat.mod_eq_of_lt e.isLt]

/-- From the root, the walk over the codes of a stream outputs the stream and ends at the root. -/
theorem forEach_decStep_encodedBits {s : State} (h : CodedInv s) (hcur : s.cur = s.root) {x : List Byte}
    (hcodes : ∀ e ∈ x, HasCode s e) (i : Nat) : forEach decStep (encodedBits s x) i s = .ok s x := by
  induction x generalizing i with
  | nil => rfl
  | cons e x ih =>
    obtain ⟨he, hx⟩ := List.forall_mem_cons.mp hcodes
    obtain ⟨hne, hpath⟩ := leafPath_of_hasCode h he
    obtain ⟨b, bits, hbits⟩ := List.exists_cons_of_ne_nil hne
    have hback : { s with cur := s.root } = s := congrArg (fun n => { s with cur := n }) hcur.symm
    rw [← hcur, hbits] at hpath
    rw [encodedBits_cons, hbits, forEach_append, forEach_decStep_leafPath hpath, hback,
      elementOf_symbolOf he.1, andThen_ok, ih hx]
    rfl

/-! ### DEC of concatenated codes (rule R269) -/

theorem sameLifecycle_startWalk_unpacked (s : State) : SameLifecycle s (startWalk (unpacked s)) :=
  ⟨rfl, rfl, rfl, rfl, rfl, rfl, rfl, rfl, rfl, rfl, rfl, rfl, rfl⟩

/-- DEC of a stream whose payload is the codes of `x` ends `done` with output `x`, at the root. -/
theorem exec_dec_encodedBits {s : State} {x : List Byte} (hinv : LifecycleInv s) (he : s.err = 0)
    (hp : s.phase = .coded) (hinp : s.inp ≠ []) (hcodes : ∀ e ∈ x, HasCode s e)
    (hpayload : unpackedBits s.inp = encodedBits s x) (hfits : Fits s (encodedBits s x).length) :
    exec .dec s = .next (consumeIn true (reply .done x (startWalk (unpacked s)))) := by
  obtain ⟨-, -, -, hcoded⟩ := lifecycleInv_congr (sameLifecycle_startWalk_unpacked s) hinv he
  have hrank : 3 ≤ (startWalk (unpacked s)).phase.rank := by
    rw [(sameLifecycle_startWalk_unpacked s).phase, hp]
    decide
  have hwalk : walkPayload (unpacked s) = .ok (startWalk (unpacked s)) x := by
    rw [walkPayload, readPayload_eq (holdsPayload_unpacked s), ← unpackedBits_eq, hpayload]
    exact forEach_decStep_encodedBits (hcoded hrank) rfl hcodes 0
  rw [exec_eq_runCommand (by decide), runCommand_ready he (by rw [hp]; rfl), bodyOf, decBody,
    unpackCore_fits hinp (hpayload ▸ hfits), andThen_ok_nil, hwalk]
  rfl

/-! ### DEC after ENC (rule R246) -/

theorem packedBytes_ne_nil (payload : List Bit) : packedBytes payload ≠ [] := by
  rw [← List.length_pos_iff, length_packedBytes]
  exact Nat.succ_pos _

/-- DEC of the packed codes of a stream that fit outputs the stream, and finds a sentinel. -/
theorem exec_dec_packedBytes {s : State} {x : List Byte} (hinv : LifecycleInv s) (he : s.err = 0)
    (hp : s.phase = .coded) (hcodes : ∀ e ∈ x, HasCode s e) (hfits : Fits s (encodedBits s x).length) :
    exec .dec { s with inp := packedBytes (encodedBits s x) } = .next (consumeIn true
      (reply .done x (startWalk { packed (encodedBits s x) s with padfb := false }))) := by
  have hports := lifecycleInv_ports hinv s.host (packedBytes (encodedBits s x)) s.results
  rw [exec_dec_encodedBits hports he hp (packedBytes_ne_nil _) hcodes (unpackedBits_packedBytes _) hfits,
    unpacked_packedBytes rfl]
  rfl

/-- Settles O47: what ENC outputs unpacks to the codes of its stream, over which DEC walks back to the
stream. -/
theorem encodeThenDecodeReturnsInput : Obligations.EncodeThenDecodeReturnsInput := by
  intro s he hp hinv hcodes hfits
  obtain ⟨t, henc, hresults, herr, hphase, hcap, hcode, hroot⟩ : ∃ t, exec .enc s = .next t ∧
      t.results = s.results ++ [.completed .done (packedBytes (encodedBits s s.inp))] ∧ t.err = 0 ∧
      t.phase = .coded ∧ t.bitcap = s.bitcap ∧ t.code = s.code ∧ t.root = s.root :=
    ⟨_, exec_enc_done he hp hcodes hfits, rfl, he, hp, rfl, rfl, rfl⟩
  have hbits := encodedBits_congr hcode s.inp
  have hdec := exec_dec_packedBytes (x := s.inp) (Lifecycle.lifecycleInv_exec hinv henc) herr hphase
    (fun e he => by rw [HasCode, readCode_congr hcode]; exact hcodes e he)
    (by rw [hbits, Fits, hcap]; exact hfits)
  rw [hbits] at hdec
  exact ⟨t, _, _, henc, hresults, hdec, rfl, rfl, rfl, hroot⟩

end Sys2Proof.Proofs.Encoder
end

section
/-! PROOFS. DEC as a whole (46_decoder.md, rules R260 to R270): with a tree the decoder's steps are the tree
walk, whatever the payload, and over concatenated codes they recover the symbols. -/

namespace Sys2Proof.Proofs.Decoder

open Sys2Proof.Machine Sys2Proof.Laws Sys2Proof.Claims Sys2Proof.Proofs.MergeTree
  Sys2Proof.Proofs.CodeTable Sys2Proof.Proofs.Progress Sys2Proof.Proofs.GenCommand
  Sys2Proof.Proofs.Codec Sys2Proof.Proofs.Encoder

/-- DEC reaches its walk on a non-empty stream whose payload fits, and ends as the walk ends. -/
theorem exec_dec_of_walk {s t : State} {out : List Byte} (he : s.err = 0)
    (hp : s.phase = .built ∨ s.phase = .coded) (hinp : s.inp ≠ [])
    (hfits : Fits s (unpackedBits s.inp).length)
    (hwalk : forEach decStep (unpackedBits s.inp) 0 (startWalk (unpacked s)) = .ok t out) :
    exec .dec s = .next (consumeIn true (reply .done out t)) := by
  have hlegal : legalIn .dec s.phase = true := by obtain hp | hp := hp <;> rw [hp] <;> rfl
  have hpayload : walkPayload (unpacked s) = .ok t out := by
    rw [walkPayload, readPayload_eq (holdsPayload_unpacked s), ← unpackedBits_eq]
    exact hwalk
  rw [exec_eq_runCommand (by decide), runCommand_ready he hlegal, bodyOf, decBody,
    unpackCore_fits hinp hfits, andThen_ok_nil, hpayload]
  rfl

/-! ### The tree walk, edge by edge (rules R263 and R265) -/

section Walk

variable {s : State} {cur l r : NodeIx} {p q : P64} {bit : Bit} {bits : List Bit}

theorem childOf_internal (hread : s.readNode cur = some (.internal p l r)) :
    childOf s cur bit = if bit then r else l := by
  unfold childOf; rw [hread]

theorem treeWalk_leaf {sym : Sym} (hread : s.readNode cur = some (.internal p l r))
    (hnext : s.readNode (if bit then r else l) = some (.leaf sym q)) :
    treeWalk s cur (bit :: bits) =
      (elementOf sym :: (treeWalk s s.root bits).1, (treeWalk s s.root bits).2) := by
  rw [treeWalk, childOf_internal hread, hnext]
  rfl

theorem treeWalk_internal {l' r' : NodeIx} (hread : s.readNode cur = some (.internal p l r))
    (hnext : s.readNode (if bit then r else l) = some (.internal q l' r')) :
    treeWalk s cur (bit :: bits) = treeWalk s (if bit then r else l) bits := by
  rw [treeWalk, childOf_internal hread, hnext]

end Walk

/-! ### The decoder's steps are the tree walk (rules R264, R266 and R267) -/

/-- Node `n` is internal: where the cursor stands between two steps. -/
def Internal (s : State) (n : NodeIx) : Prop := ∃ p l r, s.readNode n = some (.internal p l r)

section Tree

variable {s : State} (h : IsTree s)
include h

theorem isInternalOver_of_internal {n : NodeIx} (hn : Internal s n) : isInternalOver s n.toNat = true := by
  obtain ⟨p, l, r, hread⟩ := hn
  exact isInternalOver_iff.mpr ⟨p, l, r, by rwa [ofNat_toNat_self],
    child_lt h hread false, child_lt h hread true⟩

theorem internal_root : Internal s s.root := by
  obtain ⟨hlow, -, -, -, hnnode, hroot, -, hint, -⟩ := h
  obtain ⟨p, l, r, hread, -⟩ := isInternalOver_iff.mp (hint s.root.toNat (by omega) (by omega))
  exact ⟨p, l, r, by rwa [ofNat_toNat_self] at hread⟩

/-- The children of an internal node hold nodes. -/
theorem readNode_child {n l r : NodeIx} {p : P64} (hread : s.readNode n = some (.internal p l r)) (b : Bit) :
    (∃ sym q, s.readNode (if b then r else l) = some (.leaf sym q)) ∨ Internal s (if b then r else l) := by
  have huse := (child_lt h hread b).trans (lt_nnode_of_readNode hread)
  obtain ⟨-, -, hlist, -, htree⟩ := h
  exact (readNode_cases htree hlist huse).imp_right fun ⟨q, l', r', hnext, _⟩ => ⟨q, l', r', hnext⟩

/-- From an internal cursor, the decoder's steps output what the tree walk emits, move only the cursor,
and leave it where the tree walk ends, which is internal again. The state `u` of the steps need only hold
the tree of `s`. -/
theorem forEach_decStep_treeWalk {u : State} (hnode : ∀ n, u.readNode n = s.readNode n)
    (hroot : u.root = s.root) (hcur : Internal s u.cur) (bits : List Bit) (i : Nat) :
    forEach decStep bits i u =
        .ok { u with cur := (treeWalk s u.cur bits).2 } (treeWalk s u.cur bits).1 ∧
      Internal s (treeWalk s u.cur bits).2 := by
  induction bits generalizing u i with
  | nil => exact ⟨rfl, hcur⟩
  | cons b bits ih =>
    obtain ⟨p, l, r, hread⟩ := hcur
    have hreadU := (hnode u.cur).trans hread
    obtain ⟨sym, q, hnext⟩ | ⟨q, l', r', hnext⟩ := readNode_child h hread b
    · obtain ⟨hrest, hend⟩ := ih (u := { u with cur := u.root }) hnode hroot
        (by rw [hroot]; exact internal_root h) (i + 1)
      rw [treeWalk_leaf hread hnext, forEach_cons, decStep_leaf hreadU ((hnode _).trans hnext), andThen_ok,
        hrest, hroot]
      exact ⟨rfl, hroot ▸ hend⟩
    · rw [treeWalk_internal hread hnext, forEach_cons, decStep_internal hreadU ((hnode _).trans hnext),
        andThen_ok_nil]
      exact ih (u := { u with cur := if b then r else l }) hnode hroot ⟨q, l', r', hnext⟩ (i + 1)

end Tree

/-- Settles O45: DEC unpacks, and its steps over the payload are the tree walk from the root. -/
theorem decWalksTreeWithoutFault : Obligations.DecWalksTreeWithoutFault := by
  intro s he hp htree hinp hfits
  obtain ⟨hwalk, hend⟩ := forEach_decStep_treeWalk htree (u := startWalk (unpacked s)) (fun _ => rfl) rfl
    (internal_root htree) (unpackedBits s.inp) 0
  refine ⟨_, exec_dec_of_walk he hp hinp hfits hwalk, ?_, ?_, ?_, ?_,
    isInternalOver_of_internal htree hend⟩ <;> rw [unpacked_eq]
  · rfl
  · exact holds_of_written (s := s) rfl rfl
  · exact sameBitsFrom_of_written rfl
  · exact padNoted_of_sentinel hinp rfl rfl

/-- Settles O46: walking each code from the root reaches its symbol's leaf and returns to the root. -/
theorem decRecoversConcatenatedCodes : Obligations.DecRecoversConcatenatedCodes := by
  intro s x he hp hinv hinp hcodes hpayload hfits
  exact ⟨_, exec_dec_encodedBits hinv he hp hinp hcodes hpayload (hpayload ▸ hfits), rfl, rfl, rfl⟩

end Sys2Proof.Proofs.Decoder
end

section
/-! PROOFS. The reset state (70_reset_and_hazards.md, rules R331 and R332), and the reset input (rule
R330). -/

namespace Sys2Proof.Proofs.Reset

open Sys2Proof.Machine Sys2Proof.Laws Sys2Proof.Proofs.Session Sys2Proof.Proofs.Status

theorem status_reset : State.reset.status = 0x00000000#32 := by
  have hshown {w : Nat} (lo : Nat) (field : BitVec w) : State.reset.shown lo field = field :=
    shown_of_no_error rfl lo field
  simp only [State.status, hshown]
  decide

/-- Settles O1: the registers are the record's, and the bulk memories hold no value because the registers
that count their elements are 0. -/
theorem resetStateIsAsSpecified : Obligations.ResetStateIsAsSpecified :=
  ⟨rfl, rfl, rfl, rfl, rfl, rfl, rfl, rfl, rfl, rfl, rfl, rfl, rfl, rfl, rfl, rfl, fun _ => rfl,
    fun _ => rfl, rfl, rfl, status_reset, readSlist_of_nleaf_zero rfl, readNode_of_nnode_zero rfl,
    readBit_of_bitlen_zero rfl⟩

/-- Settles O4: both clear the session, and CLR's reply writes the results alone. -/
theorem resetInputActsAsClr : Obligations.ResetInputActsAsClr := by
  intro s rest h
  have hstep : step s = .next (clearSession { s with host := rest }) := by rw [step, hostMove, h]
  exact ⟨_, _, hstep, exec_clr_next _, rfl⟩

end Sys2Proof.Proofs.Reset
end

section
/-! PROOFS. The host's command requests (70_reset_and_hazards.md, rule R344): a step runs the decoded
command, an illegal word raises `IllegalCommand` (rule R292), and a faulted engine refuses every word but
CLR's (rule R307). -/

namespace Sys2Proof.Proofs.Requests

open Sys2Proof.Machine Sys2Proof.Laws Sys2Proof.Proofs.Encoding Sys2Proof.Proofs.Session

theorem step_command {s : State} {w : Byte} {stream : List Byte} {rest : List Request}
    (h : s.host = .command w stream :: rest) : step s = issueWord w (present stream rest s) := by
  rw [step, hostMove, h]

theorem issueWord_of_decode {w : Byte} {i : Instr} (h : decode w = .command i) (s : State) :
    issueWord w s = exec i s := by
  rw [issueWord, h]

theorem issueWord_of_illegal {w : Byte} (h : ∀ i, decode w ≠ .command i) (s : State) :
    issueWord w s = .next (rejectWord w s) := by
  rw [issueWord]
  cases hd : decode w with
  | command i => exact absurd hd (h i)
  | reservedBits rsv => rfl
  | unassignedOpcode op => rfl

/-- Settles O7: the request is taken, its stream presented, and its word decoded. -/
theorem stepRunsDecodedCommand : Obligations.StepRunsDecodedCommand := by
  intro s w stream rest i h hdecode _
  rw [step_command h, issueWord_of_decode hdecode, present]

/-- No command has a word of opcode 0 or 10 to 15, or one with a reserved bit set (rules R91 and R99). -/
theorem decode_ne_command {w : Byte}
    (h : w = 0x00#8 ∨ (0x0A ≤ w.toNat ∧ w.toNat ≤ 0x0F) ∨ w.extractLsb' 4 4 ≠ 0#4) (i : Instr) :
    decode w ≠ .command i := by
  intro hdecode
  obtain rfl := encode_of_decode hdecode
  obtain ⟨hlow, hhigh⟩ := encode_range i
  obtain hzero | ⟨habove, -⟩ | hreserved := h
  · rw [hzero] at hlow
    exact absurd hlow (by decide)
  · omega
  · exact hreserved (by cases i <;> decide)

/-- Settles O8: such a word is rejected, and with `ERR = 0` rejection is fault entry. -/
theorem illegalWordRaisesIllegalCommand : Obligations.IllegalWordRaisesIllegalCommand := by
  intro s w stream rest h he hillegal
  refine ⟨_, by rw [step_command h, issueWord_of_illegal (decode_ne_command hillegal)], ?_⟩
  rw [rejectWord, if_pos (by simpa using he)]
  rfl

/-- The words of the five commands with a stream (rules R92 and R93). -/
theorem decode_streamWord {w : Byte}
    (h : w = 0x02#8 ∨ w = 0x06#8 ∨ w = 0x07#8 ∨ w = 0x08#8 ∨ w = 0x09#8) :
    ∃ i, decode w = .command i ∧ i.readsIn = true := by
  obtain rfl | rfl | rfl | rfl | rfl := h
  · exact ⟨.hist, decode_encode .hist, rfl⟩
  · exact ⟨.enc, decode_encode .enc, rfl⟩
  · exact ⟨.dec, decode_encode .dec, rfl⟩
  · exact ⟨.pack, decode_encode .pack, rfl⟩
  · exact ⟨.unpack, decode_encode .unpack, rfl⟩

/-- Settles O9: a command's word is refused as the command, which consumes IN where it reads it, and any
other word is rejected, which with `ERR != 0` is a refusal. -/
theorem faultedEngineRefusesAllButClr : Obligations.FaultedEngineRefusesAllButClr := by
  intro s w stream rest h he hclr
  rw [step_command h]
  by_cases hcommand : ∃ i, decode w = .command i
  case pos =>
    obtain ⟨i, hdecode⟩ := hcommand
    have hi : i ≠ .clr := fun hi => hclr (by rw [encode_of_decode hdecode, hi]; rfl)
    refine ⟨_, by rw [issueWord_of_decode hdecode, exec_refused hi (by simpa using he)], ?_, fun hw => ?_⟩
    · cases i.readsIn <;> rfl
    · obtain ⟨j, hj, hreads⟩ := decode_streamWord hw
      cases hdecode.symm.trans hj
      rw [hreads]
      rfl
  case neg =>
    have hillegal : ∀ i, decode w ≠ .command i := fun i hi => hcommand ⟨i, hi⟩
    refine ⟨_, issueWord_of_illegal hillegal _, ?_, fun hw => ?_⟩
    · rw [rejectWord, if_neg (by simpa using he)]
      rfl
    · obtain ⟨j, hj, -⟩ := decode_streamWord hw
      exact absurd hj (hillegal j)

end Sys2Proof.Proofs.Requests
end

section
/-! PROOFS. Where each fault is raised (60_exceptions.md, rules R290 to R303): what fault entry writes, and
for each command the first element or the register at which its pseudocode raises. -/

namespace Sys2Proof.Proofs.Raising

open Sys2Proof.Machine Sys2Proof.Laws Sys2Proof.Claims Sys2Proof.Proofs.Frames Sys2Proof.Proofs.Endings
  Sys2Proof.Proofs.Progress Sys2Proof.Proofs.HistStream Sys2Proof.Proofs.Codec Sys2Proof.Proofs.Encoder

/-! ### Fault entry (rule R303) -/

theorem code_range (c : Cause) : 1 ≤ c.code.toNat ∧ c.code.toNat ≤ 10 := by
  cases c <;> decide

/-- Settles O12: the writes are those of the record, and a position is stored modulo `2^32`. -/
theorem faultEntryWritesErrorRegisters : Obligations.FaultEntryWritesErrorRegisters := by
  intro w c val pos s
  have hpos : BitVec.ofNat 32 (pos % 2 ^ 32) = BitVec.ofNat 32 pos := BitVec.eq_of_toNat_eq (by simp)
  rw [hpos]
  exact ⟨rfl, code_range c⟩

/-! ### The end of a command that raised -/

/-- A fault raised in a state with the host's results of `s` answers as `Raised` says. -/
theorem raised_takeFault (w : Byte) (reads : Bool) (c : Cause) (v : Byte) (p : Nat) {s u : State}
    (hresults : u.results = s.results) :
    Raised w reads s (consumeIn reads (takeFault w c v p u)) c.code v p := by
  refine ⟨?_, ?_, ?_, ?_, fun hreads => ?_, ?_⟩
  case refine_5 => rw [consumeIn_inp, if_pos hreads]
  all_goals simp [hresults]

/-- A command in a phase that allows it raises what its pseudocode raises. -/
theorem exec_raises {i : Instr} {s u : State} {c : Cause} {v : Byte} {p : Nat} (hi : i ≠ .clr)
    (he : s.err = 0) (hlegal : legalIn i s.phase = true) (hbody : bodyOf i s = .raise c v p u) :
    ∃ t, exec i s = .next t ∧ Raised (encode i) i.readsIn s t c.code v p := by
  have hexec : exec i s = conclude i (.raise c v p u) := by
    rw [exec_eq_runCommand hi, runCommand_ready he hlegal, hbody]
  exact ⟨_, hexec, raised_takeFault _ _ c v p (bodyOf_final_results (by rw [hbody]; rfl))⟩

/-- A command in a phase that does not allow it raises `Sequence`. -/
theorem exec_raises_sequence {i : Instr} {s : State} (hi : i ≠ .clr) (he : s.err = 0)
    (hillegal : legalIn i s.phase = false) :
    ∃ t, exec i s = .next t ∧ Raised (encode i) i.readsIn s t 2 0 0 := by
  have hexec : exec i s = conclude i (.raise .sequence 0 0 s) := by
    rw [exec_eq_runCommand hi, runCommand_sequence he hillegal]
  exact ⟨_, hexec, raised_takeFault _ _ .sequence 0 0 rfl⟩

/-- Settles O10: in each of the phases named the command is not legal (rule R93). -/
theorem wrongPhaseRaisesSequence : Obligations.WrongPhaseRaisesSequence := by
  intro s he
  refine ⟨fun hp => ?hist, fun hp => ?sort, fun hp => ?build, fun hp => ?gen, fun hp => ?enc,
    fun hp => ?dec⟩
  case hist => exact exec_raises_sequence (i := .hist) (by decide) he (beq_false_of_ne hp)
  case sort => exact exec_raises_sequence (i := .sort) (by decide) he (beq_false_of_ne hp)
  case build => exact exec_raises_sequence (i := .build) (by decide) he (beq_false_of_ne hp)
  case gen => exact exec_raises_sequence (i := .gen) (by decide) he (beq_false_of_ne hp)
  case enc => exact exec_raises_sequence (i := .enc) (by decide) he (beq_false_of_ne hp)
  case dec =>
    refine exec_raises_sequence (i := .dec) (by decide) he ?_
    obtain hp | hp := hp <;> rw [hp] <;> rfl

/-! ### SORT and BUILD -/

/-- Settles O23: SORT checks `TOTAL` first. -/
theorem sortRaisesEmptyInput : Obligations.SortRaisesEmptyInput := by
  intro s he hp htotal
  exact exec_raises (i := .sort) (by decide) he (by rw [hp]; rfl) (if_pos htotal)

/-- Settles O32: BUILD checks `NLEAF` first; under the invariants the list has two entries or more, so that
BUILD runs through where it is legal. -/
theorem buildRaisesTooFewLeaves : Obligations.BuildRaisesTooFewLeaves := by
  refine ⟨fun s he hp hfew => ?_, fun s t he hinv hexec => ?_⟩
  · exact exec_raises (i := .build) (by decide) he (by rw [hp]; rfl) (if_pos hfew)
  by_cases hp : s.phase = .sorted
  · obtain ⟨hlow, hhigh, hlist⟩ := list_of_lifecycleInv hinv he (by rw [hp]; decide)
    obtain ⟨u, out, hbody⟩ := buildBody_runs hlow hhigh fun i => readSlist_isSome hlist
    have herr : u.err = s.err := (buildBody_writes hbody).1.keeps State.err fun _ => rfl
    rw [exec_eq_runCommand (by decide), runCommand_ready he (by rw [hp]; rfl), bodyOf, hbody] at hexec
    cases hexec
    rw [consumeIn_err, reply_err, herr, he]
    decide
  · obtain ⟨t', hexec', herr, -⟩ :=
      exec_raises_sequence (i := .build) (by decide) he (beq_false_of_ne hp)
    cases hexec.symm.trans hexec'
    rw [herr]
    decide

/-! ### The unpackers (rules R298 and R300) -/

/-- UNPACK, and DEC where it is legal, raise what their shared core raises. -/
theorem unpackers_raise {s u : State} {c : Cause} {v : Byte} {p : Nat} (he : s.err = 0)
    (hcore : unpackCore s = .raise c v p u) :
    (∃ t, exec .unpack s = .next t ∧ Raised 0x09#8 true s t c.code v p) ∧
      (s.phase = .built ∨ s.phase = .coded →
        ∃ t, exec .dec s = .next t ∧ Raised 0x07#8 true s t c.code v p) := by
  refine ⟨?_, fun hp => ?_⟩
  · exact exec_raises (i := .unpack) (by decide) he rfl (andThen_eq_raise.mpr (.inl hcore))
  · refine exec_raises (i := .dec) (by decide) he ?_ (andThen_eq_raise.mpr (.inl hcore))
    obtain hp | hp := hp <;> rw [hp] <;> rfl

/-- Settles O40: the unpacking core checks for a byte first. -/
theorem emptyStreamIsRaised : Obligations.EmptyStreamIsRaised := by
  intro s he hinp
  exact unpackers_raise he (if_pos hinp)

theorem length_unpackedBits (bytes : List Byte) :
    (unpackedBits bytes).length = 8 * bytes.length - strippedBits (sentinelIndex (bitsOfBytes bytes)) := by
  rw [unpackedBits_eq, payloadOf, List.length_drop, length_bitsOfBytes]

/-- The unpacking core raises `Capacity` on a payload longer than `BITCAP`. -/
theorem unpackCore_overflow {s : State} {cap : Nat} (hcap : s.bitcap = some cap) (hinp : s.inp ≠ [])
    (hlong : cap < (unpackedBits s.inp).length) :
    unpackCore s = .raise .capacity 0 0 (notePadding (bitsOfBytes s.inp) s) := by
  rw [length_unpackedBits] at hlong
  obtain ⟨hempty, -⟩ | ⟨-, -, hraise⟩ | ⟨-, hfits, -⟩ := unpackCore_cases s
  · exact absurd hempty hinp
  · exact hraise
  · exact absurd hlong (Canonical.exceedsCap_eq_false_iff.mp hfits cap hcap).not_gt

/-! ### The first element of a stream at which a command raises (rule R14) -/

/-- A loop raises at the first element whose step raises, whatever follows it. -/
theorem forEach_raises {α : Type} {step : α → Nat → State → Effect} {pre post : List α} {e : α}
    {s u t : State} {c : Cause} {v : Byte} {p : Nat} (hpre : forEach step pre 0 s = .ok u [])
    (hstep : step e pre.length u = .raise c v p t) :
    forEach step (pre ++ e :: post) 0 s = .raise c v p t := by
  rw [forEach_append, hpre, andThen_ok_nil, Nat.zero_add, forEach_cons, hstep, andThen_raise]

/-! ### HIST -/

/-- HIST raises what the step of the first element after a countable part raises. -/
theorem exec_hist_raises {s u : State} {pre post : List Byte} {e v : Byte} {c : Cause} {p : Nat}
    (he : s.err = 0) (hp : s.phase = .count) (hinp : s.inp = pre ++ e :: post) (hpre : Countable pre s)
    (hstep : histStep e pre.length (countStream pre s) = .raise c v p u) :
    ∃ t, exec .hist s = .next t ∧ Raised 0x02#8 true s t c.code v p := by
  refine exec_raises (i := .hist) (by decide) he (by rw [hp]; rfl) (u := u) ?_
  show forEach histStep s.inp 0 s = _
  rw [hinp]
  exact forEach_raises (forEach_histStep_ok.mpr ⟨hpre, rfl, rfl⟩) hstep

/-- Settles O18: `SymbolRange` is checked before `TOTAL`. -/
theorem histRaisesSymbolRange : Obligations.HistRaisesSymbolRange := by
  intro s pre post e he hp hinp hsym hroom hrange
  exact exec_hist_raises he hp hinp ⟨hsym, hroom⟩ (histStep_range hrange)

theorem countStream_total_toNat {es : List Byte} {s : State} (h : Countable es s) :
    (countStream es s).total.toNat = s.total.toNat + es.length := by
  obtain ⟨-, hroom⟩ := h
  rw [countStream_total]
  bv_omega

/-- Settles O19: at `e` the counted symbols have filled `TOTAL`. -/
theorem histRaisesCountOverflow : Obligations.HistRaisesCountOverflow := by
  intro s pre post e he hp hinp hsym hsymbol hfull
  have hpre : Countable pre s := ⟨hsym, hfull.le⟩
  exact exec_hist_raises he hp hinp hpre
    (histStep_full hsymbol ((countStream_total_toNat hpre).trans hfull))

/-! ### PACK -/

/-- PACK raises what the step of the first token after bit tokens that fit raises. -/
theorem exec_pack_raises {s u : State} {pre post : List Byte} {e v : Byte} {c : Cause} {p : Nat}
    (he : s.err = 0) (hinp : s.inp = pre ++ e :: post) (hpre : ∀ x ∈ pre, IsToken x)
    (hfits : Fits s pre.length)
    (hstep : loadToken e pre.length (withPayload (tokenBits pre) s) = .raise c v p u) :
    ∃ t, exec .pack s = .next t ∧ Raised 0x08#8 true s t c.code v p := by
  have hload : forEach loadToken pre 0 (emptyPayload s) = .ok (withPayload (tokenBits pre) s) [] := by
    rw [forEach_loadToken hpre (by rwa [emptyPayload_bitlen, Nat.zero_add]), appendBits_emptyPayload]
  refine exec_raises (i := .pack) (by decide) he rfl (u := u) ?_
  rw [bodyOf, packBody, hinp]
  exact andThen_eq_raise.mpr (.inl (forEach_raises hload hstep))

theorem loadToken_malformed {e : Byte} (h : ¬ IsToken e) (i : Nat) (s : State) :
    loadToken e i s = .raise .malformedBitstring e i s := by
  rw [loadToken, bitOfToken_eq_none.mpr (not_or.mp h)]

theorem loadToken_full {e : Byte} (h : IsToken e) (i : Nat) {s : State} (hfull : s.bitcap = some s.bitlen) :
    loadToken e i s = .raise .capacity e i s := by
  rw [loadToken, bitOfToken_of_isToken h]
  exact if_pos hfull

/-- Settles O38: the form of a token is checked before `BITCAP`. -/
theorem packRaisesMalformedBitstring : Obligations.PackRaisesMalformedBitstring := by
  intro s pre post e he hinp hpre hfits htoken
  exact exec_pack_raises he hinp hpre hfits (loadToken_malformed htoken _ _)

/-! ### ENC -/

/-- ENC raises what the step of the first element after elements whose codes fit raises. -/
theorem exec_enc_raises {s u : State} {pre post : List Byte} {e v : Byte} {c : Cause} {p : Nat}
    (he : s.err = 0) (hp : s.phase = .coded) (hinp : s.inp = pre ++ e :: post)
    (hpre : ∀ x ∈ pre, HasCode s x) (hfits : Fits s (encodedBits s pre).length)
    (hstep : encStep e pre.length (withPayload (encodedBits s pre) s) = .raise c v p u) :
    ∃ t, exec .enc s = .next t ∧ Raised 0x06#8 true s t c.code v p := by
  have hload : forEach encStep pre 0 (emptyPayload s) = .ok (withPayload (encodedBits s pre) s) [] := by
    rw [← appendBits_emptyPayload]
    exact forEach_encStep (s := emptyPayload s) hpre
      (by rw [emptyPayload_bitlen, Nat.zero_add]; exact hfits)
  refine exec_raises (i := .enc) (by decide) he (by rw [hp]; rfl) (u := u) ?_
  rw [bodyOf, encBody, hinp]
  exact andThen_eq_raise.mpr (.inl (forEach_raises hload hstep))

theorem encStep_mismatch {e : Byte} {s : State} (h : 128 ≤ e.toNat ∨ s.readCode e.toNat = none)
    (i : Nat) : encStep e i s = .raise .alphabetMismatch e i s := by
  have hnone : codeFor s e = none := by
    by_cases hlt : e.toNat < 128
    · rw [codeFor_of_lt hlt]
      exact h.resolve_left hlt.not_ge
    · exact if_neg (mt (isSymbol_iff e).mp hlt)
  rw [encStep, hnone]

theorem encStep_full {e : Byte} {s : State} {cap : Nat} (h : HasCode s e) (hcap : s.bitcap = some cap)
    (hlong : cap < s.bitlen + (codeBits s e).length) (i : Nat) :
    encStep e i s = .raise .capacity e i s := by
  obtain ⟨c, hread, hbits⟩ := readCode_of_hasCode h
  rw [hbits] at hlong
  rw [encStep, codeFor_of_lt h.1, hread, hcap]
  exact if_pos (decide_eq_true hlong)

/-- Settles O44: the element's code is looked up before `BITCAP` is checked. -/
theorem encRaisesAlphabetMismatch : Obligations.EncRaisesAlphabetMismatch := by
  intro s pre post e he hp hinp hpre hfits hnone
  exact exec_enc_raises he hp hinp hpre hfits
    (encStep_mismatch (s := withPayload (encodedBits s pre) s) hnone _)

/-! ### Capacity, by all four -/

theorem fits_of_le {s : State} {cap n : Nat} (hcap : s.bitcap = some cap) (h : n ≤ cap) : Fits s n :=
  fun c hc => by
    cases hcap.symm.trans hc
    exact h

/-- Settles O41: PACK and ENC at the element whose bits do not fit, UNPACK and DEC in the core they share. -/
theorem capacityIsRaised : Obligations.CapacityIsRaised := by
  intro s cap he hcap
  refine ⟨fun pre post e hinp hpre htoken hlen => ?pack,
    fun pre post e hp hinp hpre hcode hfits hlong => ?enc, fun hinp hlong => ?unpackers⟩
  case pack =>
    subst hlen
    exact exec_pack_raises he hinp hpre (fits_of_le hcap le_rfl)
      (loadToken_full htoken _ (by rw [withPayload, hcap, length_tokenBits]))
  case enc =>
    exact exec_enc_raises he hp hinp hpre (fits_of_le hcap hfits)
      (encStep_full (s := withPayload (encodedBits s pre) s) hcode hcap hlong _)
  case unpackers => exact unpackers_raise he (unpackCore_overflow hcap hinp hlong)

end Sys2Proof.Proofs.Raising
end

section
/-! PROOFS. How every command ends (60_exceptions.md, rules R304, R307 and R312), and the ranges of `ERR`
(rule R290) and `PAD` (rule R29) along every step. -/

namespace Sys2Proof.Proofs.Outcomes

open Sys2Proof.Machine Sys2Proof.Laws Sys2Proof.Proofs.Frames Sys2Proof.Proofs.Endings
  Sys2Proof.Proofs.Session Sys2Proof.Proofs.Codec

/-! ### One answer per command -/

/-- The pseudocode of a command does not consume IN: the end of the command does. -/
theorem bodyOf_final_inp {i : Instr} {s t : State} (h : finalState (bodyOf i s) = some t) :
    t.inp = s.inp :=
  (bodyOf_final_writes h).keeps State.inp fun _ => by cases i <;> rfl

/-- No pseudocode but CLR's writes `ERR`. -/
theorem bodyOf_final_err {i : Instr} {s t : State} (h : finalState (bodyOf i s) = some t) :
    t.err = if i = .clr then 0 else s.err := by
  have hframe := bodyOf_final_writes h
  cases i with
  | clr => cases h; rfl
  | hist | sort | build | gen | enc | dec | pack | unpack => exact hframe.keeps State.err fun _ => rfl

/-- Settles O11, by how the command ends: refused where rule R307 says so, else `done` with `ERR = 0` or
with a fault. -/
theorem everyCommandAnswersOnce : Obligations.EveryCommandAnswersOnce := by
  intro i s t h
  by_cases hrefused : i ≠ .clr ∧ s.err ≠ 0
  case pos =>
    obtain ⟨hi, he⟩ := hrefused
    rw [exec_refused hi he] at h
    cases h
    exact ⟨.refused, [], by simp, iff_of_true rfl ⟨hi, he⟩, iff_of_false nofun (by simpa using he),
      fun hclr => absurd hclr hi, nofun, fun _ => rfl, by simp⟩
  obtain ⟨u, out, hbody, heq⟩ | ⟨c, v, p, u, heq, hi, he, hend⟩ |
    ⟨-, hi, he⟩ | ⟨r, -, heq⟩ := exec_cases i s
  · rw [heq] at h
    cases h
    have hfinal : finalState (bodyOf i s) = some u := by rw [hbody]; rfl
    have herr : u.err = 0 := by
      rw [bodyOf_final_err hfinal, ite_eq_left_iff]
      exact fun hi => by_contra fun he => hrefused ⟨hi, he⟩
    exact ⟨.done, out, by simp [bodyOf_final_results hfinal], iff_of_false nofun hrefused,
      iff_of_true rfl (by simpa using herr), fun _ => rfl, nofun, fun hdone => absurd rfl hdone,
      by simp [bodyOf_final_inp hfinal]⟩
  · rw [heq] at h
    cases h
    obtain ⟨hresults, hinp⟩ : u.results = s.results ∧ u.inp = s.inp := by
      obtain hraise | ⟨-, -, -, -, rfl⟩ := hend
      · have hfinal : finalState (bodyOf i s) = some u := by rw [hraise]; rfl
        exact ⟨bodyOf_final_results hfinal, bodyOf_final_inp hfinal⟩
      · exact ⟨rfl, rfl⟩
    have herr : (consumeIn i.readsIn (takeFault (encode i) c v p u)).err ≠ 0 := by
      rw [consumeIn_err, takeFault_err]
      exact code_ne_zero c
    exact ⟨.fault, [], by simp [hresults], iff_of_false nofun hrefused, iff_of_false nofun herr,
      fun hclr => absurd hclr hi, fun _ => ⟨he, herr, by simp⟩, fun _ => rfl, by simp [hinp]⟩
  · exact absurd ⟨hi, he⟩ hrefused
  · rw [heq] at h
    cases h

/-! ### `PAD` (rules R212 and R217) -/

theorem toNat_ofNat_le {w n m : Nat} (h : n ≤ m) : (BitVec.ofNat w n).toNat ≤ m := by
  rw [BitVec.toNat_ofNat]
  exact (Nat.mod_le _ _).trans h

theorem packCore_final_pad {s t : State} (h : finalState (packCore s) = some t) : t.pad.toNat ≤ 8 := by
  unfold packCore at h
  split at h <;> cases h
  exact toNat_ofNat_le (paddingFor_range _).2

/-- A sentinel is one of the first eight bits. -/
theorem strippedBits_sentinelIndex_le (bits : List Bit) : strippedBits (sentinelIndex bits) ≤ 8 := by
  cases h : sentinelIndex bits with
  | none => exact le_rfl
  | some i =>
    obtain ⟨hi, -⟩ := List.findIdx?_eq_some_iff_getElem.mp h
    exact hi.trans_le (List.length_take_le 8 bits)

theorem notePadding_pad_le (bits : List Bit) (s : State) : (notePadding bits s).pad.toNat ≤ 8 :=
  toNat_ofNat_le (strippedBits_sentinelIndex_le bits)

section Pad

variable {s t : State} (hs : s.pad.toNat ≤ 8)
include hs

/-- ENC and PACK write `PAD` in the packing core only. -/
theorem loadAndPack_final_pad {step : Byte → Nat → State → Effect}
    (hstep : ∀ e k u v, finalState (step e k u) = some v → v.pad = u.pad)
    (h : finalState ((forEach step s.inp 0 (emptyPayload s)).andThen packCore) = some t) :
    t.pad.toNat ≤ 8 := by
  obtain ⟨c, v, p, hraise⟩ | ⟨u, out, -, hpack⟩ := finalState_andThen h
  · exact finalState_forEach_keeps (P := fun u => u.pad.toNat ≤ 8)
      (fun e k u v hu hv => (congrArg BitVec.toNat (hstep e k u v hv)).trans_le hu) (s := emptyPayload s) hs
      (by rw [hraise]; rfl)
  · exact packCore_final_pad hpack

theorem unpackCore_final_pad (h : finalState (unpackCore s) = some t) : t.pad.toNat ≤ 8 := by
  obtain rfl | rfl | ⟨-, rfl⟩ := unpackCore_final h
  · exact hs
  · exact notePadding_pad_le _ _
  · exact notePadding_pad_le (bitsOfBytes s.inp) s

/-- However a command's pseudocode ends, it leaves `PAD` at 0 to 8. -/
theorem bodyOf_final_pad {i : Instr} (h : finalState (bodyOf i s) = some t) : t.pad.toNat ≤ 8 := by
  have hframe := bodyOf_final_writes h
  cases i with
  | clr => cases h; exact Nat.zero_le 8
  | hist | sort | build | gen => rwa [hframe.keeps State.pad fun _ => rfl]
  | enc =>
    refine loadAndPack_final_pad hs (fun e k u v hv => ?_) h
    obtain rfl | ⟨bits, -, rfl⟩ := encStep_final hv <;> rfl
  | pack =>
    refine loadAndPack_final_pad hs (fun e k u v hv => ?_) h
    obtain rfl | ⟨b, -, rfl⟩ := loadToken_final hv <;> rfl
  | unpack => exact unpackCore_final_pad hs (unpackBody_final h)
  | dec =>
    obtain ⟨u, hcore, ht⟩ := decBody_final h
    have hpad := unpackCore_final_pad hs hcore
    rw [ht]
    exact hpad

end Pad

/-! ### Every command, and every step -/

theorem rangeInv_bodyOf {i : Instr} {s t : State} (h : RangeInv s) (hr : finalState (bodyOf i s) = some t) :
    RangeInv t := by
  obtain ⟨herr, hpad⟩ := h
  refine ⟨?_, bodyOf_final_pad hpad hr⟩
  rw [bodyOf_final_err hr]
  split
  · exact Nat.zero_le 10
  · exact herr

/-- Fault entry writes one of the ten codes. -/
theorem rangeInv_takeFault (w : Byte) (c : Cause) (v : Byte) (p : Nat) {s : State} (h : RangeInv s) :
    RangeInv (takeFault w c v p s) :=
  ⟨(Raising.code_range c).2, h.2⟩

theorem rangeInv_consumeIn (reads : Bool) {s : State} (h : RangeInv s) : RangeInv (consumeIn reads s) := by
  rwa [RangeInv, consumeIn_err, consumeIn_pad]

theorem rangeInv_exec {i : Instr} {s t : State} (h : RangeInv s) (hr : exec i s = .next t) : RangeInv t := by
  obtain ⟨u, hu, hend⟩ := exec_next hr
  have hbody : RangeInv u := by
    obtain rfl | hfinal := hu
    · exact h
    · exact rangeInv_bodyOf h hfinal
  obtain ⟨out, rfl⟩ | ⟨c, v, p, rfl⟩ | rfl := hend
  · exact rangeInv_consumeIn _ hbody
  · exact rangeInv_consumeIn _ (rangeInv_takeFault _ c v p hbody)
  · exact rangeInv_consumeIn _ hbody

theorem rangeInv_rejectWord (w : Byte) {s : State} (h : RangeInv s) : RangeInv (rejectWord w s) := by
  unfold rejectWord
  split
  · exact rangeInv_takeFault w .illegalCommand 0 0 h
  · exact h

/-- Settles O52, by the kinds of step: a cleared session has both registers at 0, and idleness and a sample
write neither. -/
theorem stepKeepsRegisterRanges : Obligations.StepKeepsRegisterRanges := by
  intro s t h hstep
  obtain ⟨-, heq⟩ | ⟨rest, -, heq⟩ | ⟨rest, -, heq⟩ | ⟨w, x, rest, i, -, -, heq⟩ |
    ⟨w, x, rest, -, -, heq⟩ := step_cases s <;> rw [heq] at hstep
  · cases hstep; exact h
  · cases hstep; exact ⟨Nat.zero_le 10, Nat.zero_le 8⟩
  · cases hstep; exact h
  · exact rangeInv_exec (s := present x rest s) h hstep
  · cases hstep; exact rangeInv_rejectWord w (s := present x rest s) h

end Sys2Proof.Proofs.Outcomes
end
